-- ==== Sys2Proof/Word.lean ====
section
/-! DEFINITION. The word types of the block (00_scope R12, R13): bytes, 32-bit and 64-bit values, the 80-bit command and
response words, and the 16-byte block of the cipher laid out as in 46_block_cipher_aes128 R216. -/

namespace Sys2Proof

/-- `u8` (R12). -/
abbrev Byte := BitVec 8

/-- `u32` (R12): the nonce, the counter, a coordinate. -/
abbrev Word32 := BitVec 32

/-- A 64-bit value: read by `toNat` it is a `u64`, by `toInt` an `i64` (R12). -/
abbrev Word64 := BitVec 64

/-- The command word `CW`, 80 bits (30_encoding R90). -/
abbrev CmdWord := BitVec 80

/-- The response word `RW`, 80 bits (30_encoding R91). -/
abbrev RspWord := BitVec 80

/-- Four bytes in increasing index: one column of the cipher state (46 R216), one key word (46 R223). -/
structure Word4 where
  b0 : Byte
  b1 : Byte
  b2 : Byte
  b3 : Byte
deriving DecidableEq, Repr

/-- `Block = Byte[16]` (R13), held as the four columns of 46 R216: byte `r + 4c` is byte `r` of column `c`. -/
structure Block where
  c0 : Word4
  c1 : Word4
  c2 : Word4
  c3 : Word4
deriving DecidableEq, Repr

/-- The four bytes, index 0 first. -/
def Word4.toList (w : Word4) : List Byte := [w.b0, w.b1, w.b2, w.b3]

/-- `block[0] .. block[15]` (R13). -/
def Block.toList (b : Block) : List Byte := b.c0.toList ++ b.c1.toList ++ b.c2.toList ++ b.c3.toList

/-- Sixteen zero bytes. -/
def Block.zero : Block := ⟨⟨0, 0, 0, 0⟩, ⟨0, 0, 0, 0⟩, ⟨0, 0, 0, 0⟩, ⟨0, 0, 0, 0⟩⟩

end Sys2Proof
end

