-- ==== Sys2Proof/Config.lean ====
section
/-! DEFINITION. What the spec fixes as parameters (00_scope R8, R10) and the one parameter it leaves open (00_scope R11,
42_pixel_permutation R155): the random generator of the shuffle, a constant without a body. The cipher and the layout of its
input are configuration fields (R9, 20_memory R66), whose default stands in `Machine/Keystream.lean`. -/

namespace Sys2Proof

/-- `B = 16`, the cipher's block size in bytes (R8). -/
def Config.blockBytes : Nat := 16

/-- `B * 8 = 128`, the keystream bits of one block (10_state R31). -/
def Config.blockBits : Nat := 128

/-- `OFFSET_LIMIT = 2^32 * B * 8 = 2^39` (R10, D6). -/
def Config.offsetLimit : Nat := 2 ^ 39

/-- `POINTS_MAX = 2^32` (R10, D9). -/
def Config.pointsMax : Nat := 2 ^ 32

/-- `PAD_BYTE = 0x00`, the host's padding of the key (45 R205, D19). -/
def Config.padByte : Byte := 0

/-- The configuration of the keystream generator: the two parameters that the spec gives with a default (log 8). -/
structure KgConfig where
  /-- `E : Key -> Block -> Block` (00_scope R9) -/
  cipher : Block → Block → Block
  /-- `fmtIn : u32 -> u32 -> Block`, the layout of nonce and counter in the cipher's input (20_memory R66, D5) -/
  fmtIn : Word32 → Word32 → Block

/-- The `PRNG` parameter (42 R155, D11): `seedState`, and `below`, where `below s i` is the spec's draw
`PRNG.below(s, i + 1)`, a `j` with `0 <= j <= i` and the next generator state. The generator's own state type is held as
`Nat`: any type of generator states that can be listed is a set of numbers, and nothing else is assumed of it.
(DESIGN CHOICE, log 7.) -/
structure Prng where
  seedState : Word64 → Nat
  below : Nat → (i : Nat) → Fin (i + 1) × Nat
deriving Inhabited

/-- The block's generator. The spec names none (R155), so this constant has no body: every theorem holds for every
generator. (DESIGN CHOICE, log 7.) -/
opaque Config.prng : Prng

end Sys2Proof
end

