-- ==== Sys2Proof/Syntax.lean ====
section
/-! DEFINITION. The sixteen commands of 30_encoding R94 (every row of the opcode table is one constructor), the registers
of 10_state R21 and the seek modes of 30_encoding R93. The pseudo-operations of 30_encoding R98 have no encoding and no
constructor. -/

namespace Sys2Proof

/-- The registers of the register map (10_state R21). -/
inductive Reg where
  | key0 | key1 | nonce | seed | width | height | chancfg
  | status | kgOffset | kgCounter | kgBlock0 | kgBlock1 | bcPosition | bcCapacity
deriving DecidableEq, Repr

/-- `RW` in the access column of R21: the indices `0x00 .. 0x06`. -/
def Reg.writable : Reg → Bool
  | .key0 | .key1 | .nonce | .seed | .width | .height | .chancfg => true
  | .status | .kgOffset | .kgCounter | .kgBlock0 | .kgBlock1 | .bcPosition | .bcCapacity => false

/-- `Mode = FromStart | FromCurrent | FromEnd` (00_scope R13). -/
inductive SeekMode where
  | fromStart | fromCurrent | fromEnd
deriving DecidableEq, Repr

/-- The commands (30_encoding R94). A 64-bit operand is the field `opd` as it stands in the word: the meanings read it as
`i64` or `u64`, as 30_encoding R92 says for each. -/
inductive Instr where
  /-- SYS.WRREG reg, value (40 R120) -/
  | wrReg (reg : Reg) (value : Word64)
  /-- SYS.RDREG reg (40 R121) -/
  | rdReg (reg : Reg)
  /-- KG.INIT (41 R130) -/
  | kgInit
  /-- KG.SEEK off (41 R134) -/
  | kgSeek (off : Word64)
  /-- KG.BITAT off (41 R135) -/
  | kgBitAt (off : Word64)
  /-- KG.XORBIT bit (41 R136) -/
  | kgXorBit (bit : Bool)
  /-- PP.GEN (42 R151) -/
  | ppGen
  /-- PP.POINT k (42 R152) -/
  | ppPoint (k : Word64)
  /-- BC.INIT (43 R162) -/
  | bcInit
  /-- BC.SEEK n, mode (43 R164) -/
  | bcSeek (n : Word64) (mode : SeekMode)
  /-- BC.READBIT (43 R166) -/
  | bcReadBit
  /-- BC.WRITEBIT bit (43 R167) -/
  | bcWriteBit (bit : Bool)
  /-- BC.TELL p (43 R168) -/
  | bcTell (p : Word64)
  /-- CM.SEEK n, mode (44 R181) -/
  | cmSeek (n : Word64) (mode : SeekMode)
  /-- CM.READBIT (44 R182) -/
  | cmReadBit
  /-- CM.WRITEBIT bit (44 R183) -/
  | cmWriteBit (bit : Bool)
deriving DecidableEq, Repr

end Sys2Proof
end

