-- ==== Sys2Proof/WellFormed.lean ====
section
/-! DEFINITION. Which terms of `Instr` are commands: the further conditions of 30_encoding R94 that the types of
`Syntax.lean` do not already enforce. -/

namespace Sys2Proof

/-- SYS.WRREG names a register of access RW (30_encoding R94, last column; R95); every other term is a command, since its
operands' types hold exactly the values the encoding admits. -/
def WellFormed : Instr → Bool
  | .wrReg reg _ => reg.writable
  | .rdReg _ | .kgInit | .kgSeek _ | .kgBitAt _ | .kgXorBit _ | .ppGen | .ppPoint _ | .bcInit | .bcSeek _ _
  | .bcReadBit | .bcWriteBit _ | .bcTell _ | .cmSeek _ _ | .cmReadBit | .cmWriteBit _ => true

end Sys2Proof
end

