-- ==== Sys2Proof/Decode.lean ====
section
/-! DEFINITION. The decoder of 30_encoding R90 to R95 and R101 (steps 1 and 2), total on every 80-bit word, the encoder
written from the same tables, and the byte transport of 30_encoding R99. Neither reads any state. -/

namespace Sys2Proof

/-- Why a word is no command (30_encoding R95). All of them give the status `IllegalCommand`. -/
inductive Reject where
  /-- the opcode value is not in the table of R94 -/
  | unassignedOpcode
  /-- a must-be-zero bit of `mod` or `opd` is not zero (R92) -/
  | nonzeroReserved
  /-- `mode = 3` (R93) -/
  | reservedMode
  /-- the register index is not in the map of 10_state R21 -/
  | unlistedRegister
  /-- SYS.WRREG of a register of access RO -/
  | readOnlyRegister
  /-- fewer than ten bytes arrived (R99) -/
  | truncated
deriving DecidableEq, Repr

/-! ### Fields of the command word (R90) -/

/-- `CW[79:72]`. -/
def cwOpcode (cw : CmdWord) : Byte := cw.extractLsb' 72 8

/-- `CW[71:64]`. -/
def cwMod (cw : CmdWord) : Byte := cw.extractLsb' 64 8

/-- `CW[63:0]`. -/
def cwOpd (cw : CmdWord) : Word64 := cw.extractLsb' 0 64

/-- The word with the given three fields (R90). -/
def cwOf (opcode mod : Byte) (opd : Word64) : CmdWord := (opcode ++ mod ++ opd : BitVec (8 + 8 + 64))

/-! ### Register indices (10_state R21) and seek modes (R93) -/

/-- The index column of R21. -/
def Reg.index : Reg → Byte
  | .key0 => 0x00 | .key1 => 0x01 | .nonce => 0x02 | .seed => 0x03 | .width => 0x04 | .height => 0x05 | .chancfg => 0x06
  | .status => 0x10 | .kgOffset => 0x11 | .kgCounter => 0x12 | .kgBlock0 => 0x13 | .kgBlock1 => 0x14
  | .bcPosition => 0x15 | .bcCapacity => 0x16

/-- All fourteen registers of R21. -/
def Reg.all : List Reg :=
  [.key0, .key1, .nonce, .seed, .width, .height, .chancfg,
   .status, .kgOffset, .kgCounter, .kgBlock0, .kgBlock1, .bcPosition, .bcCapacity]

/-- The register with this index, if the map lists one. -/
def Reg.ofIndex (i : Byte) : Option Reg := Reg.all.find? fun r => r.index == i

/-- `mode` as R93 numbers it. -/
def SeekMode.code : SeekMode → Byte
  | .fromStart => 0 | .fromCurrent => 1 | .fromEnd => 2

/-! ### Operands by format (R92) -/

/-- Format N: `mod` and `opd` must be 0. -/
def readN (i : Instr) (mod : Byte) (opd : Word64) : Except Reject Instr :=
  if mod = 0 ∧ opd = 0 then .ok i else .error .nonzeroReserved

/-- Format W: `reg` of access RW, `value` any. -/
def readW (mod : Byte) (opd : Word64) : Except Reject Instr :=
  match Reg.ofIndex mod with
  | none => .error .unlistedRegister
  | some r => if r.writable then .ok (.wrReg r opd) else .error .readOnlyRegister

/-- Format Q: `opd` must be 0, `reg` any listed register. -/
def readQ (mod : Byte) (opd : Word64) : Except Reject Instr :=
  if opd = 0 then
    match Reg.ofIndex mod with
    | none => .error .unlistedRegister
    | some r => .ok (.rdReg r)
  else .error .nonzeroReserved

/-- Format O: `mod` must be 0. -/
def readO (f : Word64 → Instr) (mod : Byte) (opd : Word64) : Except Reject Instr :=
  if mod = 0 then .ok (f opd) else .error .nonzeroReserved

/-- Format S: `mod[7:2]` must be 0, `mode` is `mod[1:0]` and 3 is reserved. -/
def readS (f : Word64 → SeekMode → Instr) (mod : Byte) (opd : Word64) : Except Reject Instr :=
  if mod = 0 then .ok (f opd .fromStart)
  else if mod = 1 then .ok (f opd .fromCurrent)
  else if mod = 2 then .ok (f opd .fromEnd)
  else if mod = 3 then .error .reservedMode
  else .error .nonzeroReserved

/-- Format D: `mod[7:1]` and `opd` must be 0, `bit` is `mod[0]`. -/
def readD (f : Bool → Instr) (mod : Byte) (opd : Word64) : Except Reject Instr :=
  if opd = 0 then
    if mod = 0 then .ok (f false) else if mod = 1 then .ok (f true) else .error .nonzeroReserved
  else .error .nonzeroReserved

/-! ### The decoder (R94, R101 steps 1 and 2) -/

/-- The sixteen opcodes of R94. -/
inductive Opcode where
  | wrReg | rdReg | kgInit | kgSeek | kgBitAt | kgXorBit | ppGen | ppPoint
  | bcInit | bcSeek | bcReadBit | bcWriteBit | bcTell | cmSeek | cmReadBit | cmWriteBit
deriving DecidableEq, Repr

/-- The opcode column of R94. -/
def Opcode.code : Opcode → Byte
  | .wrReg => 0x01 | .rdReg => 0x02
  | .kgInit => 0x10 | .kgSeek => 0x11 | .kgBitAt => 0x12 | .kgXorBit => 0x13
  | .ppGen => 0x20 | .ppPoint => 0x21
  | .bcInit => 0x30 | .bcSeek => 0x31 | .bcReadBit => 0x32 | .bcWriteBit => 0x33 | .bcTell => 0x34
  | .cmSeek => 0x41 | .cmReadBit => 0x42 | .cmWriteBit => 0x43

/-- All sixteen. -/
def Opcode.all : List Opcode :=
  [.wrReg, .rdReg, .kgInit, .kgSeek, .kgBitAt, .kgXorBit, .ppGen, .ppPoint,
   .bcInit, .bcSeek, .bcReadBit, .bcWriteBit, .bcTell, .cmSeek, .cmReadBit, .cmWriteBit]

/-- The opcode with this code, if R94 assigns it. -/
def Opcode.ofCode (c : Byte) : Option Opcode := Opcode.all.find? fun o => o.code == c

/-- The operands of a word whose opcode is known, by the format column of R94. -/
def Opcode.read : Opcode → Byte → Word64 → Except Reject Instr
  | .wrReg => readW
  | .rdReg => readQ
  | .kgInit => readN .kgInit
  | .kgSeek => readO .kgSeek
  | .kgBitAt => readO .kgBitAt
  | .kgXorBit => readD .kgXorBit
  | .ppGen => readN .ppGen
  | .ppPoint => readO .ppPoint
  | .bcInit => readN .bcInit
  | .bcSeek => readS .bcSeek
  | .bcReadBit => readN .bcReadBit
  | .bcWriteBit => readD .bcWriteBit
  | .bcTell => readO .bcTell
  | .cmSeek => readS .cmSeek
  | .cmReadBit => readN .cmReadBit
  | .cmWriteBit => readD .cmWriteBit

/-- The decoder of R101, steps 1 and 2: every word is exactly one command or illegal (R95). -/
def decode (cw : CmdWord) : Except Reject Instr :=
  match Opcode.ofCode (cwOpcode cw) with
  | none => .error .unassignedOpcode
  | some o => o.read (cwMod cw) (cwOpd cw)

/-! ### The encoder (R90, R92 to R94) -/

/-- The opcode of a command. -/
def Instr.opcode : Instr → Opcode
  | .wrReg _ _ => .wrReg | .rdReg _ => .rdReg
  | .kgInit => .kgInit | .kgSeek _ => .kgSeek | .kgBitAt _ => .kgBitAt | .kgXorBit _ => .kgXorBit
  | .ppGen => .ppGen | .ppPoint _ => .ppPoint
  | .bcInit => .bcInit | .bcSeek _ _ => .bcSeek | .bcReadBit => .bcReadBit | .bcWriteBit _ => .bcWriteBit
  | .bcTell _ => .bcTell
  | .cmSeek _ _ => .cmSeek | .cmReadBit => .cmReadBit | .cmWriteBit _ => .cmWriteBit

/-- A data bit in the `mod` byte of format D. -/
def bitMod (bit : Bool) : Byte := if bit then 1 else 0

/-- The `mod` byte of a command (R92). -/
def Instr.modByte : Instr → Byte
  | .wrReg r _ => r.index | .rdReg r => r.index
  | .kgInit => 0 | .kgSeek _ => 0 | .kgBitAt _ => 0 | .kgXorBit b => bitMod b
  | .ppGen => 0 | .ppPoint _ => 0
  | .bcInit => 0 | .bcSeek _ m => m.code | .bcReadBit => 0 | .bcWriteBit b => bitMod b | .bcTell _ => 0
  | .cmSeek _ m => m.code | .cmReadBit => 0 | .cmWriteBit b => bitMod b

/-- The `opd` field of a command (R92). -/
def Instr.opdField : Instr → Word64
  | .wrReg _ v => v | .rdReg _ => 0
  | .kgInit => 0 | .kgSeek off => off | .kgBitAt off => off | .kgXorBit _ => 0
  | .ppGen => 0 | .ppPoint k => k
  | .bcInit => 0 | .bcSeek n _ => n | .bcReadBit => 0 | .bcWriteBit _ => 0 | .bcTell p => p
  | .cmSeek n _ => n | .cmReadBit => 0 | .cmWriteBit _ => 0

/-- The word of a command. -/
def encode (i : Instr) : CmdWord := cwOf i.opcode.code i.modByte i.opdField

/-! ### The opcode table of R94 as the spec prints it: mask and match -/

/-- The `mask` column of R94. -/
def Opcode.mask : Opcode → CmdWord
  | .wrReg => 0xFF000000000000000000
  | .rdReg => 0xFF00FFFFFFFFFFFFFFFF
  | .kgInit => 0xFFFFFFFFFFFFFFFFFFFF
  | .kgSeek => 0xFFFF0000000000000000
  | .kgBitAt => 0xFFFF0000000000000000
  | .kgXorBit => 0xFFFEFFFFFFFFFFFFFFFF
  | .ppGen => 0xFFFFFFFFFFFFFFFFFFFF
  | .ppPoint => 0xFFFF0000000000000000
  | .bcInit => 0xFFFFFFFFFFFFFFFFFFFF
  | .bcSeek => 0xFFFC0000000000000000
  | .bcReadBit => 0xFFFFFFFFFFFFFFFFFFFF
  | .bcWriteBit => 0xFFFEFFFFFFFFFFFFFFFF
  | .bcTell => 0xFFFF0000000000000000
  | .cmSeek => 0xFFFC0000000000000000
  | .cmReadBit => 0xFFFFFFFFFFFFFFFFFFFF
  | .cmWriteBit => 0xFFFEFFFFFFFFFFFFFFFF

/-- The `match` column of R94. -/
def Opcode.pattern : Opcode → CmdWord
  | .wrReg => 0x01000000000000000000
  | .rdReg => 0x02000000000000000000
  | .kgInit => 0x10000000000000000000
  | .kgSeek => 0x11000000000000000000
  | .kgBitAt => 0x12000000000000000000
  | .kgXorBit => 0x13000000000000000000
  | .ppGen => 0x20000000000000000000
  | .ppPoint => 0x21000000000000000000
  | .bcInit => 0x30000000000000000000
  | .bcSeek => 0x31000000000000000000
  | .bcReadBit => 0x32000000000000000000
  | .bcWriteBit => 0x33000000000000000000
  | .bcTell => 0x34000000000000000000
  | .cmSeek => 0x41000000000000000000
  | .cmReadBit => 0x42000000000000000000
  | .cmWriteBit => 0x43000000000000000000

/-- The `further condition` column of R94. -/
def Opcode.further (o : Opcode) (cw : CmdWord) : Bool :=
  match o with
  | .wrReg => decide ((cw.extractLsb' 64 8).toNat ≤ 0x06)
  | .rdReg =>
    decide ((cw.extractLsb' 64 8).toNat ≤ 0x06)
      || decide (0x10 ≤ (cw.extractLsb' 64 8).toNat ∧ (cw.extractLsb' 64 8).toNat ≤ 0x16)
  | .bcSeek | .cmSeek => decide ((cw.extractLsb' 64 2).toNat ≠ 3)
  | .kgInit | .kgSeek | .kgBitAt | .kgXorBit | .ppGen | .ppPoint | .bcInit | .bcReadBit | .bcWriteBit | .bcTell
  | .cmReadBit | .cmWriteBit => true

/-- The row of R94 that a word satisfies, mask and further condition together, if there is one: the table as the spec
states it, against which `decode` is held. -/
def tableRow (cw : CmdWord) : Option Opcode :=
  Opcode.all.find? fun o => (cw &&& o.mask == o.pattern) && o.further cw

/-! ### Byte transport (R99) -/

/-- The bytes of a word, `CW[79:72]` first. -/
def wordBytes (w : BitVec 80) : List Byte := (List.range 10).map fun j => w.extractLsb' (72 - 8 * j) 8

/-- The first ten bytes read as a word, most significant byte first, and the bytes after them. -/
def wordOfBytes : List Byte → Option (BitVec 80 × List Byte)
  | a :: b :: c :: d :: e :: f :: g :: h :: i :: j :: rest =>
    some ((a ++ b ++ c ++ d ++ e ++ f ++ g ++ h ++ i ++ j : BitVec (8 + 8 + 8 + 8 + 8 + 8 + 8 + 8 + 8 + 8)), rest)
  | _ => none

/-- Decodes the command at the head of a list of bytes and answers the bytes after it. -/
def decodeBytes (bs : List Byte) : Except Reject (Instr × List Byte) :=
  match wordOfBytes bs with
  | none => .error .truncated
  | some (cw, rest) =>
    match decode cw with
    | .ok i => .ok (i, rest)
    | .error e => .error e

/-- The ten bytes of a command. -/
def encodeBytes (i : Instr) : List Byte := wordBytes (encode i)

/-! ### The host's question about the opcode table -/

/-- The table's word as a command word: one 80-bit word, numbered as the table numbers it; bits at or above `nbits` are
zero. A number with a bit at or above 80 is longer than any command (R96) and is no word. -/
def tableWord (nbits w : Nat) : Option CmdWord :=
  if w % 2 ^ nbits < 2 ^ 80 then some (BitVec.ofNat 80 (w % 2 ^ nbits)) else none

/-- The instruction the decoder reads from the table's word, through the bytes the hardware would transport. -/
def decodeTableWord (nbits w : Nat) : Option Instr :=
  match tableWord nbits w with
  | none => none
  | some cw =>
    match decodeBytes (wordBytes cw) with
    | .ok (i, _) => some i
    | .error _ => none

end Sys2Proof
end

