-- ==== Sys2Proof/Machine/State.lean ====
section
/-! DEFINITION. The state of the block (10_state R20), the host's side of the command port, the pixel surface lent to the
block (20_memory R61), the reasons a step can stop, and the state after reset (10_state R42). -/

namespace Sys2Proof.Machine

/-- `Channel = Red | Green | Blue` (00_scope R13). -/
inductive Channel where
  | red | green | blue
deriving DecidableEq, Repr

/-- `Point = (x : u32, y : u32)` (00_scope R13). -/
structure Point where
  x : Word32
  y : Word32
deriving DecidableEq, Repr

/-- `Pixel = (r, g, b, a)`, four samples of `SAMPLE_BITS = 8` bits (00_scope R13, 20_memory R62). -/
structure Pixel where
  r : Byte
  g : Byte
  b : Byte
  a : Byte
deriving DecidableEq, Repr

/-- The pixel surface as cells of one sample each. Pixel `(x, y)` is the four cells at `4 * (y * 2^32 + x) + k`, with `k`
0, 1, 2, 3 for `r`, `g`, `b`, `a` (the model's own numbering, log 4). A cell that is not listed does not exist on the
attached surface (log 5). -/
abbrev Memory := List Host.Cell

/-- One input of the host, taken by one step. -/
inductive PortInput where
  /-- a command word (30_encoding R90) -/
  | command (cw : CmdWord)
  /-- the reset input (70_reset R260) -/
  | reset
  /-- the reset input while the block runs a command (70_reset R260), before the command's write to the surface was issued
  or, with `issued`, after -/
  | resetDuring (cw : CmdWord) (issued : Bool)
  /-- attaching a pixel surface (70_reset R263 step 2) -/
  | attach (pixels : List (Point × Pixel))
deriving DecidableEq, Repr

/-- The error kinds of the response word (60_exceptions R230). -/
inductive Err where
  | outOfBounds | invalidSeekArgument | illegalOffset | illegalCommand | configInvalid | notActive
deriving DecidableEq, Repr

/-- Why the model stops. The block's own errors are not here: they are responses (60_exceptions R238). -/
inductive Fault where
  /-- Raised by the four bit commands (BC.READBIT, BC.WRITEBIT, CM.READBIT, CM.WRITEBIT) when they address a coordinate
  the attached surface does not have: the memory interface has no answer (20_memory R73, U7 `stuck`). Safe (log 5). -/
  | pixelAbsent
  /-- Raised by PP.POINT, BC.TELL and the four bit commands when the point table or the channel list has no entry at the
  index the rule forms (42 R152, 43 R160): only in states that break 10_state R34 or R36, which no run reaches. Safe
  (log 11). -/
  | cellUndefined
deriving DecidableEq, Repr

/-- What the model does not represent. -/
inductive Refusal where
  /-- Raised by an arm of `exec` whose instruction has no meaning yet; no arm is left that does. Safe. -/
  | notModelled (mnemonic : String)
  /-- Raised by `step` when the host attaches a surface while a cursor session is active: the host's duty of 70_reset R270
  is broken (20_memory R79, U8 `refuse`). Safe (log 6). -/
  | surfaceInSession
deriving DecidableEq, Repr

/-- The state. Field by field it is 10_state R20 and R21, then the surface of 20_memory R61 and the command port of
30_encoding R90, R91. -/
structure State where
  /-- `KEY0` (R24) -/
  key0 : Word64
  /-- `KEY1` (R24) -/
  key1 : Word64
  /-- `NONCE`, bits 31:0 (R25) -/
  nonce : Word32
  /-- `SEED` (R26) -/
  seed : Word64
  /-- `WIDTH`, bits 31:0 (R27) -/
  width : Word32
  /-- `HEIGHT`, bits 31:0 (R27) -/
  height : Word32
  /-- `CHANCFG`, bits 10:0 (R28) -/
  chancfg : BitVec 11
  /-- `STATUS.KG_ACTIVE` (R29) -/
  kgActive : Bool
  /-- `STATUS.PP_VALID` (R29) -/
  ppValid : Bool
  /-- `STATUS.BC_ACTIVE` (R29) -/
  bcActive : Bool
  /-- `STATUS.ERR` (R29) -/
  err : Byte
  /-- `KG.offset : i64` (R30) -/
  kgOffset : Word64
  /-- `KG.counter : u32` (R31) -/
  kgCounter : Word32
  /-- `KG.block` (R32) -/
  kgBlock : Block
  /-- `PP.points` (R34) -/
  ppPoints : List Point
  /-- `PP.w` (R34) -/
  ppW : Word32
  /-- `PP.h` (R34) -/
  ppH : Word32
  /-- `BC.position : i64` (R35) -/
  bcPosition : Word64
  /-- `BC.capacity : u64` (R36) -/
  bcCapacity : Word64
  /-- `BC.chans` (R36) -/
  bcChans : List Channel
  /-- `BC.bpc` (R36) -/
  bcBpc : BitVec 3
  /-- the pixel surface, external to the block (20_memory R61) -/
  surface : Memory
  /-- the host's inputs not yet taken, first first (30_encoding R100; the model's own, log 1) -/
  port : List PortInput
  /-- the response word last returned (30_encoding R91; the model's own, log 2) -/
  rsp : Option RspWord
deriving DecidableEq, Repr

/-- The state right after reset (10_state R42), with no surface attached, no input waiting and no response returned
(log 1, 2, 5; the point table, which R42 leaves unspecified and unreadable, is empty: log 9). -/
def State.reset : State where
  key0 := 0
  key1 := 0
  nonce := 0
  seed := 0
  width := 0
  height := 0
  chancfg := 0x101
  kgActive := false
  ppValid := false
  bcActive := false
  err := 0
  kgOffset := 0
  kgCounter := 0
  kgBlock := Block.zero
  ppPoints := []
  ppW := 0
  ppH := 0
  bcPosition := 0
  bcCapacity := 0
  bcChans := [.red]
  bcBpc := 1
  surface := []
  port := []
  rsp := none

end Sys2Proof.Machine
end

