-- ==== Sys2Proof/Machine/Flags.lean ====
section
/-! DEFINITION. The status register (10_state R29): its word, the error latch, the session flags and who clears them
(10_state R41), and the numeric codes of the errors (60_exceptions R230). -/

namespace Sys2Proof.Machine

/-- The code column of 60 R230. -/
def Err.code : Err → Byte
  | .outOfBounds => 0x01
  | .invalidSeekArgument => 0x02
  | .illegalOffset => 0x03
  | .illegalCommand => 0x04
  | .configInvalid => 0x05
  | .notActive => 0x06

/-- One bit as a bit vector. -/
def flagBit (b : Bool) : BitVec 1 := BitVec.ofBool b

/-- The word SYS.RDREG reads at `STATUS` (R29): bit 0 `KG_ACTIVE`, bit 1 `PP_VALID`, bit 2 `BC_ACTIVE`, bits 15:8 `ERR`,
every other bit 0. -/
def State.statusWord (s : State) : Word64 :=
  ((0 : BitVec 48) ++ s.err ++ (0 : BitVec 5) ++ flagBit s.bcActive ++ flagBit s.ppValid ++ flagBit s.kgActive :
    BitVec (48 + 8 + 5 + 1 + 1 + 1))

/-- `STATUS.ERR` keeps the first code that is not OK until reset (R29, 60 R238, R240). -/
def State.latchErr (s : State) (e : Err) : State := if s.err = 0 then { s with err := e.code } else s

/-- The session flags a legal write to a register clears (R41); a write to no other register is legal. -/
def State.endSessions (s : State) : Reg → State
  | .key0 | .key1 | .nonce => { s with kgActive := false }
  | .seed | .width | .height => { s with ppValid := false, bcActive := false }
  | .chancfg => { s with bcActive := false }
  | .status | .kgOffset | .kgCounter | .kgBlock0 | .kgBlock1 | .bcPosition | .bcCapacity => s

end Sys2Proof.Machine
end

