-- ==== Sys2Proof/Machine/Operands.lean ====
section
/-! DEFINITION. Every operand form of the commands (30_encoding R92, R93) and the field layouts the operands and registers
share: signed and unsigned 64-bit operands, the channel configuration of 10_state R28, packed points (30_encoding R91),
register packing of bytes (20_memory R68). -/

namespace Sys2Proof.Machine

/-- `sext_64` (00_scope R12): the 64 bits read as two's complement. Formats O (signed) and S. -/
def sext64 (v : Word64) : Int := v.toInt

/-- `zext_64` (00_scope R12). Formats W and O (PP.POINT). -/
def zext64 (v : Word64) : Nat := v.toNat

/-- A position or offset as the 64 bits that hold it, two's complement (30_encoding R91). -/
def word64OfInt (c : Int) : Word64 := BitVec.ofInt 64 c

/-- A result bit as response data (30_encoding R91). -/
def bitData (b : Bool) : Word64 := if b then 1 else 0

/-- A packed point, `y * 2^32 + x` (30_encoding R91). -/
def Point.pack (p : Point) : Word64 := (p.y ++ p.x : BitVec (32 + 32))

/-! ### Channels and the channel configuration (10_state R28, D10) -/

/-- `Red = 0`, `Green = 1`, `Blue = 2` (R28, D10). -/
def Channel.code : Channel → BitVec 2
  | .red => 0 | .green => 1 | .blue => 2

/-- The channel with this code; 3 is reserved. -/
def Channel.ofCode (c : BitVec 2) : Option Channel :=
  if c = 0 then some .red else if c = 1 then some .green else if c = 2 then some .blue else none

/-- `px.ch` (00_scope R13). -/
def Pixel.sample (px : Pixel) : Channel → Byte
  | .red => px.r | .green => px.g | .blue => px.b

/-- `px.ch <- v`. -/
def Pixel.setSample (px : Pixel) (ch : Channel) (v : Byte) : Pixel :=
  match ch with
  | .red => { px with r := v }
  | .green => { px with g := v }
  | .blue => { px with b := v }

/-- `CHANCFG.count`, bits 1:0. -/
def cfgCount (c : BitVec 11) : Nat := (c.extractLsb' 0 2).toNat

/-- The three slots `ch0`, `ch1`, `ch2`, bits 3:2, 5:4, 7:6. -/
def cfgSlots (c : BitVec 11) : List (BitVec 2) := [c.extractLsb' 2 2, c.extractLsb' 4 2, c.extractLsb' 6 2]

/-- `CHANCFG.bpc`, bits 10:8. -/
def cfgBpc (c : BitVec 11) : BitVec 3 := c.extractLsb' 8 3

/-- The used slots, those with an index below `count`. -/
def cfgUsed (c : BitVec 11) : List (BitVec 2) := (cfgSlots c).take (cfgCount c)

/-- The ordered channel set `[ch0 .. ch(count-1)]` (R28, 43 R162). -/
def cfgChannels (c : BitVec 11) : List Channel := (cfgUsed c).filterMap Channel.ofCode

/-- The legality of R28 on bits 10:0: 1 to 3 channels, used codes in `{0, 1, 2}` and pairwise distinct, unused slots 0,
1 to 7 bits per channel. -/
def cfgLegal (c : BitVec 11) : Bool :=
  decide (cfgCount c ≠ 0)
    && (cfgUsed c).all (fun code => code != 3)
    && decide (cfgUsed c).Nodup
    && ((cfgSlots c).drop (cfgCount c)).all (fun code => code == 0)
    && cfgBpc c != 0

/-- `Legal(reg, value)` (40 R120): any value for `KEY0`, `KEY1`, `SEED`; `value < 2^32` for `NONCE`, `WIDTH`, `HEIGHT`; for
`CHANCFG` bits 63:11 zero and R28 on the rest. A register of access RO takes no value. -/
def regLegal : Reg → Word64 → Bool
  | .key0, _ | .key1, _ | .seed, _ => true
  | .nonce, v | .width, v | .height, v => decide (v.toNat < 2 ^ 32)
  | .chancfg, v => decide (v.toNat < 2 ^ 11) && cfgLegal (v.setWidth 11)
  | .status, _ | .kgOffset, _ | .kgCounter, _ | .kgBlock0, _ | .kgBlock1, _ | .bcPosition, _ | .bcCapacity, _ => false

/-! ### Byte packing (10_state R24, R32; 20_memory R68) -/

/-- Bytes `4k .. 4k + 3` of a 64-bit value (`k` 0 or 1), the byte with the lowest index in bits 7:0. -/
def word4Of (v : Word64) (k : Nat) : Word4 :=
  ⟨v.extractLsb' (32 * k) 8, v.extractLsb' (32 * k + 8) 8, v.extractLsb' (32 * k + 16) 8, v.extractLsb' (32 * k + 24) 8⟩

/-- Eight bytes as a 64-bit value, the byte with the lowest index in bits 7:0. -/
def packWord4s (lo hi : Word4) : Word64 :=
  (hi.b3 ++ hi.b2 ++ hi.b1 ++ hi.b0 ++ lo.b3 ++ lo.b2 ++ lo.b1 ++ lo.b0 : BitVec (8 + 8 + 8 + 8 + 8 + 8 + 8 + 8))

/-- The key bytes `K[0] .. K[15]` of `KEY0` and `KEY1` (R24). -/
def keyOf (key0 key1 : Word64) : Block := ⟨word4Of key0 0, word4Of key0 1, word4Of key1 0, word4Of key1 1⟩

/-- The key of the block. -/
def State.key (s : State) : Block := keyOf s.key0 s.key1

/-- `KG_BLOCK0` (R32). -/
def blockWord0 (b : Block) : Word64 := packWord4s b.c0 b.c1

/-- `KG_BLOCK1` (R32). -/
def blockWord1 (b : Block) : Word64 := packWord4s b.c2 b.c3

end Sys2Proof.Machine
end

