-- ==== Sys2Proof/Machine/Ops.lean ====
section
/-! DEFINITION. The operations every meaning is written with: reading and writing a pixel of the surface and a register,
returning a response, raising an error (60_exceptions R238), and running a command's rule under the session flags it needs
(60_exceptions R234). -/

namespace Sys2Proof.Machine

/-! ### The pixel surface (20_memory R61 to R63, R74) -/

/-- The canonical form: cell addresses strictly rising. Every listed value differs from what an unlisted address reads as,
since that is no value at all. -/
abbrev Memory.wf (m : Memory) : Prop := m.Pairwise fun a b => a.1 < b.1

/-- One sample; `none` when the surface has no such cell (log 5). -/
def Memory.read : Memory → Nat → Option Byte
  | [], _ => none
  | (k, v) :: m, a => if k = a then some v else Memory.read m a

/-- Writes one sample and keeps the canonical form. -/
def Memory.write : Memory → Nat → Byte → Memory
  | [], a, v => [(a, v)]
  | (k, w) :: m, a, v =>
    if a < k then (a, v) :: (k, w) :: m else if a = k then (a, v) :: m else (k, w) :: Memory.write m a v

/-- The address of sample `r` of the pixel at a coordinate (log 4). -/
def Point.addr (p : Point) : Nat := 4 * (p.y.toNat * 2 ^ 32 + p.x.toNat)

/-- `MemRead((x, y), 1)` (00_scope R14): the whole pixel, if the surface has it. -/
def Memory.pixel (m : Memory) (p : Point) : Option Pixel :=
  match m.read p.addr, m.read (p.addr + 1), m.read (p.addr + 2), m.read (p.addr + 3) with
  | some r, some g, some b, some a => some ⟨r, g, b, a⟩
  | _, _, _, _ => none

/-- `MemWrite((x, y), 1, px)` (00_scope R14): all four samples (20_memory R63). -/
def Memory.setPixel (m : Memory) (p : Point) (px : Pixel) : Memory :=
  (((m.write p.addr px.r).write (p.addr + 1) px.g).write (p.addr + 2) px.b).write (p.addr + 3) px.a

/-- The surface made of the listed pixels; of two for one coordinate the later stands. -/
def Memory.ofPixels (pixels : List (Point × Pixel)) : Memory :=
  pixels.foldl (fun m e => m.setPixel e.1 e.2) []

/-! ### Registers (10_state R21) -/

/-- `x[reg]` (40 R121): every register of the map, zero-extended to 64 bits where its content is narrower. -/
def State.readReg (s : State) : Reg → Word64
  | .key0 => s.key0
  | .key1 => s.key1
  | .nonce => s.nonce.setWidth 64
  | .seed => s.seed
  | .width => s.width.setWidth 64
  | .height => s.height.setWidth 64
  | .chancfg => s.chancfg.setWidth 64
  | .status => s.statusWord
  | .kgOffset => s.kgOffset
  | .kgCounter => s.kgCounter.setWidth 64
  | .kgBlock0 => blockWord0 s.kgBlock
  | .kgBlock1 => blockWord1 s.kgBlock
  | .bcPosition => s.bcPosition
  | .bcCapacity => s.bcCapacity

/-- `x[reg] <- value` for a register of access RW (40 R120), the value being legal for it. -/
def State.writeReg (s : State) (r : Reg) (v : Word64) : State :=
  match r with
  | .key0 => { s with key0 := v }
  | .key1 => { s with key1 := v }
  | .nonce => { s with nonce := v.setWidth 32 }
  | .seed => { s with seed := v }
  | .width => { s with width := v.setWidth 32 }
  | .height => { s with height := v.setWidth 32 }
  | .chancfg => { s with chancfg := v.setWidth 11 }
  | .status | .kgOffset | .kgCounter | .kgBlock0 | .kgBlock1 | .bcPosition | .bcCapacity => s

/-! ### Responses and errors (30_encoding R91, 60_exceptions R238) -/

/-- The response word of R91. -/
def rspWord (status aux : Byte) (data : Word64) : RspWord := (status ++ aux ++ data : BitVec (8 + 8 + 64))

/-- `RW[79:72]`. -/
def rspStatus (w : RspWord) : Byte := w.extractLsb' 72 8

/-- `RW[71:64]`. -/
def rspAux (w : RspWord) : Byte := w.extractLsb' 64 8

/-- `RW[63:0]`. -/
def rspData (w : RspWord) : Word64 := w.extractLsb' 0 64

/-- Returns status OK with `aux` and `data`. -/
def State.respond (s : State) (aux : Byte) (data : Word64) : State := { s with rsp := some (rspWord 0 aux data) }

/-- TAKING AN ERROR (60 R238): the response carries the code with `aux = 0` and `data = 0`, `STATUS.ERR` latches the code
if it was 0, and nothing else is saved or changes. There is no return from it (60 R240). -/
def State.raise (s : State) (e : Err) : State := { s.latchErr e with rsp := some (rspWord e.code 0 0) }

/-! ### Running a rule -/

/-- What a rule's body ends in: `return v` and the state it leaves, `raise e` and the state written before it
(00_scope R14), or no answer from outside the block. -/
inductive Res (α : Type) where
  | done (v : α) (s : State)
  | raised (e : Err) (s : State)
  | stuck (f : Fault)
deriving Repr

/-- The statements of a rule run in the order written (00_scope R14): the first body, then the second on what it left. -/
def Res.andThen {α β : Type} (r : Res α) (k : α → State → Res β) : Res β :=
  match r with
  | .done v s => k v s
  | .raised e s => .raised e s
  | .stuck f => .stuck f

/-- The data of a response: `aux` and `data` (30_encoding R91). -/
structure Reply where
  aux : Byte
  data : Word64
deriving DecidableEq, Repr

/-- A response whose `aux` is 0. -/
def Reply.ofData (data : Word64) : Reply := ⟨0, data⟩

/-- The end of a command: its response. -/
def Res.finish (r : Res Reply) : Host.Outcome State Fault Refusal :=
  match r with
  | .done v s => .next (s.respond v.aux v.data)
  | .raised e s => .next (s.raise e)
  | .stuck f => .fault f

/-- A command that needs session flags (60 R234, 30_encoding R101 step 3): when they are not all 1 it raises `NotActive`
and does nothing else. -/
def State.needing (s : State) (flags : Bool) (body : Res Reply) : Host.Outcome State Fault Refusal :=
  if flags then body.finish else .next (s.raise .notActive)

end Sys2Proof.Machine
end

