-- ==== Sys2Proof/Machine/Cursor.lean ====
section
/-! DEFINITION. The bit cursor: BC.INIT, BC.SEEK, BC.READBIT, BC.WRITEBIT, BC.TELL (43_bit_cursor). -/

namespace Sys2Proof.Machine

/-- What `Tell` answers (R160): a bit cell of the surface. -/
structure BitCell where
  point : Point
  chan : Channel
  bit : Nat
deriving DecidableEq, Repr

/-- The addressing function `Tell(p)` (R160), with `C = |BC.chans|` and `D = BC.bpc`; `none` where the point table or the
channel list has no entry at the index formed. -/
def State.tell (s : State) (p : Nat) : Option BitCell :=
  match s.ppPoints[p / (s.bcChans.length * s.bcBpc.toNat)]?, s.bcChans[p / s.bcBpc.toNat % s.bcChans.length]? with
  | some point, some chan => some ⟨point, chan, p % s.bcBpc.toNat⟩
  | _, _ => none

/-- BC.INIT's state (R162). -/
def State.initCursor (s : State) : State :=
  { s with
    bcChans := cfgChannels s.chancfg
    bcBpc := cfgBpc s.chancfg
    bcCapacity := BitVec.ofNat 64 (s.ppW.toNat * s.ppH.toNat * cfgCount s.chancfg * (cfgBpc s.chancfg).toNat)
    bcPosition := 0
    bcActive := true }

/-- BC.INIT (R162). -/
def execBcInit (s : State) : Host.Outcome State Fault Refusal :=
  s.needing s.ppValid (.done (.ofData s.initCursor.bcCapacity) s.initCursor)

/-- The candidate of `BcSeek` and the error a negative one raises (R164, C2); all arithmetic on unbounded integers. -/
def State.seekCandidate (s : State) (n : Int) : SeekMode → Int × Err
  | .fromStart => (n, .outOfBounds)
  | .fromCurrent => (sext64 s.bcPosition + n, .invalidSeekArgument)
  | .fromEnd => ((zext64 s.bcCapacity : Int) + n, .invalidSeekArgument)

/-- The internal step `BcSeek(n, mode)` (R164). -/
def bcSeek (n : Int) (mode : SeekMode) (s : State) : Res Int :=
  let c := (s.seekCandidate n mode).1
  if c < 0 then .raised (s.seekCandidate n mode).2 s
  else if (zext64 s.bcCapacity : Int) ≤ c then .raised .outOfBounds s
  else .done c { s with bcPosition := word64OfInt c }

/-- BC.SEEK `n, mode` (R164). -/
def execBcSeek (n : Word64) (mode : SeekMode) (s : State) : Host.Outcome State Fault Refusal :=
  s.needing s.bcActive ((bcSeek (sext64 n) mode s).andThen fun c s => .done (.ofData (word64OfInt c)) s)

/-- `BC.position < 0 or BC.position >= BC.capacity` (R166, R167). -/
def State.atEnd (s : State) : Bool :=
  decide (sext64 s.bcPosition < 0 ∨ (zext64 s.bcCapacity : Int) ≤ sext64 s.bcPosition)

/-- The cell at the position and the pixel that holds it: `Tell`, then `MemRead` (R166, R167). -/
def State.fetchCell (s : State) : Res (BitCell × Pixel) :=
  match s.tell (sext64 s.bcPosition).toNat with
  | none => .stuck .cellUndefined
  | some cell =>
    match s.surface.pixel cell.point with
    | none => .stuck .pixelAbsent
    | some px => .done (cell, px) s

/-- `BC.position <- BC.position + 1`. -/
def State.advanceBc (s : State) : State := { s with bcPosition := s.bcPosition + 1 }

/-- `(px.ch >> bitIndex) & 1` (R166). -/
def Pixel.bit (px : Pixel) (ch : Channel) (i : Nat) : Bool := (px.sample ch).getLsbD i

/-- `(px.ch AND NOT (1 << bitIndex)) OR (bit << bitIndex)` (R167). -/
def Pixel.setBit (px : Pixel) (ch : Channel) (i : Nat) (bit : Bool) : Pixel :=
  px.setSample ch ((px.sample ch &&& ~~~((1 : Byte) <<< i)) ||| ((if bit then (1 : Byte) else 0) <<< i))

/-- The internal step `BcRead()` (R166). -/
def bcRead (s : State) : Res Bool :=
  if s.atEnd then .raised .outOfBounds s
  else s.fetchCell.andThen fun c s => .done (c.2.bit c.1.chan c.1.bit) s.advanceBc

/-- The pixel written back with the addressed bit set, and the position advanced (R167). -/
def State.storeCell (s : State) (c : BitCell) (px : Pixel) (bit : Bool) : State :=
  ({ s with surface := s.surface.setPixel c.point (px.setBit c.chan c.bit bit) }).advanceBc

/-- The internal step `BcWrite(bit)` (R167). -/
def bcWrite (bit : Bool) (s : State) : Res Unit :=
  if s.atEnd then .raised .outOfBounds s
  else s.fetchCell.andThen fun c s => .done () (s.storeCell c.1 c.2 bit)

/-- BC.READBIT (R166). -/
def execBcReadBit (s : State) : Host.Outcome State Fault Refusal :=
  s.needing s.bcActive ((bcRead s).andThen fun b s => .done (.ofData (bitData b)) s)

/-- BC.WRITEBIT `bit` (R167). -/
def execBcWriteBit (bit : Bool) (s : State) : Host.Outcome State Fault Refusal :=
  s.needing s.bcActive ((bcWrite bit s).andThen fun _ s => .done (.ofData 0) s)

/-- `RW.aux <- code(ch) + 4 * bitIndex` (R168). -/
def BitCell.aux (c : BitCell) : Byte := BitVec.ofNat 8 (c.chan.code.toNat + 4 * c.bit)

/-- The body of BC.TELL (R168): the cursor does not move and the surface is not touched. -/
def bcTell (p : Word64) (s : State) : Res Reply :=
  if sext64 p < 0 ∨ (zext64 s.bcCapacity : Int) ≤ sext64 p then .raised .outOfBounds s
  else
    match s.tell (sext64 p).toNat with
    | none => .stuck .cellUndefined
    | some cell => .done ⟨cell.aux, cell.point.pack⟩ s

/-- BC.TELL `p` (R168). -/
def execBcTell (p : Word64) (s : State) : Host.Outcome State Fault Refusal := s.needing s.bcActive (bcTell p s)

end Sys2Proof.Machine
end

