-- ==== Sys2Proof/Machine/Aes.lean ====
section
/-! DEFINITION. The block cipher `E` (00_scope R9): AES-128 encryption as 46_block_cipher_aes128 R216 to R224 writes it out.
The whole of it is the spec's own general knowledge, not its source's (log 8). -/

namespace Sys2Proof.Machine

/-- `xtime` (R217): multiplication by 2 in GF(2^8) with the polynomial `0x11B`. -/
def xtime (a : Byte) : Byte := (a <<< 1) ^^^ (if 0x80 ≤ a.toNat then 0x1B else 0)

/-- Multiplication by 3 (R217). -/
def mul3 (a : Byte) : Byte := xtime a ^^^ a

/-- Rows 0x to 7x of the table of R218. -/
def sboxLow : List (List Byte) :=
  [[0x63, 0x7c, 0x77, 0x7b, 0xf2, 0x6b, 0x6f, 0xc5, 0x30, 0x01, 0x67, 0x2b, 0xfe, 0xd7, 0xab, 0x76],
   [0xca, 0x82, 0xc9, 0x7d, 0xfa, 0x59, 0x47, 0xf0, 0xad, 0xd4, 0xa2, 0xaf, 0x9c, 0xa4, 0x72, 0xc0],
   [0xb7, 0xfd, 0x93, 0x26, 0x36, 0x3f, 0xf7, 0xcc, 0x34, 0xa5, 0xe5, 0xf1, 0x71, 0xd8, 0x31, 0x15],
   [0x04, 0xc7, 0x23, 0xc3, 0x18, 0x96, 0x05, 0x9a, 0x07, 0x12, 0x80, 0xe2, 0xeb, 0x27, 0xb2, 0x75],
   [0x09, 0x83, 0x2c, 0x1a, 0x1b, 0x6e, 0x5a, 0xa0, 0x52, 0x3b, 0xd6, 0xb3, 0x29, 0xe3, 0x2f, 0x84],
   [0x53, 0xd1, 0x00, 0xed, 0x20, 0xfc, 0xb1, 0x5b, 0x6a, 0xcb, 0xbe, 0x39, 0x4a, 0x4c, 0x58, 0xcf],
   [0xd0, 0xef, 0xaa, 0xfb, 0x43, 0x4d, 0x33, 0x85, 0x45, 0xf9, 0x02, 0x7f, 0x50, 0x3c, 0x9f, 0xa8],
   [0x51, 0xa3, 0x40, 0x8f, 0x92, 0x9d, 0x38, 0xf5, 0xbc, 0xb6, 0xda, 0x21, 0x10, 0xff, 0xf3, 0xd2]]

/-- Rows 8x to Fx of the table of R218. -/
def sboxHigh : List (List Byte) :=
  [[0xcd, 0x0c, 0x13, 0xec, 0x5f, 0x97, 0x44, 0x17, 0xc4, 0xa7, 0x7e, 0x3d, 0x64, 0x5d, 0x19, 0x73],
   [0x60, 0x81, 0x4f, 0xdc, 0x22, 0x2a, 0x90, 0x88, 0x46, 0xee, 0xb8, 0x14, 0xde, 0x5e, 0x0b, 0xdb],
   [0xe0, 0x32, 0x3a, 0x0a, 0x49, 0x06, 0x24, 0x5c, 0xc2, 0xd3, 0xac, 0x62, 0x91, 0x95, 0xe4, 0x79],
   [0xe7, 0xc8, 0x37, 0x6d, 0x8d, 0xd5, 0x4e, 0xa9, 0x6c, 0x56, 0xf4, 0xea, 0x65, 0x7a, 0xae, 0x08],
   [0xba, 0x78, 0x25, 0x2e, 0x1c, 0xa6, 0xb4, 0xc6, 0xe8, 0xdd, 0x74, 0x1f, 0x4b, 0xbd, 0x8b, 0x8a],
   [0x70, 0x3e, 0xb5, 0x66, 0x48, 0x03, 0xf6, 0x0e, 0x61, 0x35, 0x57, 0xb9, 0x86, 0xc1, 0x1d, 0x9e],
   [0xe1, 0xf8, 0x98, 0x11, 0x69, 0xd9, 0x8e, 0x94, 0x9b, 0x1e, 0x87, 0xe9, 0xce, 0x55, 0x28, 0xdf],
   [0x8c, 0xa1, 0x89, 0x0d, 0xbf, 0xe6, 0x42, 0x68, 0x41, 0x99, 0x2d, 0x0f, 0xb0, 0x54, 0xbb, 0x16]]

/-- `S(a)` (R218): row by the high nibble, column by the low nibble. -/
def sbox (a : Byte) : Byte := ((sboxLow ++ sboxHigh).getD (a.toNat / 16) []).getD (a.toNat % 16) 0

/-- A function applied to each byte. -/
def mapWord4 (f : Byte → Byte) (w : Word4) : Word4 := ⟨f w.b0, f w.b1, f w.b2, f w.b3⟩

/-- Byte by byte XOR. -/
def xorWord4 (v w : Word4) : Word4 := ⟨v.b0 ^^^ w.b0, v.b1 ^^^ w.b1, v.b2 ^^^ w.b2, v.b3 ^^^ w.b3⟩

/-- `RotWord(a0, a1, a2, a3) = (a1, a2, a3, a0)` (R223). -/
def rotWord (w : Word4) : Word4 := ⟨w.b1, w.b2, w.b3, w.b0⟩

/-- `SubWord` (R223). -/
def subWord (w : Word4) : Word4 := mapWord4 sbox w

/-- SubBytes (R219). -/
def subBytes (s : Block) : Block := ⟨mapWord4 sbox s.c0, mapWord4 sbox s.c1, mapWord4 sbox s.c2, mapWord4 sbox s.c3⟩

/-- ShiftRows (R220): row `r` rotated left by `r` columns. -/
def shiftRows (s : Block) : Block :=
  ⟨⟨s.c0.b0, s.c1.b1, s.c2.b2, s.c3.b3⟩, ⟨s.c1.b0, s.c2.b1, s.c3.b2, s.c0.b3⟩,
   ⟨s.c2.b0, s.c3.b1, s.c0.b2, s.c1.b3⟩, ⟨s.c3.b0, s.c0.b1, s.c1.b2, s.c2.b3⟩⟩

/-- One column of MixColumns (R221). -/
def mixColumn (a : Word4) : Word4 :=
  ⟨xtime a.b0 ^^^ mul3 a.b1 ^^^ a.b2 ^^^ a.b3, a.b0 ^^^ xtime a.b1 ^^^ mul3 a.b2 ^^^ a.b3,
   a.b0 ^^^ a.b1 ^^^ xtime a.b2 ^^^ mul3 a.b3, mul3 a.b0 ^^^ a.b1 ^^^ a.b2 ^^^ xtime a.b3⟩

/-- MixColumns (R221). -/
def mixColumns (s : Block) : Block := ⟨mixColumn s.c0, mixColumn s.c1, mixColumn s.c2, mixColumn s.c3⟩

/-- AddRoundKey (R222). -/
def addRoundKey (s rk : Block) : Block := ⟨xorWord4 s.c0 rk.c0, xorWord4 s.c1 rk.c1, xorWord4 s.c2 rk.c2, xorWord4 s.c3 rk.c3⟩

/-- `Rcon[1..10]` (R223). -/
def rcons : List Byte := [0x01, 0x02, 0x04, 0x08, 0x10, 0x20, 0x40, 0x80, 0x1b, 0x36]

/-- The four words of the next round key from the four of the last (R223, `i = 4k .. 4k + 3` with `Rcon[k]`). -/
def nextRoundKey (rk : Block) (rcon : Byte) : Block :=
  let w0 := xorWord4 rk.c0 (xorWord4 (subWord (rotWord rk.c3)) ⟨rcon, 0, 0, 0⟩)
  let w1 := xorWord4 rk.c1 w0
  let w2 := xorWord4 rk.c2 w1
  ⟨w0, w1, w2, xorWord4 rk.c3 w2⟩

/-- The rounds after the first AddRoundKey, one for each `Rcon` left (R224): the last has no MixColumns. -/
def aesRounds : List Byte → Block → Block → Block
  | [], _, s => s
  | [rcon], rk, s => addRoundKey (shiftRows (subBytes s)) (nextRoundKey rk rcon)
  | rcon :: rcons, rk, s =>
    aesRounds rcons (nextRoundKey rk rcon) (addRoundKey (mixColumns (shiftRows (subBytes s))) (nextRoundKey rk rcon))

/-- `E(key, in)` (R224), with the round keys expanded as the rounds need them. -/
def aesEncrypt (key block : Block) : Block := aesRounds rcons key (addRoundKey block key)

end Sys2Proof.Machine
end

