-- ==== Sys2Proof/Machine/Keystream.lean ====
section
/-! DEFINITION. The default of the generator's configuration (20_memory R66, 46_block_cipher_aes128) and the keystream
generator: KG.INIT, KG.SEEK, KG.BITAT, KG.XORBIT (41_keystream_generator). -/

namespace Sys2Proof.Machine

/-- Four bytes of a 32-bit value, most significant first. -/
def word4BE (v : Word32) : Word4 :=
  ⟨v.extractLsb' 24 8, v.extractLsb' 16 8, v.extractLsb' 8 8, v.extractLsb' 0 8⟩

/-- The default of `BLOCK_INPUT_FMT` (20_memory R66, D5): nonce, then counter, each most significant byte first, then eight
zero bytes. -/
def fmtIn (nonce counter : Word32) : Block := ⟨word4BE nonce, word4BE counter, ⟨0, 0, 0, 0⟩, ⟨0, 0, 0, 0⟩⟩

end Sys2Proof.Machine

/-- The block's configuration: each field at the spec's default (log 8). -/
def Sys2Proof.Config.kg : KgConfig where
  cipher := Machine.aesEncrypt
  fmtIn := Machine.fmtIn

namespace Sys2Proof.Machine

/-- `KsBlock(K, nonce, counter) = E(K, fmtIn(nonce, counter))` (R131), for the configured cipher and layout. -/
def ksBlock (key : Block) (nonce counter : Word32) : Block := Config.kg.cipher key (Config.kg.fmtIn nonce counter)

/-- Bit `(block[(i / 8) mod 16] >> (i mod 8)) & 1` (20_memory R65). -/
def blockBit (b : Block) (i : Nat) : Bool := (b.toList.getD (i / 8 % Config.blockBytes) 0).getLsbD (i % 8)

/-- The index of the block that holds offset `i`, `i / 128` (10_state R31). -/
def counterOf (i : Nat) : Word32 := BitVec.ofNat 32 (i / Config.blockBits)

/-- The pure keystream function `Ks(K, nonce, i)` (R131). -/
def ks (key : Block) (nonce : Word32) (i : Nat) : Bool := blockBit (ksBlock key nonce (counterOf i)) i

/-- The refresh of R133: a block that is stale for `i` (R132) is recomputed, a valid one kept. -/
def State.refresh (s : State) (i : Nat) : State :=
  if i / Config.blockBits = s.kgCounter.toNat then s
  else { s with kgCounter := counterOf i, kgBlock := ksBlock s.key s.nonce (counterOf i) }

/-- The internal step `KsBit(i)` (R133). -/
def ksBit (i : Int) (s : State) : Res Bool :=
  if i < 0 ∨ (Config.offsetLimit : Int) ≤ i then .raised .illegalOffset s
  else .done (blockBit (s.refresh i.toNat).kgBlock i.toNat) (s.refresh i.toNat)

/-- `KG.offset <- KG.offset + 1` (R136). -/
def State.advanceKg (s : State) : State := { s with kgOffset := s.kgOffset + 1 }

/-- KG.INIT (R130): needs no flag. -/
def execKgInit (s : State) : Host.Outcome State Fault Refusal :=
  .next (({ s with kgOffset := 0, kgCounter := 0, kgBlock := ksBlock s.key s.nonce 0, kgActive := true }).respond 0 0)

/-- The body of KG.SEEK (R134). -/
def kgSeek (off : Word64) (s : State) : Res Reply :=
  if sext64 off < 0 then .raised .illegalOffset s else .done (.ofData off) { s with kgOffset := off }

/-- KG.SEEK `off` (R134). -/
def execKgSeek (off : Word64) (s : State) : Host.Outcome State Fault Refusal := s.needing s.kgActive (kgSeek off s)

/-- The body of KG.BITAT (R135): `KG.offset` is neither read nor written. -/
def kgBitAt (off : Word64) (s : State) : Res Reply :=
  (ksBit (sext64 off) s).andThen fun b s => .done (.ofData (bitData b)) s

/-- KG.BITAT `off` (R135). -/
def execKgBitAt (off : Word64) (s : State) : Host.Outcome State Fault Refusal := s.needing s.kgActive (kgBitAt off s)

/-- The body of KG.XORBIT (R136). -/
def kgXorBit (bit : Bool) (s : State) : Res Reply :=
  (ksBit (sext64 s.kgOffset) s).andThen fun k s => .done (.ofData (bitData (bit ^^ k))) s.advanceKg

/-- KG.XORBIT `bit` (R136). -/
def execKgXorBit (bit : Bool) (s : State) : Host.Outcome State Fault Refusal := s.needing s.kgActive (kgXorBit bit s)

end Sys2Proof.Machine
end

