-- ==== Sys2Proof/Machine/Cipher.lean ====
section
/-! DEFINITION. The cipher middleware: CM.SEEK, CM.READBIT, CM.WRITEBIT (44_cipher_middleware), each a composition of the
internal steps of the generator and the cursor in the order the rule writes them. -/

namespace Sys2Proof.Machine

/-- Both session flags (R180). -/
def State.cmActive (s : State) : Bool := s.kgActive && s.bcActive

/-- CM.SEEK `n, mode` (R181): the cursor first, then `KG.offset`; the cached block is not touched. -/
def execCmSeek (n : Word64) (mode : SeekMode) (s : State) : Host.Outcome State Fault Refusal :=
  s.needing s.cmActive ((bcSeek (sext64 n) mode s).andThen fun c s =>
    .done (.ofData (word64OfInt c)) { s with kgOffset := word64OfInt c })

/-- CM.READBIT (R182): the raw bit first, then the keystream bit at `KG.offset`. -/
def execCmReadBit (s : State) : Host.Outcome State Fault Refusal :=
  s.needing s.cmActive ((bcRead s).andThen fun r s =>
    (ksBit (sext64 s.kgOffset) s).andThen fun k s => .done (.ofData (bitData (r ^^ k))) s.advanceKg)

/-- CM.WRITEBIT `bit` (R183): the keystream bit first, then the write; `KG.offset` stays advanced when the write fails. -/
def execCmWriteBit (bit : Bool) (s : State) : Host.Outcome State Fault Refusal :=
  s.needing s.cmActive ((ksBit (sext64 s.kgOffset) s).andThen fun k s =>
    (bcWrite (bit ^^ k) s.advanceKg).andThen fun _ s => .done (.ofData 0) s)

end Sys2Proof.Machine
end

