-- ==== Sys2Proof/Machine/Permutation.lean ====
section
/-! DEFINITION. The pixel permutation: PP.GEN and PP.POINT (42_pixel_permutation). -/

namespace Sys2Proof.Machine

/-- The row-major list `points[k] = (k mod w, k / w)` for `k` in `[0, w * h)` (R150). -/
def rowMajor (w h : Nat) : List Point :=
  (List.range (w * h)).map fun k => ⟨BitVec.ofNat 32 (k % w), BitVec.ofNat 32 (k / w)⟩

/-- `swap points[i] and points[j]` (R150). -/
def swapPoints (ps : List Point) (i j : Nat) : List Point :=
  match ps[i]?, ps[j]? with
  | some a, some b => (ps.set i b).set j a
  | _, _ => ps

/-- The loop `for i = n-1 downto 1` of R150, from index `i` down, with the generator's state threaded through. -/
def shuffle (g : Prng) : (i : Nat) → (gen : Nat) → List Point → List Point
  | 0, _, ps => ps
  | i + 1, gen, ps => shuffle g i (g.below gen (i + 1)).2 (swapPoints ps (i + 1) (g.below gen (i + 1)).1)

/-- `Generate(w, h, seed)` (R150). -/
def generate (g : Prng) (w h : Nat) (seed : Word64) : List Point :=
  shuffle g (w * h - 1) (g.seedState seed) (rowMajor w h)

/-- The body of PP.GEN (R151) with the generator as an argument. -/
def ppGen (g : Prng) (s : State) : Res Reply :=
  if Config.pointsMax < s.width.toNat * s.height.toNat then
    .raised .configInvalid { s with bcActive := false, ppValid := false }
  else
    .done (.ofData (BitVec.ofNat 64 (s.width.toNat * s.height.toNat)))
      { s with
        bcActive := false
        ppW := s.width
        ppH := s.height
        ppPoints := generate g s.width.toNat s.height.toNat s.seed
        ppValid := true }

/-- PP.GEN (R151): needs no flag; `BC_ACTIVE` is cleared in every case. -/
def execPpGen (s : State) : Host.Outcome State Fault Refusal := (ppGen Config.prng s).finish

/-- The body of PP.POINT (R152). -/
def ppPoint (k : Word64) (s : State) : Res Reply :=
  if s.ppW.toNat * s.ppH.toNat ≤ zext64 k then .raised .outOfBounds s
  else
    match s.ppPoints[zext64 k]? with
    | some p => .done (.ofData p.pack) s
    | none => .stuck .cellUndefined

/-- PP.POINT `k` (R152). -/
def execPpPoint (k : Word64) (s : State) : Host.Outcome State Fault Refusal := s.needing s.ppValid (ppPoint k s)

end Sys2Proof.Machine
end

