-- ==== Sys2Proof/Machine/System.lean ====
section
/-! DEFINITION. SYS.WRREG and SYS.RDREG (40_system_commands). -/

namespace Sys2Proof.Machine

/-- SYS.WRREG `reg, value` (R120): the register index first (`IllegalCommand`), then the value (`ConfigInvalid`); a legal
write also ends the sessions that used the old value (10_state R41). -/
def execWrReg (reg : Reg) (value : Word64) (s : State) : Host.Outcome State Fault Refusal :=
  if !reg.writable then .next (s.raise .illegalCommand)
  else if !regLegal reg value then .next (s.raise .configInvalid)
  else .next (((s.writeReg reg value).endSessions reg).respond 0 0)

/-- SYS.RDREG `reg` (R121). -/
def execRdReg (reg : Reg) (s : State) : Host.Outcome State Fault Refusal := .next (s.respond 0 (s.readReg reg))

end Sys2Proof.Machine
end

