-- ==== Sys2Proof/Machine/Dispatch.lean ====
section
/-! DEFINITION. `exec`: one arm for each command (30_encoding R94, R101 step 4). -/

namespace Sys2Proof.Machine

def exec (i : Instr) (s : State) : Host.Outcome State Fault Refusal :=
  match i with
  | .wrReg reg value => Sys2Proof.Machine.execWrReg reg value s
  | .rdReg reg => Sys2Proof.Machine.execRdReg reg s
  | .kgInit => Sys2Proof.Machine.execKgInit s
  | .kgSeek off => Sys2Proof.Machine.execKgSeek off s
  | .kgBitAt off => Sys2Proof.Machine.execKgBitAt off s
  | .kgXorBit bit => Sys2Proof.Machine.execKgXorBit bit s
  | .ppGen => Sys2Proof.Machine.execPpGen s
  | .ppPoint k => Sys2Proof.Machine.execPpPoint k s
  | .bcInit => Sys2Proof.Machine.execBcInit s
  | .bcSeek n mode => Sys2Proof.Machine.execBcSeek n mode s
  | .bcReadBit => Sys2Proof.Machine.execBcReadBit s
  | .bcWriteBit bit => Sys2Proof.Machine.execBcWriteBit bit s
  | .bcTell p => Sys2Proof.Machine.execBcTell p s
  | .cmSeek n mode => Sys2Proof.Machine.execCmSeek n mode s
  | .cmReadBit => Sys2Proof.Machine.execCmReadBit s
  | .cmWriteBit bit => Sys2Proof.Machine.execCmWriteBit bit s

end Sys2Proof.Machine
end

