-- ==== Sys2Proof/Machine/Fetch.lean ====
section
/-! DEFINITION. What one step does with each input of the host (30_encoding R100, R101; 70_reset R260, R263); `Step.lean`
only calls it. -/

namespace Sys2Proof.Machine

/-- A command word taken from the port (30_encoding R101): decoded and run, or `IllegalCommand` (R95). -/
def runWord (cw : CmdWord) (s : State) : Host.Outcome State Fault Refusal :=
  match decode cw with
  | .ok i => exec i s
  | .error _ => .next (s.raise .illegalCommand)

/-- The reset input (70_reset R260): every state element of the block at its reset value; the surface is not touched, and
the host's later inputs stand (log 3). -/
def State.takeReset (s : State) : State := { State.reset with surface := s.surface, port := s.port }

/-- The reset input in the middle of a command (70_reset R260): the command is abandoned and gets no response; a write to
the surface that it had issued stands, one that it had not is not issued. All else that it had changed is reset. A command
that waits for a pixel the surface lacks has issued no write, and with `issued` it stops as it stops whole (log 3). -/
def abandonWord (cw : CmdWord) (issued : Bool) (s : State) : Host.Outcome State Fault Refusal :=
  if issued then
    match runWord cw s with
    | .next t => .next t.takeReset
    | .fault f => .fault f
    | .refused r => .refused r
  else .next s.takeReset

/-- Attaching a surface: outside a cursor session it becomes the surface the block reaches (70_reset R263 step 2); during
one the model gives the host no such move (20_memory R79, U8; log 6). -/
def attachSurface (pixels : List (Point × Pixel)) (s : State) : Host.Outcome State Fault Refusal :=
  if s.bcActive then .refused .surfaceInSession else .next { s with surface := Memory.ofPixels pixels }

/-- One input of the host. -/
def takeInput (x : PortInput) (s : State) : Host.Outcome State Fault Refusal :=
  match x with
  | .command cw => runWord cw s
  | .reset => .next s.takeReset
  | .resetDuring cw issued => abandonWord cw issued s
  | .attach pixels => attachSurface pixels s

end Sys2Proof.Machine
end

