-- ==== Sys2Proof/Machine/Step.lean ====
section
/-! DEFINITION. One step: the next input of the host is taken whole (30_encoding R100). With no input waiting the block
waits and keeps all its state (60_exceptions R244). -/

namespace Sys2Proof.Machine

def step (s : State) : Host.Outcome State Fault Refusal :=
  match s.port with
  | [] => .next s
  | x :: rest => takeInput x { s with port := rest }

/-- `s` with the table's word as the host's next command. A program runs because the host issues it command by command;
this is that act for one command (log 1). A number that is no 80-bit word is issued as nothing. -/
def State.withFetchWord (s : State) (nbits w : Nat) : State :=
  match tableWord nbits w with
  | some cw => { s with port := .command cw :: s.port }
  | none => s

end Sys2Proof.Machine
end

