-- ==== Sys2Proof/Machine/HostSoftware.lean ====
section
/-! DEFINITION. The host software of 45_host_byte_adapter_container (00_scope R5): ByteAdapter, Container frame, key and seed
derivation, encode and decode, as functions that issue commands to the block through `step`. Nothing here is hardware and
`step` uses none of it. `none` means the block stopped (a fault of the model). The hash functions and the padding byte are
arguments (00_scope R11, log 13). -/

namespace Sys2Proof.Machine

/-! ### Issuing commands -/

/-- The host issues one command and takes its response (30_encoding R100). -/
def issue (i : Instr) (s : State) : Option (RspWord × State) :=
  match step { s with port := .command (encode i) :: s.port } with
  | .next t =>
    match t.rsp with
    | some w => some (w, t)
    | none => none
  | .fault _ => none
  | .refused _ => none

/-- The host presents an input that is no command. -/
def present (x : PortInput) (s : State) : Option State :=
  match step { s with port := x :: s.port } with
  | .next t => some t
  | .fault _ => none
  | .refused _ => none

/-- Commands in order, stopping at the first status that is not OK (60 R241); the last response. -/
def issueAll : List Instr → State → Option (RspWord × State)
  | [], s => some (rspWord 0 0 0, s)
  | [i], s => issue i s
  | i :: is, s =>
    match issue i s with
    | none => none
    | some (w, s) => if rspStatus w = 0 then issueAll is s else some (w, s)

/-! ### ByteAdapter (R190 to R194) -/

/-- The two bit cursors of R190: the CM triple and the BC triple. -/
inductive BitCursor where
  | ciphered | raw
deriving DecidableEq, Repr

/-- `seek` of the triple. -/
def BitCursor.seek : BitCursor → Word64 → SeekMode → Instr
  | .ciphered => .cmSeek
  | .raw => .bcSeek

/-- `readBit` of the triple. -/
def BitCursor.readBit : BitCursor → Instr
  | .ciphered => .cmReadBit
  | .raw => .bcReadBit

/-- `writeBit` of the triple. -/
def BitCursor.writeBit : BitCursor → Bool → Instr
  | .ciphered => .cmWriteBit
  | .raw => .bcWriteBit

/-- The bits of a byte, most significant first: bit `(v >> (7 - i)) & 1` for `i = 0 .. 7` (R191). -/
def byteBits (v : Byte) : List Bool := (List.range 8).map fun i => v.getLsbD (7 - i)

/-- Writes bits in order up to the first failure; its status. -/
def baWriteBits (c : BitCursor) : List Bool → State → Option (Byte × State)
  | [], s => some (0, s)
  | b :: bs, s =>
    match issue (c.writeBit b) s with
    | none => none
    | some (w, s) => if rspStatus w = 0 then baWriteBits c bs s else some (rspStatus w, s)

/-- `BA.WRITE buf` (R191): the count of fully written bytes and the status. -/
def baWrite (c : BitCursor) : List Byte → State → Option ((Nat × Byte) × State)
  | [], s => some ((0, 0), s)
  | v :: vs, s =>
    match baWriteBits c (byteBits v) s with
    | none => none
    | some (st, s) =>
      if st = 0 then
        match baWrite c vs s with
        | none => none
        | some ((n, st), s) => some ((n + 1, st), s)
      else some ((0, st), s)

/-- One byte of `BA.READ` (R192), `k = 8 - i` bits being left: `v <- v OR (bit << (7 - i))`. -/
def baReadByte (c : BitCursor) : (k : Nat) → Byte → State → Option (Except Byte Byte × State)
  | 0, v, s => some (.ok v, s)
  | k + 1, v, s =>
    match issue c.readBit s with
    | none => none
    | some (w, s) =>
      if rspStatus w = 0 then baReadByte c k (v ||| ((if (rspData w).getLsbD 0 then (1 : Byte) else 0) <<< k)) s
      else some (.error (rspStatus w), s)

/-- `BA.READ count` (R192): the complete bytes and the status. -/
def baRead (c : BitCursor) : (count : Nat) → State → Option ((List Byte × Byte) × State)
  | 0, s => some (([], 0), s)
  | count + 1, s =>
    match baReadByte c 8 0 s with
    | none => none
    | some (.error st, s) => some (([], st), s)
    | some (.ok v, s) =>
      match baRead c count s with
      | none => none
      | some ((vs, st), s) => some ((v :: vs, st), s)

/-- `BA.SEEK byteOffset, mode` (R193, D42): the status; an offset of `2^60` or more either way is refused by the host with
`InvalidSeekArgument` and no command. -/
def baSeek (c : BitCursor) (byteOffset : Int) (mode : SeekMode) (s : State) : Option (Byte × State) :=
  if byteOffset.natAbs < 2 ^ 60 then
    match issue (c.seek (word64OfInt (8 * byteOffset)) mode) s with
    | none => none
    | some (w, s) => some (rspStatus w, s)
  else some (Err.invalidSeekArgument.code, s)

/-! ### Container (R196 to R202) -/

/-- `FrameHash` with digest size `DS` (R197, D20). -/
structure FrameHash where
  ds : Nat
  digest : List Byte → Vector Byte ds

/-- The error kinds of the host layer (R201), and a block status that stops a call elsewhere (60 R241). -/
inductive HostErr where
  | capacityExceeded | checksumMismatch | truncatedFrame
  | blockError (status : Byte)
deriving DecidableEq, Repr

/-- `LE32(length)` (R198): byte `t` is `(length >> 8t) & 0xFF`. -/
def le32 (n : Nat) : List Byte := (List.range 4).map fun t => BitVec.ofNat 8 (n / 2 ^ (8 * t))

/-- The number four little-endian bytes stand for (R200). -/
def ofLE32 (hdr : List Byte) : Nat :=
  (hdr.getD 0 0).toNat + 2 ^ 8 * (hdr.getD 1 0).toNat + 2 ^ 16 * (hdr.getD 2 0).toNat + 2 ^ 24 * (hdr.getD 3 0).toNat

/-- The loop of R199 over the payload's chunks: what has been hashed so far grows chunk by chunk. -/
def ctStream (c : BitCursor) : List (List Byte) → List Byte → State → Option (Except HostErr (List Byte) × State)
  | [], hashed, s => some (.ok hashed, s)
  | chunk :: chunks, hashed, s =>
    match baWrite c chunk s with
    | none => none
    | some ((_, st), s) =>
      if st = 0 then ctStream c chunks (hashed ++ chunk) s else some (.error .capacityExceeded, s)

/-- The digest and then the length at offset 0 (the second half of R199). -/
def ctFinish (h : FrameHash) (c : BitCursor) (payload : List Byte) (s : State) : Option (Except HostErr Unit × State) :=
  match baWrite c (h.digest payload).toList s with
  | none => none
  | some ((_, st), s) =>
    if st ≠ 0 ∨ 2 ^ 32 ≤ payload.length then some (.error .capacityExceeded, s)
    else
      match baSeek c 0 .fromStart s with
      | none => none
      | some (st, s) =>
        if st ≠ 0 then some (.error .capacityExceeded, s)
        else
          match baWrite c (le32 payload.length) s with
          | none => none
          | some ((_, st), s) => if st = 0 then some (.ok (), s) else some (.error .capacityExceeded, s)

/-- `CT.WRITEPAYLOAD` (R199). -/
def ctWritePayload (h : FrameHash) (c : BitCursor) (chunks : List (List Byte)) (s : State) :
    Option (Except HostErr Unit × State) :=
  match baSeek c 4 .fromStart s with
  | none => none
  | some (st, s) =>
    if st ≠ 0 then some (.error .capacityExceeded, s)
    else
      match ctStream c chunks [] s with
      | none => none
      | some (.error e, s) => some (.error e, s)
      | some (.ok payload, s) => ctFinish h c payload s

/-- `CT.READPAYLOAD` (R200), from the current position. -/
def ctReadPayload (h : FrameHash) (c : BitCursor) (s : State) : Option (Except HostErr (List Byte) × State) :=
  match baRead c 4 s with
  | none => none
  | some ((hdr, _), s) =>
    if hdr.length < 4 then some (.error .truncatedFrame, s)
    else
      match baRead c (ofLE32 hdr) s with
      | none => none
      | some ((payload, _), s) =>
        if payload.length < ofLE32 hdr then some (.error .truncatedFrame, s)
        else
          match baRead c h.ds s with
          | none => none
          | some ((sum, _), s) =>
            if sum.length < h.ds then some (.error .truncatedFrame, s)
            else if (h.digest payload).toList = sum then some (.ok payload, s)
            else some (.error .checksumMismatch, s)

/-- The framed size in bit cells (R196). -/
def frameBits (h : FrameHash) (length : Nat) : Nat := 8 * (4 + length + h.ds)

/-! ### Key and seed (R205, R206), encode and decode (R203, R204) -/

/-- Byte `j` of the key: of the passphrase, padded (R205). -/
def keyByte (pad : Byte) (pass : List Byte) (j : Nat) : Byte := pass.getD j pad

/-- The 16-byte key: the passphrase padded or truncated to the block size (R205, D19). -/
def deriveKey (pad : Byte) (pass : List Byte) : Block :=
  let k := keyByte pad pass
  ⟨⟨k 0, k 1, k 2, k 3⟩, ⟨k 4, k 5, k 6, k 7⟩, ⟨k 8, k 9, k 10, k 11⟩, ⟨k 12, k 13, k 14, k 15⟩⟩

/-- The seed: digest bytes 8 to 15 of `SeedHash`, most significant first (R206, D18). -/
def deriveSeed (seedHash : List Byte → Block) (pass : List Byte) : Word64 :=
  let d := seedHash pass
  (d.c2.b0 ++ d.c2.b1 ++ d.c2.b2 ++ d.c2.b3 ++ d.c3.b0 ++ d.c3.b1 ++ d.c3.b2 ++ d.c3.b3 :
    BitVec (8 + 8 + 8 + 8 + 8 + 8 + 8 + 8))

/-- The host-side parameters (00_scope R11) and what encoder and decoder agree on (R204, 70_reset R267); `width` and
`height` are the bounds the host reads from the surface it attaches (70_reset R263 step 2, R266). -/
structure HostParams where
  seedHash : List Byte → Block
  frameHash : FrameHash
  pad : Byte
  nonce : Word32
  width : Word32
  height : Word32
  chancfg : BitVec 11

/-- The register writes and the three constructions of R203, in the order of 70_reset R263. -/
def setupCommands (p : HostParams) (pass : List Byte) : List Instr :=
  [.wrReg .key0 (blockWord0 (deriveKey p.pad pass)), .wrReg .key1 (blockWord1 (deriveKey p.pad pass)),
   .wrReg .nonce (p.nonce.setWidth 64), .wrReg .seed (deriveSeed p.seedHash pass),
   .wrReg .width (p.width.setWidth 64), .wrReg .height (p.height.setWidth 64),
   .wrReg .chancfg (p.chancfg.setWidth 64), .kgInit, .ppGen, .bcInit]

/-- Attaches the surface of a call (R203; 70_reset R263 step 2). A cursor session that an earlier call left on the block is
over, and the host ends it with the reset input first, since during a session nobody may move the surface (20_memory R79;
log 13). -/
def lendSurface (surface : List (Point × Pixel)) (s : State) : Option State :=
  match (if s.bcActive then present .reset s else some s) with
  | none => none
  | some s => present (.attach surface) s

/-- Encode, the surface being attached, with a payload streamed in chunks (R203, R202: fails on exhaustion). -/
def encodeStream (p : HostParams) (pass : List Byte) (chunks : List (List Byte)) (s : State) :
    Option (Except HostErr Unit × State) :=
  match issueAll (setupCommands p pass) s with
  | none => none
  | some (w, s) =>
    if rspStatus w = 0 then ctWritePayload p.frameHash .ciphered chunks s
    else some (.error (.blockError (rspStatus w)), s)

/-- Encode, the surface being attached, with a payload whose length is known (R203, R202: the check after BC.INIT, before
any write). -/
def encodePayload (p : HostParams) (pass payload : List Byte) (s : State) : Option (Except HostErr Unit × State) :=
  match issueAll (setupCommands p pass) s with
  | none => none
  | some (w, s) =>
    if rspStatus w ≠ 0 then some (.error (.blockError (rspStatus w)), s)
    else if (rspData w).toNat < frameBits p.frameHash payload.length then some (.error .capacityExceeded, s)
    else ctWritePayload p.frameHash .ciphered [payload] s

/-- Decode, the surface being attached (R204). -/
def decodePayload (p : HostParams) (pass : List Byte) (s : State) : Option (Except HostErr (List Byte) × State) :=
  match issueAll (setupCommands p pass) s with
  | none => none
  | some (w, s) =>
    if rspStatus w = 0 then ctReadPayload p.frameHash .ciphered s
    else some (.error (.blockError (rspStatus w)), s)

/-- `encode(surface, passphrase, payload-reader) -> error` (R203), whole, for a streamed payload. -/
def hostEncodeStream (p : HostParams) (surface : List (Point × Pixel)) (pass : List Byte) (chunks : List (List Byte))
    (s : State) : Option (Except HostErr Unit × State) :=
  match lendSurface surface s with
  | none => none
  | some s => encodeStream p pass chunks s

/-- `encode(surface, passphrase, payload-reader) -> error` (R203), whole, for a payload whose length is known. -/
def hostEncode (p : HostParams) (surface : List (Point × Pixel)) (pass payload : List Byte) (s : State) :
    Option (Except HostErr Unit × State) :=
  match lendSurface surface s with
  | none => none
  | some s => encodePayload p pass payload s

/-- `decode(surface, passphrase) -> payload bytes or error` (R204), whole. -/
def hostDecode (p : HostParams) (surface : List (Point × Pixel)) (pass : List Byte) (s : State) :
    Option (Except HostErr (List Byte) × State) :=
  match lendSurface surface s with
  | none => none
  | some s => decodePayload p pass s

end Sys2Proof.Machine
end

