-- ==== Sys2Proof/Safety.lean ====
section
/-! DEFINITION. What claims are stated with: the invariant of the block (10_state R30 to R36, R41, 60_exceptions R230), the
synchronisation of the two positions (44 R184), what a bit cell holds, and a run that a host may go on with
(60_exceptions R241). -/

namespace Sys2Proof.Machine

/-- The invariants the spec gives the state. -/
structure State.Inv (s : State) : Prop where
  /-- the surface is in its canonical form -/
  surfaceWf : Memory.wf s.surface
  /-- `CHANCFG` holds a legal value (R28) -/
  cfg : cfgLegal s.chancfg = true
  /-- `KG.offset` is never negative (R30) -/
  kgOffset : 0 ≤ sext64 s.kgOffset
  /-- the cached block is the encryption of `(nonce, counter)` while KG is active (R33) -/
  kgCached : s.kgActive = true → s.kgBlock = ksBlock s.key s.nonce s.kgCounter
  /-- the table was made for the bounds in `WIDTH` and `HEIGHT` (R34, R41) -/
  ppBounds : s.ppValid = true → s.ppW = s.width ∧ s.ppH = s.height
  /-- the table has at most `POINTS_MAX` points (42 R151) -/
  ppSize : s.ppValid = true → s.ppW.toNat * s.ppH.toNat ≤ Config.pointsMax
  /-- the table is the seeded shuffle of the row-major sequence (R34, 42 R150) for the seed in `SEED` (R41) -/
  ppTable : s.ppValid = true → s.ppPoints = generate Config.prng s.ppW.toNat s.ppH.toNat s.seed
  /-- `BC_ACTIVE = 1` implies `PP_VALID = 1` (60 R234) -/
  bcNeedsPp : s.bcActive = true → s.ppValid = true
  /-- the cursor's channels and depth are those of `CHANCFG` (R36) -/
  bcConfig : s.bcActive = true → s.bcChans = cfgChannels s.chancfg ∧ s.bcBpc = cfgBpc s.chancfg
  /-- `capacity = width * height * |channelSet| * bitsPerChannel` (R36) -/
  bcCapacity : s.bcActive = true →
    s.bcCapacity.toNat = s.ppW.toNat * s.ppH.toNat * s.bcChans.length * s.bcBpc.toNat
  /-- `0 <= position <= capacity` (R35, C7) -/
  bcPosition : s.bcActive = true → 0 ≤ sext64 s.bcPosition ∧ sext64 s.bcPosition ≤ (zext64 s.bcCapacity : Int)
  /-- `STATUS.ERR` is 0 or a code of 60 R230 -/
  errCode : s.err.toNat ≤ 6

/-- "cipher offset and cursor offset are always equal" (44 R184). -/
def State.Synced (s : State) : Prop := s.kgOffset = s.bcPosition

/-- The status byte of the last response, if there is one. -/
def State.status (s : State) : Option Byte :=
  match s.rsp with
  | some w => some (rspStatus w)
  | none => none

/-- The attached surface has every pixel of `[0, w) x [0, h)` (20_memory R61, 70_reset R266). -/
def Memory.Covers (m : Memory) (w h : Nat) : Prop :=
  ∀ p : Point, p.x.toNat < w → p.y.toNat < h → ∃ px, m.pixel p = some px

/-- The bit that cell `p` holds on the attached surface (43 R160), if the surface has its pixel. -/
def State.cellBit (s : State) (p : Nat) : Option Bool :=
  match s.tell p with
  | none => none
  | some c =>
    match s.surface.pixel c.point with
    | none => none
    | some px => some (px.bit c.chan c.bit)

/-- The state after commands that all answer OK, one after the other; `none` if one does not (60 R241). -/
def okRun : List Instr → State → Option State
  | [], s => some s
  | i :: is, s =>
    match exec i s with
    | .next t => if t.status = some 0 then okRun is t else none
    | .fault _ => none
    | .refused _ => none

/-- A run of `k` steps in which no step stops and every response is OK: the reading of 60 R241 in which every other status
ends the encode or decode. -/
def CleanRun : Nat → State → Prop
  | 0, _ => True
  | k + 1, s => ∃ t, step s = .next t ∧ t.status = some 0 ∧ CleanRun k t

end Sys2Proof.Machine
end

