-- ==== Sys2Proof/Certificates/Slice0/Obligations.lean ====
section
/-! DEFINITION. The statements for the provers. `OBLIGATIONS.json` lists them with the rules of `spec/` they formalise. -/

namespace Sys2Proof.Claims

open Sys2Proof Sys2Proof.Machine

/-- The register and session values of 10_state R42. `PP.points` is left out: R42 leaves it unspecified. -/
def ResetValues (t : State) : Prop :=
  t.key0 = 0 ∧ t.key1 = 0 ∧ t.nonce = 0 ∧ t.seed = 0 ∧ t.width = 0 ∧ t.height = 0 ∧ t.chancfg = 0x101 ∧
  t.statusWord = 0 ∧ t.kgActive = false ∧ t.ppValid = false ∧ t.bcActive = false ∧ t.err = 0 ∧
  t.kgOffset = 0 ∧ t.kgCounter = 0 ∧ t.kgBlock.toList = List.replicate 16 0 ∧ t.ppW = 0 ∧ t.ppH = 0 ∧
  t.bcPosition = 0 ∧ t.bcCapacity = 0 ∧ t.bcChans = [.red] ∧ t.bcBpc = 1

/-- KG is active and its cached block is the one of its counter (10_state R33). -/
def KgReady (s : State) : Prop := s.kgActive = true ∧ s.kgBlock = ksBlock s.key s.nonce s.kgCounter

/-- The offset the generator can serve (41 R133). -/
def Servable (i : Int) : Prop := 0 ≤ i ∧ i < 2 ^ 39

/-- The cell the cursor stands on, and the pixel that holds it, are there (43 R166). -/
def OnCell (s : State) (c : BitCell) (px : Pixel) : Prop :=
  0 ≤ s.bcPosition.toInt ∧ s.bcPosition.toInt < (s.bcCapacity.toNat : Int) ∧
  s.tell s.bcPosition.toInt.toNat = some c ∧ s.surface.pixel c.point = some px

/-- End of medium (43 R166, R167). -/
def AtEnd (s : State) : Prop := s.bcPosition.toInt < 0 ∨ (s.bcCapacity.toNat : Int) ≤ s.bcPosition.toInt

/-- The "raised by" column of 60 R230, by command. -/
def mayRaise : Instr → List Byte
  | .wrReg _ _ => [0x05]
  | .rdReg _ => []
  | .kgInit => []
  | .kgSeek _ => [0x03, 0x06]
  | .kgBitAt _ => [0x03, 0x06]
  | .kgXorBit _ => [0x03, 0x06]
  | .ppGen => [0x05]
  | .ppPoint _ => [0x01, 0x06]
  | .bcInit => [0x06]
  | .bcSeek _ _ => [0x01, 0x02, 0x06]
  | .bcReadBit => [0x01, 0x06]
  | .bcWriteBit _ => [0x01, 0x06]
  | .bcTell _ => [0x01, 0x06]
  | .cmSeek _ _ => [0x01, 0x02, 0x06]
  | .cmReadBit => [0x01, 0x03, 0x06]
  | .cmWriteBit _ => [0x01, 0x03, 0x06]

/-- The state that 60 R238 gives after command `i` failed with status `st`, apart from the response and the latch. -/
def afterFailure (i : Instr) (st : Byte) (s : State) : State :=
  match i with
  | .cmWriteBit _ => if st = 0x01 then (s.refresh s.kgOffset.toInt.toNat).advanceKg else s
  | .cmReadBit => if st = 0x03 then s.advanceBc else s
  | .ppGen => { s with ppValid := false, bcActive := false }
  | .wrReg _ _ | .rdReg _ | .kgInit | .kgSeek _ | .kgBitAt _ | .kgXorBit _ | .ppPoint _ | .bcInit | .bcSeek _ _
  | .bcReadBit | .bcWriteBit _ | .bcTell _ | .cmSeek _ _ => s

/-- Bytes as a number, the byte with the lowest index in bits 7:0 (20_memory R68). -/
def leNumber (l : List Byte) : Nat := l.foldr (fun b n => b.toNat + 256 * n) 0

/-- What SYS.RDREG returns, as a number (40 R121, 10_state R21, R29, R32). -/
def regNumber (s : State) : Reg → Nat
  | .key0 => s.key0.toNat
  | .key1 => s.key1.toNat
  | .nonce => s.nonce.toNat
  | .seed => s.seed.toNat
  | .width => s.width.toNat
  | .height => s.height.toNat
  | .chancfg => s.chancfg.toNat
  | .status => s.kgActive.toNat + 2 * s.ppValid.toNat + 4 * s.bcActive.toNat + 256 * s.err.toNat
  | .kgOffset => s.kgOffset.toNat
  | .kgCounter => s.kgCounter.toNat
  | .kgBlock0 => leNumber (s.kgBlock.toList.take 8)
  | .kgBlock1 => leNumber (s.kgBlock.toList.drop 8)
  | .bcPosition => s.bcPosition.toNat
  | .bcCapacity => s.bcCapacity.toNat

/-- An ordered list of channels and a depth as the number in `CHANCFG` (10_state R28). -/
def cfgNumber (chans : List Channel) (depth : Nat) : Nat :=
  chans.length + 4 * chans.foldr (fun ch n => ch.code.toNat + 4 * n) 0 + 256 * depth

/-- Multiplication in GF(2^8) (46 R217), by the bits of the second factor from the most significant. -/
def gfMul (a b : Byte) : Byte :=
  (List.range 8).foldl (fun acc i => xtime acc ^^^ (if b.getLsbD (7 - i) then a else 0)) 0

/-- The commands that "Written by" of 10_state R30 lists for `KG.offset`. -/
def writesKgOffset : Instr → Bool
  | .kgInit | .kgSeek _ | .kgXorBit _ | .cmSeek _ _ | .cmReadBit | .cmWriteBit _ => true
  | .wrReg _ _ | .rdReg _ | .kgBitAt _ | .ppGen | .ppPoint _ | .bcInit | .bcSeek _ _ | .bcReadBit | .bcWriteBit _
  | .bcTell _ => false

/-- KG.INIT and the users of the refresh step (10_state R31, 41 R133). -/
def writesKgBlock : Instr → Bool
  | .kgInit | .kgBitAt _ | .kgXorBit _ | .cmReadBit | .cmWriteBit _ => true
  | .wrReg _ _ | .rdReg _ | .kgSeek _ | .ppGen | .ppPoint _ | .bcInit | .bcSeek _ _ | .bcReadBit | .bcWriteBit _
  | .bcTell _ | .cmSeek _ _ => false

/-- The commands that "Written by" of 10_state R35 lists for `BC.position`. -/
def writesBcPosition : Instr → Bool
  | .bcInit | .bcSeek _ _ | .bcReadBit | .bcWriteBit _ | .cmSeek _ _ | .cmReadBit | .cmWriteBit _ => true
  | .wrReg _ _ | .rdReg _ | .kgInit | .kgSeek _ | .kgBitAt _ | .kgXorBit _ | .ppGen | .ppPoint _ | .bcTell _ => false

/-- The commands that perform `MemWrite` (20_memory R71). -/
def writesSurface : Instr → Bool
  | .bcWriteBit _ | .cmWriteBit _ => true
  | .wrReg _ _ | .rdReg _ | .kgInit | .kgSeek _ | .kgBitAt _ | .kgXorBit _ | .ppGen | .ppPoint _ | .bcInit
  | .bcSeek _ _ | .bcReadBit | .bcTell _ | .cmSeek _ _ | .cmReadBit => false

/-- `STATUS.KG_ACTIVE` after a command that ends with status `st` (10_state R29, first row). -/
def kgActiveAfter (i : Instr) (st : Byte) (s : State) : Bool :=
  match i with
  | .kgInit => true
  | .wrReg r _ => if st = 0 ∧ (r = .key0 ∨ r = .key1 ∨ r = .nonce) then false else s.kgActive
  | _ => s.kgActive

/-- `STATUS.PP_VALID` after a command that ends with status `st` (10_state R29, second row). -/
def ppValidAfter (i : Instr) (st : Byte) (s : State) : Bool :=
  match i with
  | .ppGen => decide (st = 0)
  | .wrReg r _ => if st = 0 ∧ (r = .seed ∨ r = .width ∨ r = .height) then false else s.ppValid
  | _ => s.ppValid

/-- `STATUS.BC_ACTIVE` after a command that ends with status `st` (10_state R29, third row). -/
def bcActiveAfter (i : Instr) (st : Byte) (s : State) : Bool :=
  match i with
  | .bcInit => if st = 0 then true else s.bcActive
  | .ppGen => false
  | .wrReg r _ => if st = 0 ∧ (r = .seed ∨ r = .width ∨ r = .height ∨ r = .chancfg) then false else s.bcActive
  | _ => s.bcActive

/-- The two cursors of the ByteAdapter are usable: the sessions they need are active. -/
def CursorReady (c : BitCursor) (s : State) : Prop :=
  s.bcActive = true ∧ (c = .ciphered → s.kgActive = true)

/-- What an encoder and a decoder agree on is legal, and the frame of a payload fits (45 R196, R202, R207). -/
def FrameFits (p : HostParams) (length : Nat) : Prop :=
  cfgLegal p.chancfg = true ∧ p.width.toNat * p.height.toNat ≤ 2 ^ 32 ∧
  8 * (4 + length + p.frameHash.ds) ≤
    p.width.toNat * p.height.toNat * (cfgChannels p.chancfg).length * (cfgBpc p.chancfg).toNat ∧
  32 < p.width.toNat * p.height.toNat * (cfgChannels p.chancfg).length * (cfgBpc p.chancfg).toNat ∧
  length < 2 ^ 32

end Sys2Proof.Claims

open Sys2Proof Sys2Proof.Machine Sys2Proof.Claims

/-! ### Encoding (30_encoding) -/

/-- Words the spec writes out decode to the commands they stand for (30_encoding R94, R97; the words stand in the examples
of 40 R120, R121, 41 R130 to R136, 42 R151, R152, 43 R164 to R168, 44 R181 to R183, 95 section 7). -/
def Obligations.SpecWordsDecodeToTheirCommands : Prop :=
  decode 0x01060000000000000212 = .ok (.wrReg .chancfg 0x212) ∧
  decode 0x02110000000000000000 = .ok (.rdReg .kgOffset) ∧
  decode 0x10000000000000000000 = .ok .kgInit ∧
  decode 0x1100000000000000007F = .ok (.kgSeek 127) ∧
  decode 0x13010000000000000000 = .ok (.kgXorBit true) ∧
  decode 0x20000000000000000000 = .ok .ppGen ∧
  decode 0x3102FFFFFFFFFFFFFFFF = .ok (.bcSeek (-1) .fromEnd) ∧
  decode 0x34000000000000000007 = .ok (.bcTell 7) ∧
  decode 0x43000000000000000000 = .ok (.cmWriteBit false) ∧
  decode 0x31030000000000000000 = .error .reservedMode ∧
  decode 0x01100000000000000000 = .error .readOnlyRegister ∧
  decode 0x44000000000000000000 = .error .unassignedOpcode

/-- Decode and encode agree on every command, with every operand at every value (30_encoding R90 to R94). -/
def Obligations.DecodeOfEncodeIsTheCommand : Prop :=
  ∀ i : Instr, WellFormed i = true → decode (encode i) = .ok i

/-- A word the decoder accepts is the encoding of the command it reads: no bit is ignored (30_encoding R92). -/
def Obligations.AcceptedWordIsItsEncoding : Prop :=
  ∀ (cw : CmdWord) (i : Instr), decode cw = .ok i → WellFormed i = true ∧ encode i = cw

/-- A word is a command iff it satisfies a row of the opcode table, mask and further condition, and then it is that row's
command; no word satisfies two rows (30_encoding R94, R95). -/
def Obligations.DecoderAcceptsExactlyTheTable : Prop :=
  (∀ cw i, decode cw = .ok i → tableRow cw = some i.opcode) ∧
  (∀ cw o, tableRow cw = some o → ∃ i, decode cw = .ok i ∧ i.opcode = o) ∧
  (∀ (cw : CmdWord) (o o' : Opcode), cw &&& o.mask = o.pattern → cw &&& o'.mask = o'.pattern → o = o')

/-- As bytes a command is ten bytes, the opcode byte first, and is read back with what follows it untouched
(30_encoding R99). -/
def Obligations.ByteTransportRoundTrips : Prop :=
  ∀ (i : Instr) (rest : List Byte), WellFormed i = true →
    (encodeBytes i).length = 10 ∧ (encodeBytes i).head? = some i.opcode.code ∧
    decodeBytes (encodeBytes i ++ rest) = .ok (i, rest)

/-- An illegal word returns `IllegalCommand` and changes no state except the latch (30_encoding R95). -/
def Obligations.IllegalWordOnlyAnswers : Prop :=
  ∀ (s : State) (cw : CmdWord) (rest : List PortInput), s.port = .command cw :: rest → tableRow cw = none →
    step s = .next { s with port := rest, rsp := some (rspWord 0x04 0 0), err := if s.err = 0 then 0x04 else s.err }

/-! ### The step (30_encoding R100, R101; 60_exceptions R244; 70_reset R260, R263) -/

/-- When the next word decodes to a command, the step is that command's meaning on the state with the word taken
(30_encoding R100, R101; the port is the model's own, log 1). -/
def Obligations.StepRunsTheDecodedCommand : Prop :=
  ∀ (s : State) (cw : CmdWord) (rest : List PortInput) (i : Instr), s.port = .command cw :: rest → decode cw = .ok i →
    step s = exec i { s with port := rest }

/-- With no input waiting the step keeps all state (60_exceptions R244; log 1). -/
def Obligations.IdleStepKeepsAllState : Prop := ∀ s : State, s.port = [] → step s = .next s

/-- The reset input gives every element of the block the value of 10_state R42 and does not touch the surface; the state
after reset has those values too. A reset during a command gives them as well, with no response, and with the surface as it
was or, when the command's write had been issued, as the command leaves it (70_reset R260). That the later inputs of the
port survive, and the port itself, are the model's choice (log 1, log 3), and so is that a command stopped at a pixel the
surface lacks stays stopped (log 3). -/
def Obligations.ResetGivesTheListedValues : Prop :=
  ResetValues State.reset ∧
  (∀ (s : State) (rest : List PortInput), s.port = .reset :: rest →
    ∃ t, step s = .next t ∧ ResetValues t ∧ t.surface = s.surface ∧ t.port = rest) ∧
  (∀ (s : State) (cw : CmdWord) (rest : List PortInput), s.port = .resetDuring cw false :: rest →
    ∃ t, step s = .next t ∧ ResetValues t ∧ t.surface = s.surface ∧ t.port = rest ∧ t.rsp = none) ∧
  (∀ (s : State) (cw : CmdWord) (rest : List PortInput), s.port = .resetDuring cw true :: rest →
    (∀ u, step { s with port := .command cw :: rest } = .next u →
      ∃ t, step s = .next t ∧ ResetValues t ∧ t.surface = u.surface ∧ t.port = rest ∧ t.rsp = none) ∧
    (∀ f, step { s with port := .command cw :: rest } = .fault f → step s = .fault f))

/-- After reset only SYS.WRREG, SYS.RDREG, KG.INIT and PP.GEN can succeed; PP.GEN then gives an empty table and BC.INIT
capacity 0 (70_reset R261). -/
def Obligations.AfterResetOnlyFourCommandsSucceed : Prop :=
  (∀ (s : State) (i : Instr), ResetValues s → (∀ r v, i ≠ .wrReg r v) → (∀ r, i ≠ .rdReg r) → i ≠ .kgInit → i ≠ .ppGen →
    exec i s = .next (s.raise .notActive)) ∧
  (∀ s : State, ResetValues s → ∃ t u v, exec .kgInit s = .next t ∧ t.status = some 0 ∧
    exec .ppGen t = .next u ∧ u.status = some 0 ∧ u.ppPoints = [] ∧
    exec .bcInit u = .next v ∧ v.status = some 0 ∧ v.bcCapacity = 0)

/-- Attaching a surface between sessions gives the block that surface, pixel by pixel, and nothing else changes; during a
cursor session it is refused (70_reset R263, 20_memory R79; the model's own input, log 6). -/
def Obligations.AttachReplacesTheSurfaceBetweenSessions : Prop :=
  ∀ (s : State) (pixels : List (Point × Pixel)) (rest : List PortInput), s.port = .attach pixels :: rest →
    (s.bcActive = true → step s = .refused .surfaceInSession) ∧
    (s.bcActive = false → ∃ m : Memory, step s = .next { s with port := rest, surface := m } ∧ m.wf ∧
      ∀ p px, (pixels.map Prod.fst).Nodup → ((p, px) ∈ pixels ↔ m.pixel p = some px))

/-! ### Errors (60_exceptions) -/

/-- A command without the session it needs raises `NotActive` and does nothing else; the other four never raise it; in
every state the block can be in, `BC_ACTIVE = 1` implies `PP_VALID = 1` (60_exceptions R234). -/
def Obligations.MissingSessionGivesNotActive : Prop :=
  (∀ (s : State) (off n k p : Word64) (b : Bool) (m : SeekMode),
    (s.kgActive = false → exec (.kgSeek off) s = .next (s.raise .notActive) ∧
      exec (.kgBitAt off) s = .next (s.raise .notActive) ∧ exec (.kgXorBit b) s = .next (s.raise .notActive)) ∧
    (s.ppValid = false → exec (.ppPoint k) s = .next (s.raise .notActive) ∧
      exec .bcInit s = .next (s.raise .notActive)) ∧
    (s.bcActive = false → exec (.bcSeek n m) s = .next (s.raise .notActive) ∧
      exec .bcReadBit s = .next (s.raise .notActive) ∧ exec (.bcWriteBit b) s = .next (s.raise .notActive) ∧
      exec (.bcTell p) s = .next (s.raise .notActive)) ∧
    (s.kgActive = false ∨ s.bcActive = false → exec (.cmSeek n m) s = .next (s.raise .notActive) ∧
      exec .cmReadBit s = .next (s.raise .notActive) ∧ exec (.cmWriteBit b) s = .next (s.raise .notActive))) ∧
  (∀ (s t : State) (i : Instr), ((∃ r v, i = .wrReg r v) ∨ (∃ r, i = .rdReg r) ∨ i = .kgInit ∨ i = .ppGen) →
    exec i s = .next t → t.status ≠ some 0x06) ∧
  (∀ s : State, s.Inv → s.bcActive = true → s.ppValid = true)

/-- Raising an error writes the response `code, 0, 0`, latches the code if the latch is 0, and changes nothing else; the
codes are those of the list (60_exceptions R230, R238). -/
def Obligations.RaiseAnswersAndLatches : Prop :=
  (∀ (s : State) (e : Err), s.raise e =
    { s with rsp := some (rspWord e.code 0 0), err := if s.err = 0 then e.code else s.err }) ∧
  Err.outOfBounds.code = 0x01 ∧ Err.invalidSeekArgument.code = 0x02 ∧ Err.illegalOffset.code = 0x03 ∧
  Err.illegalCommand.code = 0x04 ∧ Err.configInvalid.code = 0x05 ∧ Err.notActive.code = 0x06

/-- A failed command leaves the state it found, but for the response, the latch, and the three partial effects the rule
lists; the surface is never changed by one (60_exceptions R238). -/
def Obligations.FailedCommandLeavesOnlyListedEffects : Prop :=
  ∀ (i : Instr) (s t : State) (st : Byte), exec i s = .next t → t.status = some st → st ≠ 0 →
    t = { afterFailure i st s with rsp := some (rspWord st 0 0), err := if s.err = 0 then st else s.err } ∧
    t.surface = s.surface

/-- Every command answers; its status is OK or one that the list gives for the command, no status of the list is
exceeded, a failure carries no data, only BC.TELL fills `aux`, and a word that is no command answers `IllegalCommand`
(60_exceptions R230, 30_encoding R91). -/
def Obligations.ResponsesCarryListedStatuses : Prop :=
  (∀ (i : Instr) (s t : State), WellFormed i = true → exec i s = .next t →
    ∃ w, t.rsp = some w ∧ (rspStatus w = 0 ∨ rspStatus w ∈ mayRaise i) ∧ (rspStatus w).toNat ≤ 6 ∧
      (rspStatus w ≠ 0 → rspAux w = 0 ∧ rspData w = 0) ∧ (rspAux w ≠ 0 → ∃ p, i = .bcTell p)) ∧
  (∀ (s : State) (cw : CmdWord) (rest : List PortInput) (e : Reject), s.port = .command cw :: rest →
    decode cw = .error e → ∃ t, step s = .next t ∧ t.rsp = some (rspWord 0x04 0 0))

/-- The bits of `STATUS`: where each stands, which commands set and clear each, the latch of the first error, and the
reserved bits, which are never set (10_state R29). -/
def Obligations.StatusBitsChangeOnlyAsListed : Prop :=
  (∀ s : State, s.statusWord.getLsbD 0 = s.kgActive ∧ s.statusWord.getLsbD 1 = s.ppValid ∧
    s.statusWord.getLsbD 2 = s.bcActive ∧ s.statusWord.extractLsb' 8 8 = s.err ∧
    ∀ k, 3 ≤ k ∧ k ≤ 7 ∨ 16 ≤ k → s.statusWord.getLsbD k = false) ∧
  (∀ (i : Instr) (s t : State) (st : Byte), exec i s = .next t → t.status = some st →
    t.kgActive = kgActiveAfter i st s ∧ t.ppValid = ppValidAfter i st s ∧ t.bcActive = bcActiveAfter i st s ∧
    t.err = if s.err = 0 then st else s.err) ∧
  (∀ (s : State) (cw : CmdWord) (rest : List PortInput) (e : Reject), s.port = .command cw :: rest →
    decode cw = .error e → ∃ t, step s = .next t ∧ t.kgActive = s.kgActive ∧ t.ppValid = s.ppValid ∧
      t.bcActive = s.bcActive ∧ t.err = if s.err = 0 then 0x04 else s.err) ∧
  (∀ (s : State) (rest : List PortInput), s.port = .reset :: rest →
    ∃ t, step s = .next t ∧ t.kgActive = false ∧ t.ppValid = false ∧ t.bcActive = false ∧ t.err = 0)

/-! ### Frames -/

/-- Every byte of the surface reads as before after each command that performs no `MemWrite` (20_memory R60, R63, R71). -/
def Obligations.OnlyBitWritesChangeTheSurface : Prop :=
  ∀ (i : Instr) (s t : State), writesSurface i = false → exec i s = .next t →
    ∀ a : Nat, t.surface.read a = s.surface.read a

/-- A bit write stores to the four samples of the pixel that `Tell` gives for the position and to no other byte; of that
pixel it changes at most the addressed bit, and never `a` (43 R167, 44 R183, 20_memory R62). -/
def Obligations.BitWriteStoresOnlyItsPixel : Prop :=
  ∀ (i : Instr) (b : Bool) (s t : State), (i = .bcWriteBit b ∨ i = .cmWriteBit b) → exec i s = .next t →
    (∀ c, s.tell s.bcPosition.toInt.toNat = some c →
      (∀ a : Nat, a < c.point.addr ∨ c.point.addr + 4 ≤ a → t.surface.read a = s.surface.read a) ∧
      (∀ px, s.surface.pixel c.point = some px → ∃ px', t.surface.pixel c.point = some px' ∧ px'.a = px.a ∧
        (c.bit < 8 → ∀ ch j, (ch ≠ c.chan ∨ j ≠ c.bit) → px'.bit ch j = px.bit ch j))) ∧
    (s.tell s.bcPosition.toInt.toNat = none → ∀ a : Nat, t.surface.read a = s.surface.read a)

/-- Only SYS.WRREG changes a configuration register (10_state R21, R24 to R28). -/
def Obligations.OnlyWrRegChangesConfiguration : Prop :=
  ∀ (i : Instr) (s t : State), (∀ r v, i ≠ .wrReg r v) → exec i s = .next t →
    t.key0 = s.key0 ∧ t.key1 = s.key1 ∧ t.nonce = s.nonce ∧ t.seed = s.seed ∧ t.width = s.width ∧
    t.height = s.height ∧ t.chancfg = s.chancfg

/-- The session state of each unit is written only by the commands that its rule lists, and no command takes an input
of the host out of turn (10_state R30 to R36). -/
def Obligations.SessionStateWrittenOnlyAsListed : Prop :=
  ∀ (i : Instr) (s t : State), exec i s = .next t →
    (writesKgOffset i = false → t.kgOffset = s.kgOffset) ∧
    (writesKgBlock i = false → t.kgCounter = s.kgCounter ∧ t.kgBlock = s.kgBlock) ∧
    (i ≠ .ppGen → t.ppPoints = s.ppPoints ∧ t.ppW = s.ppW ∧ t.ppH = s.ppH) ∧
    (writesBcPosition i = false → t.bcPosition = s.bcPosition) ∧
    (i ≠ .bcInit → t.bcCapacity = s.bcCapacity ∧ t.bcChans = s.bcChans ∧ t.bcBpc = s.bcBpc) ∧
    t.port = s.port

/-! ### System commands (40_system_commands) -/

/-- SYS.WRREG: a register index outside `0x00 .. 0x06` is `IllegalCommand`; an illegal value is `ConfigInvalid` and nothing
is written; a legal value is written and ends the sessions that used the old one (40 R120, 10_state R41). That the registers of an ended
session keep their values is the model's choice (log 10). -/
def Obligations.WrRegWritesAndEndsSessions : Prop :=
  (∀ (r : Reg) (v : Word64), r.writable = true → decode (cwOf 0x01 r.index v) = .ok (.wrReg r v)) ∧
  (∀ (idx : Byte) (v : Word64), 0x06 < idx.toNat → ∃ e, decode (cwOf 0x01 idx v) = .error e) ∧
  (∀ (s : State) (r : Reg) (v : Word64), r.writable = false → exec (.wrReg r v) s = .next (s.raise .illegalCommand)) ∧
  (∀ (s : State) (r : Reg) (v : Word64), r.writable = true → regLegal r v = false →
    exec (.wrReg r v) s = .next (s.raise .configInvalid)) ∧
  (∀ v, regLegal .key0 v = true ∧ regLegal .key1 v = true ∧ regLegal .seed v = true) ∧
  (∀ (r : Reg) (v : Word64), (r = .nonce ∨ r = .width ∨ r = .height) → (regLegal r v = true ↔ v.toNat < 2 ^ 32)) ∧
  (∀ v : Word64, regLegal .chancfg v = true ↔ ∃ c : BitVec 11, cfgLegal c = true ∧ v = c.setWidth 64) ∧
  (∀ (s : State) (v : Word64),
    exec (.wrReg .key0 v) s = .next (({ s with key0 := v, kgActive := false }).respond 0 0) ∧
    exec (.wrReg .key1 v) s = .next (({ s with key1 := v, kgActive := false }).respond 0 0) ∧
    exec (.wrReg .seed v) s = .next (({ s with seed := v, ppValid := false, bcActive := false }).respond 0 0)) ∧
  (∀ (s : State) (v : Word32),
    exec (.wrReg .nonce (v.setWidth 64)) s = .next (({ s with nonce := v, kgActive := false }).respond 0 0) ∧
    exec (.wrReg .width (v.setWidth 64)) s =
      .next (({ s with width := v, ppValid := false, bcActive := false }).respond 0 0) ∧
    exec (.wrReg .height (v.setWidth 64)) s =
      .next (({ s with height := v, ppValid := false, bcActive := false }).respond 0 0)) ∧
  (∀ (s : State) (v : BitVec 11), cfgLegal v = true →
    exec (.wrReg .chancfg (v.setWidth 64)) s = .next (({ s with chancfg := v, bcActive := false }).respond 0 0))

/-- The legal values of `CHANCFG` are exactly those packed from an ordered list of 1 to 3 distinct channels, in any order,
and a depth of 1 to 7, and the fields give them back (10_state R28). -/
def Obligations.ChanCfgHoldsOrderedChannelSets : Prop :=
  (∀ v : Word64, regLegal .chancfg v = true ↔
    ∃ (chans : List Channel) (depth : Nat), 1 ≤ chans.length ∧ chans.length ≤ 3 ∧ chans.Nodup ∧ 1 ≤ depth ∧ depth ≤ 7 ∧
      v.toNat = cfgNumber chans depth) ∧
  (∀ (c : BitVec 11) (chans : List Channel) (depth : Nat), 1 ≤ chans.length → chans.length ≤ 3 → 1 ≤ depth → depth ≤ 7 →
    c.toNat = cfgNumber chans depth → cfgChannels c = chans ∧ (cfgBpc c).toNat = depth ∧ cfgCount c = chans.length) ∧
  cfgLegal State.reset.chancfg = true

/-- SYS.RDREG returns the register, packed as the register map says, and changes nothing else; an index that the map does
not list, or a payload that is not zero, is `IllegalCommand` (40 R121). -/
def Obligations.RdRegReturnsTheRegister : Prop :=
  (∀ r : Reg, decode (cwOf 0x02 r.index 0) = .ok (.rdReg r)) ∧
  (∀ (idx : Byte) (v : Word64), (v ≠ 0 ∨ 0x06 < idx.toNat ∧ idx.toNat < 0x10 ∨ 0x16 < idx.toNat) →
    ∃ e, decode (cwOf 0x02 idx v) = .error e) ∧
  (∀ (s : State) (r : Reg), exec (.rdReg r) s = .next (s.respond 0 (BitVec.ofNat 64 (regNumber s r))) ∧
    regNumber s r < 2 ^ 64)

/-- `KEY0` and `KEY1` hold the key bytes, `K[0]` in bits 7:0 of `KEY0` and `K[15]` in bits 63:56 of `KEY1`
(10_state R24). -/
def Obligations.KeyBytesArePackedLittleEndian : Prop :=
  ∀ (s : State) (j : Nat), j < 8 →
    s.key.toList[j]? = some (s.key0.extractLsb' (8 * j) 8) ∧
    s.key.toList[8 + j]? = some (s.key1.extractLsb' (8 * j) 8)

/-! ### Keystream generator (41_keystream_generator, 46_block_cipher_aes128) -/

/-- KG.INIT (41 R130). -/
def Obligations.KgInitStartsASession : Prop :=
  decode (cwOf 0x10 0 0) = .ok .kgInit ∧
  ∀ s : State, exec .kgInit s = .next
    (({ s with kgOffset := 0, kgCounter := 0, kgBlock := ksBlock s.key s.nonce 0, kgActive := true }).respond 0 0)

/-- KG.SEEK (41 R134). -/
def Obligations.KgSeekSetsTheOffset : Prop :=
  ∀ (s : State) (off : Word64), decode (cwOf 0x11 0 off) = .ok (.kgSeek off) ∧
    (s.kgActive = true → 0 ≤ off.toInt → exec (.kgSeek off) s = .next (({ s with kgOffset := off }).respond 0 off)) ∧
    (s.kgActive = true → off.toInt < 0 → exec (.kgSeek off) s = .next (s.raise .illegalOffset)) ∧
    (s.kgActive = false → exec (.kgSeek off) s = .next (s.raise .notActive))

/-- KG.BITAT returns the pure keystream bit, leaves the block of its offset cached and does not move `KG.offset`; outside
the range it raises `IllegalOffset` (41 R135). -/
def Obligations.KgBitAtReturnsTheKeystreamBit : Prop :=
  ∀ (s : State) (off : Word64), decode (cwOf 0x12 0 off) = .ok (.kgBitAt off) ∧
    (KgReady s → Servable off.toInt → exec (.kgBitAt off) s = .next
      (({ s with
          kgCounter := BitVec.ofNat 32 (off.toNat / 128)
          kgBlock := ksBlock s.key s.nonce (BitVec.ofNat 32 (off.toNat / 128)) }).respond 0
        (if ks s.key s.nonce off.toNat then 1 else 0))) ∧
    (s.kgActive = true → ¬ Servable off.toInt → exec (.kgBitAt off) s = .next (s.raise .illegalOffset)) ∧
    (s.kgActive = false → exec (.kgBitAt off) s = .next (s.raise .notActive))

/-- KG.XORBIT returns the bit XORed with the keystream bit at `KG.offset` and advances the offset by one; outside the range
it raises `IllegalOffset` and the offset stays (41 R136). -/
def Obligations.KgXorBitEncryptsAndAdvances : Prop :=
  ∀ (s : State) (bit : Bool), decode (cwOf 0x13 (if bit then 1 else 0) 0) = .ok (.kgXorBit bit) ∧
    (KgReady s → Servable s.kgOffset.toInt → exec (.kgXorBit bit) s = .next
      (({ s with
          kgCounter := BitVec.ofNat 32 (s.kgOffset.toNat / 128)
          kgBlock := ksBlock s.key s.nonce (BitVec.ofNat 32 (s.kgOffset.toNat / 128))
          kgOffset := s.kgOffset + 1 }).respond 0
        (if bit ^^ ks s.key s.nonce s.kgOffset.toNat then 1 else 0))) ∧
    (s.kgActive = true → ¬ Servable s.kgOffset.toInt → exec (.kgXorBit bit) s = .next (s.raise .illegalOffset)) ∧
    (s.kgActive = false → exec (.kgXorBit bit) s = .next (s.raise .notActive))

/-- Within a block the keystream runs through the bytes in increasing index and through each byte from its least
significant bit: offset `128 c + 8 j + t` is bit `t` of byte `j` of the block with counter `c` (20_memory R65). -/
def Obligations.KeystreamRunsLeastSignificantBitFirst : Prop :=
  ∀ (key : Block) (nonce c : Word32) (j t : Nat), j < 16 → t < 8 →
    (ksBlock key nonce c).toList[j]?.map (fun byte => byte.getLsbD t) =
      some (ks key nonce (128 * c.toNat + 8 * j + t))

/-- The keystream depends on key, nonce and offset only, never on the history of the session (41 R138). -/
def Obligations.KeystreamIgnoresHistory : Prop :=
  ∀ (s1 s2 : State) (off : Word64) (b : Bool), KgReady s1 → KgReady s2 → s1.key = s2.key → s1.nonce = s2.nonce →
    (∃ t1 t2, exec (.kgBitAt off) s1 = .next t1 ∧ exec (.kgBitAt off) s2 = .next t2 ∧ t1.rsp = t2.rsp) ∧
    (s1.kgOffset = s2.kgOffset →
      ∃ t1 t2, exec (.kgXorBit b) s1 = .next t1 ∧ exec (.kgXorBit b) s2 = .next t2 ∧ t1.rsp = t2.rsp)

/-- A bit encrypted at an offset by one session is recovered at the same offset by any session with the same key and
nonce (41 R137). -/
def Obligations.XorBitTwiceGivesTheBitBack : Prop :=
  ∀ (s1 s2 : State) (b : Bool), KgReady s1 → KgReady s2 → s1.key = s2.key → s1.nonce = s2.nonce →
    s1.kgOffset = s2.kgOffset → Servable s1.kgOffset.toInt →
    ∃ (c : Bool) (t1 t2 : State), exec (.kgXorBit b) s1 = .next t1 ∧
      t1.rsp = some (rspWord 0 0 (if c then 1 else 0)) ∧
      exec (.kgXorBit c) s2 = .next t2 ∧ t2.rsp = some (rspWord 0 0 (if b then 1 else 0))

/-- The S-box table is the affine image of the inverse in GF(2^8) (46 R218). -/
def Obligations.SboxIsTheAffineInverse : Prop :=
  ∀ a : Byte, ∃ b : Byte, (a = 0 → b = 0) ∧ (a ≠ 0 → gfMul a b = 1) ∧
    sbox a = b ^^^ b.rotateLeft 1 ^^^ b.rotateLeft 2 ^^^ b.rotateLeft 3 ^^^ b.rotateLeft 4 ^^^ 0x63

/-! ### Pixel permutation (42_pixel_permutation) -/

/-- PP.GEN (42 R151), for the block's generator, whatever it is (log 7). That the cursor's registers keep their values when
`BC_ACTIVE` is cleared is the model's choice (log 10). -/
def Obligations.PpGenBuildsTheTable : Prop :=
  decode (cwOf 0x20 0 0) = .ok .ppGen ∧
  ∀ s : State,
    (s.width.toNat * s.height.toNat ≤ 2 ^ 32 → exec .ppGen s = .next
      (({ s with
          bcActive := false, ppW := s.width, ppH := s.height, ppValid := true
          ppPoints := generate Config.prng s.width.toNat s.height.toNat s.seed }).respond 0
        (BitVec.ofNat 64 (s.width.toNat * s.height.toNat)))) ∧
    (2 ^ 32 < s.width.toNat * s.height.toNat →
      exec .ppGen s = .next (({ s with bcActive := false, ppValid := false }).raise .configInvalid))

/-- The table PP.GEN leaves is the generated one, and that is a bijection from the plane indices onto the coordinates of the
surface, whatever the generator draws (42 R153). -/
def Obligations.GeneratedTableIsABijection : Prop :=
  (∀ s t : State, exec .ppGen s = .next t → t.status = some 0 → t.ppW = s.width ∧ t.ppH = s.height ∧
    t.ppPoints = generate Config.prng s.width.toNat s.height.toNat s.seed) ∧
  ∀ (g : Prng) (w h : Word32) (seed : Word64),
    (generate g w.toNat h.toNat seed).length = w.toNat * h.toNat ∧
    (∀ (k : Nat) (p : Point), (generate g w.toNat h.toNat seed)[k]? = some p → p.x.toNat < w.toNat ∧ p.y.toNat < h.toNat) ∧
    (∀ p : Point, p.x.toNat < w.toNat → p.y.toNat < h.toNat →
      ∃ k, k < w.toNat * h.toNat ∧ (generate g w.toNat h.toNat seed)[k]? = some p ∧
        ∀ k', (generate g w.toNat h.toNat seed)[k']? = some p → k' = k)

/-- Equal `WIDTH`, `HEIGHT` and `SEED` leave equal tables (42 R154). -/
def Obligations.EqualSeedsGiveEqualTables : Prop :=
  ∀ s1 s2 : State, s1.width = s2.width → s1.height = s2.height → s1.seed = s2.seed →
    s1.width.toNat * s1.height.toNat ≤ 2 ^ 32 →
    ∃ t1 t2, exec .ppGen s1 = .next t1 ∧ exec .ppGen s2 = .next t2 ∧ t1.ppPoints = t2.ppPoints ∧
      t1.ppW = t2.ppW ∧ t1.ppH = t2.ppH

/-- PP.POINT returns entry `k` as `y * 2^32 + x`, in every state the block can be in; an index at or past the end is
`OutOfBounds` (42 R152). -/
def Obligations.PpPointReturnsTheEntry : Prop :=
  (∀ k : Word64, decode (cwOf 0x21 0 k) = .ok (.ppPoint k)) ∧
  (∀ (s : State) (k : Word64), s.Inv → s.ppValid = true → k.toNat < s.ppW.toNat * s.ppH.toNat →
    ∃ p : Point, s.ppPoints[k.toNat]? = some p ∧
      exec (.ppPoint k) s = .next (s.respond 0 (BitVec.ofNat 64 (p.y.toNat * 2 ^ 32 + p.x.toNat)))) ∧
  (∀ (s : State) (k : Word64), s.ppValid = true → s.ppW.toNat * s.ppH.toNat ≤ k.toNat →
    exec (.ppPoint k) s = .next (s.raise .outOfBounds)) ∧
  (∀ (s : State) (k : Word64), s.ppValid = false → exec (.ppPoint k) s = .next (s.raise .notActive))

/-! ### Bit cursor (43_bit_cursor) -/

/-- The addressing function, index by index (43 R160). -/
def Obligations.TellFollowsTheAddressingFormulas : Prop :=
  ∀ (s : State) (p : Nat) (point : Point) (ch : Channel) (i : Nat),
    s.tell p = some ⟨point, ch, i⟩ ↔
      s.ppPoints[p / (s.bcChans.length * s.bcBpc.toNat)]? = some point ∧
      s.bcChans[p / s.bcBpc.toNat % s.bcChans.length]? = some ch ∧ i = p % s.bcBpc.toNat

/-- BC.INIT (43 R162). -/
def Obligations.BcInitCreatesTheCursor : Prop :=
  decode (cwOf 0x30 0 0) = .ok .bcInit ∧
  (∀ s : State, s.ppValid = false → exec .bcInit s = .next (s.raise .notActive)) ∧
  ∀ s : State, s.ppValid = true → s.ppW.toNat * s.ppH.toNat ≤ 2 ^ 32 →
    ∃ cap : Word64, cap.toNat = s.ppW.toNat * s.ppH.toNat * cfgCount s.chancfg * (cfgBpc s.chancfg).toNat ∧
      exec .bcInit s = .next
        (({ s with
            bcChans := cfgChannels s.chancfg, bcBpc := cfgBpc s.chancfg, bcCapacity := cap
            bcPosition := 0, bcActive := true }).respond 0 cap)

/-- BC.SEEK in its three modes: the candidate by unbounded arithmetic, a negative one refused with the mode's error, one at
or past the capacity with `OutOfBounds`, any other committed and returned (43 R164). -/
def Obligations.BcSeekCommitsInRangeCandidates : Prop :=
  (∀ n : Word64, decode (cwOf 0x31 0 n) = .ok (.bcSeek n .fromStart) ∧ decode (cwOf 0x31 1 n) = .ok (.bcSeek n .fromCurrent) ∧
    decode (cwOf 0x31 2 n) = .ok (.bcSeek n .fromEnd)) ∧
  (∀ (s : State) (n : Word64) (mode : SeekMode), s.bcActive = false → exec (.bcSeek n mode) s = .next (s.raise .notActive)) ∧
  ∀ (s : State) (n : Word64) (mode : SeekMode) (c : Int), s.bcActive = true →
    (mode = .fromStart ∧ c = n.toInt ∨ mode = .fromCurrent ∧ c = s.bcPosition.toInt + n.toInt ∨
      mode = .fromEnd ∧ c = (s.bcCapacity.toNat : Int) + n.toInt) →
    (c < 0 → mode = .fromStart → exec (.bcSeek n mode) s = .next (s.raise .outOfBounds)) ∧
    (c < 0 → mode ≠ .fromStart → exec (.bcSeek n mode) s = .next (s.raise .invalidSeekArgument)) ∧
    (0 ≤ c → (s.bcCapacity.toNat : Int) ≤ c → exec (.bcSeek n mode) s = .next (s.raise .outOfBounds)) ∧
    (0 ≤ c → c < (s.bcCapacity.toNat : Int) → exec (.bcSeek n mode) s =
      .next (({ s with bcPosition := BitVec.ofInt 64 c }).respond 0 (BitVec.ofInt 64 c)))

/-- BC.READBIT returns the addressed bit and advances the position; at the end of the medium it raises `OutOfBounds`
(43 R166). -/
def Obligations.BcReadBitReturnsTheCell : Prop :=
  decode (cwOf 0x32 0 0) = .ok .bcReadBit ∧
  (∀ s : State, s.bcActive = false → exec .bcReadBit s = .next (s.raise .notActive)) ∧
  (∀ (s : State) (c : BitCell) (px : Pixel), s.bcActive = true → OnCell s c px →
    exec .bcReadBit s = .next (({ s with bcPosition := s.bcPosition + 1 }).respond 0
      (if (px.sample c.chan).getLsbD c.bit then 1 else 0))) ∧
  (∀ s : State, s.bcActive = true → AtEnd s → exec .bcReadBit s = .next (s.raise .outOfBounds))

/-- BC.WRITEBIT writes the pixel back with the addressed bit of the addressed sample set to the bit and every other bit and
sample as read, and advances the position; at the end of the medium it raises `OutOfBounds` (43 R167). -/
def Obligations.BcWriteBitStoresTheCell : Prop :=
  (∀ b : Bool, decode (cwOf 0x33 (if b then 1 else 0) 0) = .ok (.bcWriteBit b)) ∧
  (∀ (s : State) (b : Bool), s.bcActive = false → exec (.bcWriteBit b) s = .next (s.raise .notActive)) ∧
  (∀ (s : State) (b : Bool) (c : BitCell) (px : Pixel), s.bcActive = true → OnCell s c px →
    ∃ px' : Pixel, px'.a = px.a ∧
      (c.bit < 8 → ∀ ch j, px'.bit ch j = if ch = c.chan ∧ j = c.bit then b else px.bit ch j) ∧
      exec (.bcWriteBit b) s = .next
        (({ s with surface := s.surface.setPixel c.point px', bcPosition := s.bcPosition + 1 }).respond 0 0)) ∧
  (∀ (s : State) (b : Bool), s.bcActive = true → AtEnd s → exec (.bcWriteBit b) s = .next (s.raise .outOfBounds))

/-- BC.TELL returns the cell without moving the cursor; outside `[0, capacity)` it raises `OutOfBounds` (43 R168). -/
def Obligations.BcTellReturnsTheCell : Prop :=
  (∀ p : Word64, decode (cwOf 0x34 0 p) = .ok (.bcTell p)) ∧
  (∀ (s : State) (p : Word64), s.bcActive = false → exec (.bcTell p) s = .next (s.raise .notActive)) ∧
  (∀ (s : State) (p : Word64), s.Inv → s.bcActive = true → 0 ≤ p.toInt → p.toInt < (s.bcCapacity.toNat : Int) →
    ∃ c : BitCell, s.tell p.toNat = some c ∧
      exec (.bcTell p) s = .next (s.respond (BitVec.ofNat 8 (c.chan.code.toNat + 4 * c.bit))
        (BitVec.ofNat 64 (c.point.y.toNat * 2 ^ 32 + c.point.x.toNat)))) ∧
  (∀ (s : State) (p : Word64), s.bcActive = true → (p.toInt < 0 ∨ (s.bcCapacity.toNat : Int) ≤ p.toInt) →
    exec (.bcTell p) s = .next (s.raise .outOfBounds))

/-- A bit command that addresses a coordinate the surface lacks stops the model (20_memory R73, U7; the model's choice, log
5), and so does one whose cell the table or the channel list lacks, and PP.POINT and BC.TELL of a missing entry, in states
that no run reaches (the model's choice, log 11). -/
def Obligations.AbsentPixelStopsTheMachine : Prop :=
  (∀ (s : State) (k : Word64), s.ppValid = true → k.toNat < s.ppW.toNat * s.ppH.toNat →
    s.ppPoints[k.toNat]? = none → exec (.ppPoint k) s = .fault .cellUndefined) ∧
  (∀ (s : State) (p : Word64), s.bcActive = true → 0 ≤ p.toInt → p.toInt < (s.bcCapacity.toNat : Int) →
    s.tell p.toInt.toNat = none → exec (.bcTell p) s = .fault .cellUndefined) ∧
  ∀ (s : State) (b : Bool) (f : Fault), s.bcActive = true → ¬ AtEnd s →
    ((∃ c, s.tell s.bcPosition.toInt.toNat = some c ∧ s.surface.pixel c.point = none) ∧ f = .pixelAbsent ∨
      s.tell s.bcPosition.toInt.toNat = none ∧ f = .cellUndefined) →
    exec .bcReadBit s = .fault f ∧ exec (.bcWriteBit b) s = .fault f ∧
    (s.kgActive = true → exec .cmReadBit s = .fault f) ∧
    (s.kgActive = true → Servable s.kgOffset.toInt → exec (.cmWriteBit b) s = .fault f)

/-- In every state the block can be in, `Tell` maps the positions below the capacity one to one onto the bits
`0 .. bpc - 1` of the cursor's channels of the surface's pixels (43 R161, 20_memory R73). -/
def Obligations.TellNumbersTheBitCells : Prop :=
  ∀ s : State, s.Inv → s.bcActive = true →
    s.bcCapacity.toNat = s.ppW.toNat * s.ppH.toNat * s.bcChans.length * s.bcBpc.toNat ∧
    (∀ p, p < s.bcCapacity.toNat → ∃ c, s.tell p = some c ∧ c.point.x.toNat < s.ppW.toNat ∧
      c.point.y.toNat < s.ppH.toNat ∧ c.chan ∈ s.bcChans ∧ c.bit < s.bcBpc.toNat) ∧
    (∀ p q c, p < s.bcCapacity.toNat → q < s.bcCapacity.toNat → s.tell p = some c → s.tell q = some c → p = q) ∧
    (∀ c : BitCell, c.point.x.toNat < s.ppW.toNat → c.point.y.toNat < s.ppH.toNat → c.chan ∈ s.bcChans →
      c.bit < s.bcBpc.toNat → ∃ p, p < s.bcCapacity.toNat ∧ s.tell p = some c)

/-- A bit written at a position is what a later seek and read of the position return, as long as the cell was not changed
in between (43 R169). -/
def Obligations.ReadAfterWriteReturnsTheBit : Prop :=
  ∀ (s t u : State) (b : Bool), s.Inv → s.bcActive = true → exec (.bcWriteBit b) s = .next t → t.status = some 0 →
    u.Inv → u.bcActive = true → u.bcCapacity = t.bcCapacity →
    u.cellBit s.bcPosition.toNat = t.cellBit s.bcPosition.toNat →
    ∃ v w, exec (.bcSeek s.bcPosition .fromStart) u = .next v ∧ v.status = some 0 ∧
      exec .bcReadBit v = .next w ∧ w.rsp = some (rspWord 0 0 (if b then 1 else 0))

/-- A write to one cell puts the bit there and changes no other cell (43 R161, R167). -/
def Obligations.WriteChangesNoOtherCell : Prop :=
  ∀ (s t : State) (b : Bool), s.Inv → s.bcActive = true → exec (.bcWriteBit b) s = .next t → t.status = some 0 →
    t.cellBit s.bcPosition.toNat = some b ∧
    ∀ p, p < s.bcCapacity.toNat → p ≠ s.bcPosition.toNat → t.cellBit p = s.cellBit p

/-- "writing exactly `capacity` bits succeeds; writing `capacity + 1` bits fails with `OutOfBounds`", for every
configuration, and afterwards every cell holds the bit written to it (43 R167). -/
def Obligations.CapacityBitsFitAndNoMore : Prop :=
  ∀ (s : State) (bits : List Bool), s.Inv → s.bcActive = true → s.bcPosition = 0 →
    s.surface.Covers s.ppW.toNat s.ppH.toNat → bits.length = s.bcCapacity.toNat →
    ∃ t, okRun (bits.map .bcWriteBit) s = some t ∧ (∀ b, exec (.bcWriteBit b) t = .next (t.raise .outOfBounds)) ∧
      ∀ p, p < s.bcCapacity.toNat → t.cellBit p = bits[p]?

/-! ### Cipher middleware (44_cipher_middleware) -/

/-- CM.SEEK moves both positions to the same offset or, when the inner seek fails, neither (44 R181). -/
def Obligations.CmSeekMovesBothPositions : Prop :=
  (∀ n : Word64, decode (cwOf 0x41 0 n) = .ok (.cmSeek n .fromStart) ∧ decode (cwOf 0x41 1 n) = .ok (.cmSeek n .fromCurrent) ∧
    decode (cwOf 0x41 2 n) = .ok (.cmSeek n .fromEnd)) ∧
  (∀ (s : State) (n : Word64) (mode : SeekMode), (s.kgActive = false ∨ s.bcActive = false) → exec (.cmSeek n mode) s = .next (s.raise .notActive)) ∧
  ∀ (s : State) (n : Word64) (mode : SeekMode) (c : Int), s.kgActive = true → s.bcActive = true →
    (mode = .fromStart ∧ c = n.toInt ∨ mode = .fromCurrent ∧ c = s.bcPosition.toInt + n.toInt ∨
      mode = .fromEnd ∧ c = (s.bcCapacity.toNat : Int) + n.toInt) →
    (c < 0 → mode = .fromStart → exec (.cmSeek n mode) s = .next (s.raise .outOfBounds)) ∧
    (c < 0 → mode ≠ .fromStart → exec (.cmSeek n mode) s = .next (s.raise .invalidSeekArgument)) ∧
    (0 ≤ c → (s.bcCapacity.toNat : Int) ≤ c → exec (.cmSeek n mode) s = .next (s.raise .outOfBounds)) ∧
    (0 ≤ c → c < (s.bcCapacity.toNat : Int) → exec (.cmSeek n mode) s =
      .next (({ s with bcPosition := BitVec.ofInt 64 c, kgOffset := BitVec.ofInt 64 c }).respond 0 (BitVec.ofInt 64 c)))

/-- CM.READBIT returns the raw bit XORed with the keystream bit at `KG.offset` and advances both positions; at the end of
the medium nothing changes, whatever the offset; with the offset out of range the position has advanced (44 R182). -/
def Obligations.CmReadBitDecrypts : Prop :=
  decode (cwOf 0x42 0 0) = .ok .cmReadBit ∧
  (∀ s : State, (s.kgActive = false ∨ s.bcActive = false) → exec .cmReadBit s = .next (s.raise .notActive)) ∧
  (∀ (s : State) (c : BitCell) (px : Pixel), KgReady s → s.bcActive = true → OnCell s c px → Servable s.kgOffset.toInt →
    exec .cmReadBit s = .next
      (({ s with
          bcPosition := s.bcPosition + 1
          kgCounter := BitVec.ofNat 32 (s.kgOffset.toNat / 128)
          kgBlock := ksBlock s.key s.nonce (BitVec.ofNat 32 (s.kgOffset.toNat / 128))
          kgOffset := s.kgOffset + 1 }).respond 0
        (if (px.sample c.chan).getLsbD c.bit ^^ ks s.key s.nonce s.kgOffset.toNat then 1 else 0))) ∧
  (∀ s : State, s.kgActive = true → s.bcActive = true → AtEnd s → exec .cmReadBit s = .next (s.raise .outOfBounds)) ∧
  (∀ (s : State) (c : BitCell) (px : Pixel), s.kgActive = true → s.bcActive = true → OnCell s c px →
    ¬ Servable s.kgOffset.toInt →
    exec .cmReadBit s = .next (({ s with bcPosition := s.bcPosition + 1 }).raise .illegalOffset))

/-- CM.WRITEBIT encrypts at `KG.offset`, then writes: it stores the bit XORed with the keystream bit and advances both
positions; with the offset out of range nothing changes; at the end of the medium the generator has advanced and the
surface is untouched (44 R183). -/
def Obligations.CmWriteBitEncrypts : Prop :=
  (∀ b : Bool, decode (cwOf 0x43 (if b then 1 else 0) 0) = .ok (.cmWriteBit b)) ∧
  (∀ (s : State) (b : Bool), (s.kgActive = false ∨ s.bcActive = false) →
    exec (.cmWriteBit b) s = .next (s.raise .notActive)) ∧
  (∀ (s : State) (b : Bool) (c : BitCell) (px : Pixel), KgReady s → s.bcActive = true → OnCell s c px →
    Servable s.kgOffset.toInt →
    exec (.cmWriteBit b) s = .next
      (({ s with
          surface := s.surface.setPixel c.point (px.setBit c.chan c.bit (b ^^ ks s.key s.nonce s.kgOffset.toNat))
          bcPosition := s.bcPosition + 1
          kgCounter := BitVec.ofNat 32 (s.kgOffset.toNat / 128)
          kgBlock := ksBlock s.key s.nonce (BitVec.ofNat 32 (s.kgOffset.toNat / 128))
          kgOffset := s.kgOffset + 1 }).respond 0 0)) ∧
  (∀ (s : State) (b : Bool), s.kgActive = true → s.bcActive = true → ¬ Servable s.kgOffset.toInt →
    exec (.cmWriteBit b) s = .next (s.raise .illegalOffset)) ∧
  (∀ (s : State) (b : Bool), KgReady s → s.bcActive = true → AtEnd s → Servable s.kgOffset.toInt →
    exec (.cmWriteBit b) s = .next
      (({ s with
          kgCounter := BitVec.ofNat 32 (s.kgOffset.toNat / 128)
          kgBlock := ksBlock s.key s.nonce (BitVec.ofNat 32 (s.kgOffset.toNat / 128))
          kgOffset := s.kgOffset + 1 }).raise .outOfBounds))

/-- After a successful CM.SEEK the two positions are equal, every successful CM bit command keeps them equal, and they are
equal after KG.INIT followed by BC.INIT (44 R184). -/
def Obligations.CmCommandsKeepPositionsEqual : Prop :=
  (∀ (s t : State) (n : Word64) (mode : SeekMode), exec (.cmSeek n mode) s = .next t → t.status = some 0 → t.Synced) ∧
  (∀ (s t : State) (i : Instr) (b : Bool), (i = .cmReadBit ∨ i = .cmWriteBit b) → s.Synced → exec i s = .next t →
    t.status = some 0 → t.Synced ∧ t.bcPosition = s.bcPosition + 1) ∧
  (∀ s t : State, okRun [.kgInit, .bcInit] s = some t → t.Synced)

/-- "for a `CipherMiddleware`-wrapped cursor, `seek(k); readBit()` immediately after `seek(k); writeBit(b)` (from a fresh
session keyed identically) returns `b`": a session that seeks to `k` and writes `b`, and any later session with the same
configuration in which cell `k` was not changed (44 R185). -/
def Obligations.CmSeekReadAfterSeekWriteReturnsTheBit : Prop :=
  ∀ (s t u : State) (k : Word64) (b : Bool), s.Inv → s.kgActive = true → s.bcActive = true →
    okRun [.cmSeek k .fromStart, .cmWriteBit b] s = some t →
    u.Inv → u.kgActive = true → u.bcActive = true → u.key0 = t.key0 → u.key1 = t.key1 → u.nonce = t.nonce →
    u.seed = t.seed → u.width = t.width → u.height = t.height → u.chancfg = t.chancfg →
    u.cellBit k.toNat = t.cellBit k.toNat →
    t.cellBit k.toNat = some (b ^^ ks s.key s.nonce k.toNat) ∧
    ∃ v w, exec (.cmSeek k .fromStart) u = .next v ∧ v.status = some 0 ∧
      exec .cmReadBit v = .next w ∧ w.rsp = some (rspWord 0 0 (if b then 1 else 0))

/-! ### The invariant of the block (10_state R30 to R36) -/

/-- The state after reset meets the invariant (10_state R42 gives the values). -/
def Obligations.ResetMeetsTheInvariant : Prop := State.reset.Inv

/-- Every step keeps the invariant: the surface's canonical form, the legal configuration, the cached block, the generated
table, the cursor's capacity and range, the error codes (10_state R30, R33 to R36; 90 C7). -/
def Obligations.EveryStepKeepsTheInvariant : Prop :=
  ∀ s t : State, s.Inv → step s = .next t → t.Inv

/-! ### Host software (45_host_byte_adapter_container) -/

/-- The key is the passphrase padded (with zero) or truncated to 16 bytes, and reaches the block byte for byte (45 R205). -/
def Obligations.KeyIsThePaddedPassphrase : Prop :=
  Config.padByte = 0 ∧
  (∀ (pad : Byte) (pass : List Byte) (j : Nat), j < 16 →
    (deriveKey pad pass).toList[j]? = some (if h : j < pass.length then pass[j] else pad)) ∧
  (∀ (pad : Byte) (pass pass' : List Byte), 16 ≤ pass.length → 16 ≤ pass'.length → pass.take 16 = pass'.take 16 →
    deriveKey pad pass = deriveKey pad pass') ∧
  (∀ k : Block, keyOf (blockWord0 k) (blockWord1 k) = k)

/-- The length field is four bytes, least significant first, and reads back as the number (45 R198). -/
def Obligations.LengthFieldIsLittleEndian : Prop :=
  (∀ n t, t < 4 → (le32 n)[t]? = some (BitVec.ofNat 8 (n >>> (8 * t)))) ∧ (∀ n, (le32 n).length = 4) ∧
  (∀ n, n < 2 ^ 32 → ofLE32 (le32 n) = n) ∧ (le32 5).flatMap byteBits = [false, false, false, false, false, true, false,
    true] ++ List.replicate 24 false

/-- Bytes written through the ByteAdapter at a byte offset are read back from it, over either cursor; bit `7 - i` of
byte `m` of the medium lies in cell `8m + i`, enciphered when the cursor is (45 R191 to R194). -/
def Obligations.ByteAdapterReadsBackWhatItWrote : Prop :=
  ∀ (c : BitCursor) (s : State) (off : Nat) (buf : List Byte), s.Inv → CursorReady c s →
    s.surface.Covers s.ppW.toNat s.ppH.toNat → 8 * (off + buf.length) ≤ s.bcCapacity.toNat →
    8 * off < s.bcCapacity.toNat →
    ∃ s1 s2 s3 s4, baSeek c off .fromStart s = some (0, s1) ∧ baWrite c buf s1 = some ((buf.length, 0), s2) ∧
      baSeek c off .fromStart s2 = some (0, s3) ∧ baRead c buf.length s3 = some ((buf, 0), s4) ∧
      s4.bcPosition.toNat = 8 * (off + buf.length) ∧
      ∀ m i, m < buf.length → i < 8 → s2.cellBit (8 * (off + m) + i) =
        some ((buf.getD m 0).getLsbD (7 - i) ^^ (decide (c = .ciphered) && ks s.key s.nonce (8 * (off + m) + i)))

/-- An oversized payload of known length fails with `CapacityExceeded` before any pixel is changed, on a surface that is
attached and on one that the call attaches itself (45 R202, R203; log 13). -/
def Obligations.PreflightRefusesBeforeAnyWrite : Prop :=
  ∀ (p : HostParams) (pass payload : List Byte) (surface : List (Point × Pixel)) (s : State), cfgLegal p.chancfg = true →
    p.width.toNat * p.height.toNat ≤ 2 ^ 32 →
    p.width.toNat * p.height.toNat * (cfgChannels p.chancfg).length * (cfgBpc p.chancfg).toNat <
      8 * (4 + payload.length + p.frameHash.ds) →
    (∃ t, encodePayload p pass payload s = some (.error .capacityExceeded, t) ∧ t.surface = s.surface) ∧
    (∃ t, hostEncode p surface pass payload s = some (.error .capacityExceeded, t) ∧
      t.surface = Memory.ofPixels surface)

/-- "for all payload byte sequences `P` with `len(P)` such that framed-bit-length ≤ capacity,
`decode(encode(surface, pass, P), pass) == P`": the payload encoded on one block is decoded on any block that is lent a
surface with the resulting pixels (45 R207), whether the surfaces are attached already or the calls attach them (R203,
R204; log 13). -/
def Obligations.DecodeOfEncodeIsThePayload : Prop :=
  (∀ (p : HostParams) (pass payload : List Byte) (s : State), FrameFits p payload.length → s.Inv →
    s.surface.Covers p.width.toNat p.height.toNat →
    ∃ t, encodePayload p pass payload s = some (.ok (), t) ∧
      ∀ s' : State, s'.Inv → (∀ q, s'.surface.pixel q = t.surface.pixel q) →
        ∃ t', decodePayload p pass s' = some (.ok payload, t')) ∧
  (∀ (p : HostParams) (pass payload : List Byte) (surface : List (Point × Pixel)) (s : State),
    FrameFits p payload.length → s.Inv → (Memory.ofPixels surface).Covers p.width.toNat p.height.toNat →
    ∃ t, hostEncode p surface pass payload s = some (.ok (), t) ∧
      ∀ (lent : List (Point × Pixel)) (s' : State), s'.Inv → (lent.map Prod.fst).Nodup →
        (∀ q px, (q, px) ∈ lent ↔ t.surface.pixel q = some px) →
        ∃ t', hostDecode p lent pass s' = some (.ok payload, t'))

/-! ### The cipher's input (20_memory R66) -/

/-- The cipher's input is the layout of 20_memory R66 by default: nonce, counter, each most significant byte first, then
eight zero bytes; and `KsBlock` is the configured cipher of the configured layout (41 R131). -/
def Obligations.CipherInputHasTheConfiguredLayout : Prop :=
  (∀ (nonce counter : Word32), (Config.kg.fmtIn nonce counter).toList =
    (List.range 4).map (fun j => BitVec.ofNat 8 (nonce.toNat / 256 ^ (3 - j))) ++
    (List.range 4).map (fun j => BitVec.ofNat 8 (counter.toNat / 256 ^ (3 - j))) ++ List.replicate 8 0) ∧
  ∀ (key : Block) (nonce counter : Word32),
    ksBlock key nonce counter = Config.kg.cipher key (Config.kg.fmtIn nonce counter)
end

