-- ==== Sys2Proof/Laws/State.lean ====
section
/-! SUPPORT. One lemma for each field under each named update of the state, so that no later proof unfolds a record update. -/

namespace Sys2Proof.Machine

variable (s : State)

/-! ### `respond` -/

@[simp] theorem State.respond_key0 (a : Byte) (d : Word64) : (s.respond a d).key0 = s.key0 := rfl
@[simp] theorem State.respond_key1 (a : Byte) (d : Word64) : (s.respond a d).key1 = s.key1 := rfl
@[simp] theorem State.respond_nonce (a : Byte) (d : Word64) : (s.respond a d).nonce = s.nonce := rfl
@[simp] theorem State.respond_seed (a : Byte) (d : Word64) : (s.respond a d).seed = s.seed := rfl
@[simp] theorem State.respond_width (a : Byte) (d : Word64) : (s.respond a d).width = s.width := rfl
@[simp] theorem State.respond_height (a : Byte) (d : Word64) : (s.respond a d).height = s.height := rfl
@[simp] theorem State.respond_chancfg (a : Byte) (d : Word64) : (s.respond a d).chancfg = s.chancfg := rfl
@[simp] theorem State.respond_kgActive (a : Byte) (d : Word64) : (s.respond a d).kgActive = s.kgActive := rfl
@[simp] theorem State.respond_ppValid (a : Byte) (d : Word64) : (s.respond a d).ppValid = s.ppValid := rfl
@[simp] theorem State.respond_bcActive (a : Byte) (d : Word64) : (s.respond a d).bcActive = s.bcActive := rfl
@[simp] theorem State.respond_err (a : Byte) (d : Word64) : (s.respond a d).err = s.err := rfl
@[simp] theorem State.respond_kgOffset (a : Byte) (d : Word64) : (s.respond a d).kgOffset = s.kgOffset := rfl
@[simp] theorem State.respond_kgCounter (a : Byte) (d : Word64) : (s.respond a d).kgCounter = s.kgCounter := rfl
@[simp] theorem State.respond_kgBlock (a : Byte) (d : Word64) : (s.respond a d).kgBlock = s.kgBlock := rfl
@[simp] theorem State.respond_ppPoints (a : Byte) (d : Word64) : (s.respond a d).ppPoints = s.ppPoints := rfl
@[simp] theorem State.respond_ppW (a : Byte) (d : Word64) : (s.respond a d).ppW = s.ppW := rfl
@[simp] theorem State.respond_ppH (a : Byte) (d : Word64) : (s.respond a d).ppH = s.ppH := rfl
@[simp] theorem State.respond_bcPosition (a : Byte) (d : Word64) : (s.respond a d).bcPosition = s.bcPosition := rfl
@[simp] theorem State.respond_bcCapacity (a : Byte) (d : Word64) : (s.respond a d).bcCapacity = s.bcCapacity := rfl
@[simp] theorem State.respond_bcChans (a : Byte) (d : Word64) : (s.respond a d).bcChans = s.bcChans := rfl
@[simp] theorem State.respond_bcBpc (a : Byte) (d : Word64) : (s.respond a d).bcBpc = s.bcBpc := rfl
@[simp] theorem State.respond_surface (a : Byte) (d : Word64) : (s.respond a d).surface = s.surface := rfl
@[simp] theorem State.respond_port (a : Byte) (d : Word64) : (s.respond a d).port = s.port := rfl
@[simp] theorem State.respond_rsp (a : Byte) (d : Word64) : (s.respond a d).rsp = some (rspWord 0 a d) := rfl

/-! ### `latchErr` -/

@[simp] theorem State.latchErr_key0 (e : Err) : (s.latchErr e).key0 = s.key0 := by
  unfold State.latchErr; split <;> rfl
@[simp] theorem State.latchErr_key1 (e : Err) : (s.latchErr e).key1 = s.key1 := by
  unfold State.latchErr; split <;> rfl
@[simp] theorem State.latchErr_nonce (e : Err) : (s.latchErr e).nonce = s.nonce := by
  unfold State.latchErr; split <;> rfl
@[simp] theorem State.latchErr_seed (e : Err) : (s.latchErr e).seed = s.seed := by
  unfold State.latchErr; split <;> rfl
@[simp] theorem State.latchErr_width (e : Err) : (s.latchErr e).width = s.width := by
  unfold State.latchErr; split <;> rfl
@[simp] theorem State.latchErr_height (e : Err) : (s.latchErr e).height = s.height := by
  unfold State.latchErr; split <;> rfl
@[simp] theorem State.latchErr_chancfg (e : Err) : (s.latchErr e).chancfg = s.chancfg := by
  unfold State.latchErr; split <;> rfl
@[simp] theorem State.latchErr_kgActive (e : Err) : (s.latchErr e).kgActive = s.kgActive := by
  unfold State.latchErr; split <;> rfl
@[simp] theorem State.latchErr_ppValid (e : Err) : (s.latchErr e).ppValid = s.ppValid := by
  unfold State.latchErr; split <;> rfl
@[simp] theorem State.latchErr_bcActive (e : Err) : (s.latchErr e).bcActive = s.bcActive := by
  unfold State.latchErr; split <;> rfl
@[simp] theorem State.latchErr_err (e : Err) : (s.latchErr e).err = if s.err = 0 then e.code else s.err := by
  unfold State.latchErr; split <;> simp_all
@[simp] theorem State.latchErr_kgOffset (e : Err) : (s.latchErr e).kgOffset = s.kgOffset := by
  unfold State.latchErr; split <;> rfl
@[simp] theorem State.latchErr_kgCounter (e : Err) : (s.latchErr e).kgCounter = s.kgCounter := by
  unfold State.latchErr; split <;> rfl
@[simp] theorem State.latchErr_kgBlock (e : Err) : (s.latchErr e).kgBlock = s.kgBlock := by
  unfold State.latchErr; split <;> rfl
@[simp] theorem State.latchErr_ppPoints (e : Err) : (s.latchErr e).ppPoints = s.ppPoints := by
  unfold State.latchErr; split <;> rfl
@[simp] theorem State.latchErr_ppW (e : Err) : (s.latchErr e).ppW = s.ppW := by
  unfold State.latchErr; split <;> rfl
@[simp] theorem State.latchErr_ppH (e : Err) : (s.latchErr e).ppH = s.ppH := by
  unfold State.latchErr; split <;> rfl
@[simp] theorem State.latchErr_bcPosition (e : Err) : (s.latchErr e).bcPosition = s.bcPosition := by
  unfold State.latchErr; split <;> rfl
@[simp] theorem State.latchErr_bcCapacity (e : Err) : (s.latchErr e).bcCapacity = s.bcCapacity := by
  unfold State.latchErr; split <;> rfl
@[simp] theorem State.latchErr_bcChans (e : Err) : (s.latchErr e).bcChans = s.bcChans := by
  unfold State.latchErr; split <;> rfl
@[simp] theorem State.latchErr_bcBpc (e : Err) : (s.latchErr e).bcBpc = s.bcBpc := by
  unfold State.latchErr; split <;> rfl
@[simp] theorem State.latchErr_surface (e : Err) : (s.latchErr e).surface = s.surface := by
  unfold State.latchErr; split <;> rfl
@[simp] theorem State.latchErr_port (e : Err) : (s.latchErr e).port = s.port := by
  unfold State.latchErr; split <;> rfl
@[simp] theorem State.latchErr_rsp (e : Err) : (s.latchErr e).rsp = s.rsp := by
  unfold State.latchErr; split <;> rfl

/-! ### `raise` -/

@[simp] theorem State.raise_key0 (e : Err) : (s.raise e).key0 = s.key0 := by
  unfold State.raise State.latchErr; split <;> rfl
@[simp] theorem State.raise_key1 (e : Err) : (s.raise e).key1 = s.key1 := by
  unfold State.raise State.latchErr; split <;> rfl
@[simp] theorem State.raise_nonce (e : Err) : (s.raise e).nonce = s.nonce := by
  unfold State.raise State.latchErr; split <;> rfl
@[simp] theorem State.raise_seed (e : Err) : (s.raise e).seed = s.seed := by
  unfold State.raise State.latchErr; split <;> rfl
@[simp] theorem State.raise_width (e : Err) : (s.raise e).width = s.width := by
  unfold State.raise State.latchErr; split <;> rfl
@[simp] theorem State.raise_height (e : Err) : (s.raise e).height = s.height := by
  unfold State.raise State.latchErr; split <;> rfl
@[simp] theorem State.raise_chancfg (e : Err) : (s.raise e).chancfg = s.chancfg := by
  unfold State.raise State.latchErr; split <;> rfl
@[simp] theorem State.raise_kgActive (e : Err) : (s.raise e).kgActive = s.kgActive := by
  unfold State.raise State.latchErr; split <;> rfl
@[simp] theorem State.raise_ppValid (e : Err) : (s.raise e).ppValid = s.ppValid := by
  unfold State.raise State.latchErr; split <;> rfl
@[simp] theorem State.raise_bcActive (e : Err) : (s.raise e).bcActive = s.bcActive := by
  unfold State.raise State.latchErr; split <;> rfl
@[simp] theorem State.raise_err (e : Err) : (s.raise e).err = if s.err = 0 then e.code else s.err := by
  unfold State.raise State.latchErr; split <;> simp_all
@[simp] theorem State.raise_kgOffset (e : Err) : (s.raise e).kgOffset = s.kgOffset := by
  unfold State.raise State.latchErr; split <;> rfl
@[simp] theorem State.raise_kgCounter (e : Err) : (s.raise e).kgCounter = s.kgCounter := by
  unfold State.raise State.latchErr; split <;> rfl
@[simp] theorem State.raise_kgBlock (e : Err) : (s.raise e).kgBlock = s.kgBlock := by
  unfold State.raise State.latchErr; split <;> rfl
@[simp] theorem State.raise_ppPoints (e : Err) : (s.raise e).ppPoints = s.ppPoints := by
  unfold State.raise State.latchErr; split <;> rfl
@[simp] theorem State.raise_ppW (e : Err) : (s.raise e).ppW = s.ppW := by
  unfold State.raise State.latchErr; split <;> rfl
@[simp] theorem State.raise_ppH (e : Err) : (s.raise e).ppH = s.ppH := by
  unfold State.raise State.latchErr; split <;> rfl
@[simp] theorem State.raise_bcPosition (e : Err) : (s.raise e).bcPosition = s.bcPosition := by
  unfold State.raise State.latchErr; split <;> rfl
@[simp] theorem State.raise_bcCapacity (e : Err) : (s.raise e).bcCapacity = s.bcCapacity := by
  unfold State.raise State.latchErr; split <;> rfl
@[simp] theorem State.raise_bcChans (e : Err) : (s.raise e).bcChans = s.bcChans := by
  unfold State.raise State.latchErr; split <;> rfl
@[simp] theorem State.raise_bcBpc (e : Err) : (s.raise e).bcBpc = s.bcBpc := by
  unfold State.raise State.latchErr; split <;> rfl
@[simp] theorem State.raise_surface (e : Err) : (s.raise e).surface = s.surface := by
  unfold State.raise State.latchErr; split <;> rfl
@[simp] theorem State.raise_port (e : Err) : (s.raise e).port = s.port := by
  unfold State.raise State.latchErr; split <;> rfl
@[simp] theorem State.raise_rsp (e : Err) : (s.raise e).rsp = some (rspWord e.code 0 0) := rfl

/-! ### `advanceKg` -/

@[simp] theorem State.advanceKg_key0 : s.advanceKg.key0 = s.key0 := rfl
@[simp] theorem State.advanceKg_key1 : s.advanceKg.key1 = s.key1 := rfl
@[simp] theorem State.advanceKg_nonce : s.advanceKg.nonce = s.nonce := rfl
@[simp] theorem State.advanceKg_seed : s.advanceKg.seed = s.seed := rfl
@[simp] theorem State.advanceKg_width : s.advanceKg.width = s.width := rfl
@[simp] theorem State.advanceKg_height : s.advanceKg.height = s.height := rfl
@[simp] theorem State.advanceKg_chancfg : s.advanceKg.chancfg = s.chancfg := rfl
@[simp] theorem State.advanceKg_kgActive : s.advanceKg.kgActive = s.kgActive := rfl
@[simp] theorem State.advanceKg_ppValid : s.advanceKg.ppValid = s.ppValid := rfl
@[simp] theorem State.advanceKg_bcActive : s.advanceKg.bcActive = s.bcActive := rfl
@[simp] theorem State.advanceKg_err : s.advanceKg.err = s.err := rfl
@[simp] theorem State.advanceKg_kgOffset : s.advanceKg.kgOffset = s.kgOffset + 1 := rfl
@[simp] theorem State.advanceKg_kgCounter : s.advanceKg.kgCounter = s.kgCounter := rfl
@[simp] theorem State.advanceKg_kgBlock : s.advanceKg.kgBlock = s.kgBlock := rfl
@[simp] theorem State.advanceKg_ppPoints : s.advanceKg.ppPoints = s.ppPoints := rfl
@[simp] theorem State.advanceKg_ppW : s.advanceKg.ppW = s.ppW := rfl
@[simp] theorem State.advanceKg_ppH : s.advanceKg.ppH = s.ppH := rfl
@[simp] theorem State.advanceKg_bcPosition : s.advanceKg.bcPosition = s.bcPosition := rfl
@[simp] theorem State.advanceKg_bcCapacity : s.advanceKg.bcCapacity = s.bcCapacity := rfl
@[simp] theorem State.advanceKg_bcChans : s.advanceKg.bcChans = s.bcChans := rfl
@[simp] theorem State.advanceKg_bcBpc : s.advanceKg.bcBpc = s.bcBpc := rfl
@[simp] theorem State.advanceKg_surface : s.advanceKg.surface = s.surface := rfl
@[simp] theorem State.advanceKg_port : s.advanceKg.port = s.port := rfl
@[simp] theorem State.advanceKg_rsp : s.advanceKg.rsp = s.rsp := rfl

/-! ### `advanceBc` -/

@[simp] theorem State.advanceBc_key0 : s.advanceBc.key0 = s.key0 := rfl
@[simp] theorem State.advanceBc_key1 : s.advanceBc.key1 = s.key1 := rfl
@[simp] theorem State.advanceBc_nonce : s.advanceBc.nonce = s.nonce := rfl
@[simp] theorem State.advanceBc_seed : s.advanceBc.seed = s.seed := rfl
@[simp] theorem State.advanceBc_width : s.advanceBc.width = s.width := rfl
@[simp] theorem State.advanceBc_height : s.advanceBc.height = s.height := rfl
@[simp] theorem State.advanceBc_chancfg : s.advanceBc.chancfg = s.chancfg := rfl
@[simp] theorem State.advanceBc_kgActive : s.advanceBc.kgActive = s.kgActive := rfl
@[simp] theorem State.advanceBc_ppValid : s.advanceBc.ppValid = s.ppValid := rfl
@[simp] theorem State.advanceBc_bcActive : s.advanceBc.bcActive = s.bcActive := rfl
@[simp] theorem State.advanceBc_err : s.advanceBc.err = s.err := rfl
@[simp] theorem State.advanceBc_kgOffset : s.advanceBc.kgOffset = s.kgOffset := rfl
@[simp] theorem State.advanceBc_kgCounter : s.advanceBc.kgCounter = s.kgCounter := rfl
@[simp] theorem State.advanceBc_kgBlock : s.advanceBc.kgBlock = s.kgBlock := rfl
@[simp] theorem State.advanceBc_ppPoints : s.advanceBc.ppPoints = s.ppPoints := rfl
@[simp] theorem State.advanceBc_ppW : s.advanceBc.ppW = s.ppW := rfl
@[simp] theorem State.advanceBc_ppH : s.advanceBc.ppH = s.ppH := rfl
@[simp] theorem State.advanceBc_bcPosition : s.advanceBc.bcPosition = s.bcPosition + 1 := rfl
@[simp] theorem State.advanceBc_bcCapacity : s.advanceBc.bcCapacity = s.bcCapacity := rfl
@[simp] theorem State.advanceBc_bcChans : s.advanceBc.bcChans = s.bcChans := rfl
@[simp] theorem State.advanceBc_bcBpc : s.advanceBc.bcBpc = s.bcBpc := rfl
@[simp] theorem State.advanceBc_surface : s.advanceBc.surface = s.surface := rfl
@[simp] theorem State.advanceBc_port : s.advanceBc.port = s.port := rfl
@[simp] theorem State.advanceBc_rsp : s.advanceBc.rsp = s.rsp := rfl

/-! ### `initCursor` -/

@[simp] theorem State.initCursor_key0 : s.initCursor.key0 = s.key0 := rfl
@[simp] theorem State.initCursor_key1 : s.initCursor.key1 = s.key1 := rfl
@[simp] theorem State.initCursor_nonce : s.initCursor.nonce = s.nonce := rfl
@[simp] theorem State.initCursor_seed : s.initCursor.seed = s.seed := rfl
@[simp] theorem State.initCursor_width : s.initCursor.width = s.width := rfl
@[simp] theorem State.initCursor_height : s.initCursor.height = s.height := rfl
@[simp] theorem State.initCursor_chancfg : s.initCursor.chancfg = s.chancfg := rfl
@[simp] theorem State.initCursor_kgActive : s.initCursor.kgActive = s.kgActive := rfl
@[simp] theorem State.initCursor_ppValid : s.initCursor.ppValid = s.ppValid := rfl
@[simp] theorem State.initCursor_bcActive : s.initCursor.bcActive = true := rfl
@[simp] theorem State.initCursor_err : s.initCursor.err = s.err := rfl
@[simp] theorem State.initCursor_kgOffset : s.initCursor.kgOffset = s.kgOffset := rfl
@[simp] theorem State.initCursor_kgCounter : s.initCursor.kgCounter = s.kgCounter := rfl
@[simp] theorem State.initCursor_kgBlock : s.initCursor.kgBlock = s.kgBlock := rfl
@[simp] theorem State.initCursor_ppPoints : s.initCursor.ppPoints = s.ppPoints := rfl
@[simp] theorem State.initCursor_ppW : s.initCursor.ppW = s.ppW := rfl
@[simp] theorem State.initCursor_ppH : s.initCursor.ppH = s.ppH := rfl
@[simp] theorem State.initCursor_bcPosition : s.initCursor.bcPosition = 0 := rfl
@[simp] theorem State.initCursor_bcCapacity : s.initCursor.bcCapacity = BitVec.ofNat 64 (s.ppW.toNat * s.ppH.toNat * cfgCount s.chancfg * (cfgBpc s.chancfg).toNat) :=
  rfl
@[simp] theorem State.initCursor_bcChans : s.initCursor.bcChans = cfgChannels s.chancfg := rfl
@[simp] theorem State.initCursor_bcBpc : s.initCursor.bcBpc = cfgBpc s.chancfg := rfl
@[simp] theorem State.initCursor_surface : s.initCursor.surface = s.surface := rfl
@[simp] theorem State.initCursor_port : s.initCursor.port = s.port := rfl
@[simp] theorem State.initCursor_rsp : s.initCursor.rsp = s.rsp := rfl

/-! ### `takeReset` -/

@[simp] theorem State.takeReset_key0 : s.takeReset.key0 = State.reset.key0 := rfl
@[simp] theorem State.takeReset_key1 : s.takeReset.key1 = State.reset.key1 := rfl
@[simp] theorem State.takeReset_nonce : s.takeReset.nonce = State.reset.nonce := rfl
@[simp] theorem State.takeReset_seed : s.takeReset.seed = State.reset.seed := rfl
@[simp] theorem State.takeReset_width : s.takeReset.width = State.reset.width := rfl
@[simp] theorem State.takeReset_height : s.takeReset.height = State.reset.height := rfl
@[simp] theorem State.takeReset_chancfg : s.takeReset.chancfg = State.reset.chancfg := rfl
@[simp] theorem State.takeReset_kgActive : s.takeReset.kgActive = State.reset.kgActive := rfl
@[simp] theorem State.takeReset_ppValid : s.takeReset.ppValid = State.reset.ppValid := rfl
@[simp] theorem State.takeReset_bcActive : s.takeReset.bcActive = State.reset.bcActive := rfl
@[simp] theorem State.takeReset_err : s.takeReset.err = State.reset.err := rfl
@[simp] theorem State.takeReset_kgOffset : s.takeReset.kgOffset = State.reset.kgOffset := rfl
@[simp] theorem State.takeReset_kgCounter : s.takeReset.kgCounter = State.reset.kgCounter := rfl
@[simp] theorem State.takeReset_kgBlock : s.takeReset.kgBlock = State.reset.kgBlock := rfl
@[simp] theorem State.takeReset_ppPoints : s.takeReset.ppPoints = State.reset.ppPoints := rfl
@[simp] theorem State.takeReset_ppW : s.takeReset.ppW = State.reset.ppW := rfl
@[simp] theorem State.takeReset_ppH : s.takeReset.ppH = State.reset.ppH := rfl
@[simp] theorem State.takeReset_bcPosition : s.takeReset.bcPosition = State.reset.bcPosition := rfl
@[simp] theorem State.takeReset_bcCapacity : s.takeReset.bcCapacity = State.reset.bcCapacity := rfl
@[simp] theorem State.takeReset_bcChans : s.takeReset.bcChans = State.reset.bcChans := rfl
@[simp] theorem State.takeReset_bcBpc : s.takeReset.bcBpc = State.reset.bcBpc := rfl
@[simp] theorem State.takeReset_surface : s.takeReset.surface = s.surface := rfl
@[simp] theorem State.takeReset_port : s.takeReset.port = s.port := rfl
@[simp] theorem State.takeReset_rsp : s.takeReset.rsp = State.reset.rsp := rfl

/-! ### `refresh` -/

@[simp] theorem State.refresh_key0 (i : Nat) : (s.refresh i).key0 = s.key0 := by
  unfold State.refresh; split <;> rfl
@[simp] theorem State.refresh_key1 (i : Nat) : (s.refresh i).key1 = s.key1 := by
  unfold State.refresh; split <;> rfl
@[simp] theorem State.refresh_nonce (i : Nat) : (s.refresh i).nonce = s.nonce := by
  unfold State.refresh; split <;> rfl
@[simp] theorem State.refresh_seed (i : Nat) : (s.refresh i).seed = s.seed := by
  unfold State.refresh; split <;> rfl
@[simp] theorem State.refresh_width (i : Nat) : (s.refresh i).width = s.width := by
  unfold State.refresh; split <;> rfl
@[simp] theorem State.refresh_height (i : Nat) : (s.refresh i).height = s.height := by
  unfold State.refresh; split <;> rfl
@[simp] theorem State.refresh_chancfg (i : Nat) : (s.refresh i).chancfg = s.chancfg := by
  unfold State.refresh; split <;> rfl
@[simp] theorem State.refresh_kgActive (i : Nat) : (s.refresh i).kgActive = s.kgActive := by
  unfold State.refresh; split <;> rfl
@[simp] theorem State.refresh_ppValid (i : Nat) : (s.refresh i).ppValid = s.ppValid := by
  unfold State.refresh; split <;> rfl
@[simp] theorem State.refresh_bcActive (i : Nat) : (s.refresh i).bcActive = s.bcActive := by
  unfold State.refresh; split <;> rfl
@[simp] theorem State.refresh_err (i : Nat) : (s.refresh i).err = s.err := by
  unfold State.refresh; split <;> rfl
@[simp] theorem State.refresh_kgOffset (i : Nat) : (s.refresh i).kgOffset = s.kgOffset := by
  unfold State.refresh; split <;> rfl
theorem State.refresh_kgCounter_toNat (i : Nat) (h : i < Config.offsetLimit) :
    (s.refresh i).kgCounter.toNat = i / Config.blockBits := by
  unfold State.refresh
  split
  · next hc => exact hc.symm
  · simp only [counterOf, Config.blockBits, Config.offsetLimit, BitVec.toNat_ofNat] at *
    omega
theorem State.refresh_kgBlock (i : Nat) : (s.refresh i).kgBlock = if i / Config.blockBits = s.kgCounter.toNat then s.kgBlock else ksBlock s.key s.nonce (counterOf i) := by
  unfold State.refresh; split <;> rfl
@[simp] theorem State.refresh_ppPoints (i : Nat) : (s.refresh i).ppPoints = s.ppPoints := by
  unfold State.refresh; split <;> rfl
@[simp] theorem State.refresh_ppW (i : Nat) : (s.refresh i).ppW = s.ppW := by
  unfold State.refresh; split <;> rfl
@[simp] theorem State.refresh_ppH (i : Nat) : (s.refresh i).ppH = s.ppH := by
  unfold State.refresh; split <;> rfl
@[simp] theorem State.refresh_bcPosition (i : Nat) : (s.refresh i).bcPosition = s.bcPosition := by
  unfold State.refresh; split <;> rfl
@[simp] theorem State.refresh_bcCapacity (i : Nat) : (s.refresh i).bcCapacity = s.bcCapacity := by
  unfold State.refresh; split <;> rfl
@[simp] theorem State.refresh_bcChans (i : Nat) : (s.refresh i).bcChans = s.bcChans := by
  unfold State.refresh; split <;> rfl
@[simp] theorem State.refresh_bcBpc (i : Nat) : (s.refresh i).bcBpc = s.bcBpc := by
  unfold State.refresh; split <;> rfl
@[simp] theorem State.refresh_surface (i : Nat) : (s.refresh i).surface = s.surface := by
  unfold State.refresh; split <;> rfl
@[simp] theorem State.refresh_port (i : Nat) : (s.refresh i).port = s.port := by
  unfold State.refresh; split <;> rfl
@[simp] theorem State.refresh_rsp (i : Nat) : (s.refresh i).rsp = s.rsp := by
  unfold State.refresh; split <;> rfl

/-! ### `storeCell` -/

section
variable (c : BitCell) (px : Pixel) (b : Bool)

@[simp] theorem State.storeCell_key0 : (s.storeCell c px b).key0 = s.key0 := rfl
@[simp] theorem State.storeCell_key1 : (s.storeCell c px b).key1 = s.key1 := rfl
@[simp] theorem State.storeCell_nonce : (s.storeCell c px b).nonce = s.nonce := rfl
@[simp] theorem State.storeCell_seed : (s.storeCell c px b).seed = s.seed := rfl
@[simp] theorem State.storeCell_width : (s.storeCell c px b).width = s.width := rfl
@[simp] theorem State.storeCell_height : (s.storeCell c px b).height = s.height := rfl
@[simp] theorem State.storeCell_chancfg : (s.storeCell c px b).chancfg = s.chancfg := rfl
@[simp] theorem State.storeCell_kgActive : (s.storeCell c px b).kgActive = s.kgActive := rfl
@[simp] theorem State.storeCell_ppValid : (s.storeCell c px b).ppValid = s.ppValid := rfl
@[simp] theorem State.storeCell_bcActive : (s.storeCell c px b).bcActive = s.bcActive := rfl
@[simp] theorem State.storeCell_err : (s.storeCell c px b).err = s.err := rfl
@[simp] theorem State.storeCell_kgOffset : (s.storeCell c px b).kgOffset = s.kgOffset := rfl
@[simp] theorem State.storeCell_kgCounter : (s.storeCell c px b).kgCounter = s.kgCounter := rfl
@[simp] theorem State.storeCell_kgBlock : (s.storeCell c px b).kgBlock = s.kgBlock := rfl
@[simp] theorem State.storeCell_ppPoints : (s.storeCell c px b).ppPoints = s.ppPoints := rfl
@[simp] theorem State.storeCell_ppW : (s.storeCell c px b).ppW = s.ppW := rfl
@[simp] theorem State.storeCell_ppH : (s.storeCell c px b).ppH = s.ppH := rfl
@[simp] theorem State.storeCell_bcPosition : (s.storeCell c px b).bcPosition = s.bcPosition + 1 := rfl
@[simp] theorem State.storeCell_bcCapacity : (s.storeCell c px b).bcCapacity = s.bcCapacity := rfl
@[simp] theorem State.storeCell_bcChans : (s.storeCell c px b).bcChans = s.bcChans := rfl
@[simp] theorem State.storeCell_bcBpc : (s.storeCell c px b).bcBpc = s.bcBpc := rfl
@[simp] theorem State.storeCell_surface : (s.storeCell c px b).surface = s.surface.setPixel c.point (px.setBit c.chan c.bit b) := rfl
@[simp] theorem State.storeCell_port : (s.storeCell c px b).port = s.port := rfl
@[simp] theorem State.storeCell_rsp : (s.storeCell c px b).rsp = s.rsp := rfl
@[simp] theorem State.storeCell_key : (s.storeCell c px b).key = s.key := rfl

end

/-! ### derived reads -/

@[simp] theorem State.respond_key (a : Byte) (d : Word64) : (s.respond a d).key = s.key := rfl
@[simp] theorem State.raise_key (e : Err) : (s.raise e).key = s.key := by simp [State.key]
@[simp] theorem State.refresh_key (i : Nat) : (s.refresh i).key = s.key := by simp [State.key]
@[simp] theorem State.advanceKg_key : s.advanceKg.key = s.key := rfl
@[simp] theorem State.advanceBc_key : s.advanceBc.key = s.key := rfl
@[simp] theorem State.initCursor_key : s.initCursor.key = s.key := rfl
@[simp] theorem State.respond_status (a : Byte) (d : Word64) : (s.respond a d).status = some (rspStatus (rspWord 0 a d)) :=
  rfl
@[simp] theorem State.raise_status (e : Err) : (s.raise e).status = some (rspStatus (rspWord e.code 0 0)) := by
  simp [State.status]

end Sys2Proof.Machine
end

