-- ==== Sys2Proof/Laws/Memory.lean ====
section
/-! SUPPORT. The laws of the pixel surface: read after write, everything else unchanged, the canonical form kept. -/

namespace Sys2Proof.Machine

/-! ### One sample -/

theorem Memory.read_write_same (m : Memory) (a : Nat) (v : Byte) : (m.write a v).read a = some v := by
  induction m with
  | nil => simp [Memory.write, Memory.read]
  | cons e m ih =>
    obtain ⟨k, w⟩ := e
    simp only [Memory.write]
    split
    · simp [Memory.read]
    · split
      · simp [Memory.read]
      · next h => simpa [Memory.read, Ne.symm h] using ih

theorem Memory.read_write_other (m : Memory) (a b : Nat) (v : Byte) (h : b ≠ a) :
    (m.write a v).read b = m.read b := by
  induction m with
  | nil => simp [Memory.write, Memory.read, Ne.symm h]
  | cons e m ih =>
    obtain ⟨k, w⟩ := e
    simp only [Memory.write]
    split
    · simp [Memory.read, Ne.symm h]
    · split
      · next h' => subst h'; simp [Memory.read, Ne.symm h]
      · by_cases hk : k = b
        · simp [Memory.read, hk]
        · simpa [Memory.read, hk] using ih

theorem Memory.mem_write {m : Memory} {a : Nat} {v : Byte} {e : Host.Cell} (h : e ∈ m.write a v) :
    e = (a, v) ∨ e ∈ m := by
  induction m with
  | nil => simpa [Memory.write] using h
  | cons c m ih =>
    obtain ⟨k, w⟩ := c
    simp only [Memory.write] at h
    split at h
    · simpa using h
    · split at h
      · simp only [List.mem_cons] at h ⊢; tauto
      · simp only [List.mem_cons] at h ⊢; tauto

theorem Memory.write_wf {m : Memory} (hm : m.wf) (a : Nat) (v : Byte) : (m.write a v).wf := by
  induction m with
  | nil => simp [Memory.wf, Memory.write]
  | cons c m ih =>
    obtain ⟨k, w⟩ := c
    obtain ⟨hk, hm'⟩ := List.pairwise_cons.mp hm
    simp only [Memory.write]
    split
    · next h =>
      refine List.pairwise_cons.mpr ⟨fun e he => ?_, hm⟩
      rcases List.mem_cons.mp he with rfl | he
      · exact h
      · exact lt_trans h (hk e he)
    · split
      · next h => subst h; exact List.pairwise_cons.mpr ⟨hk, hm'⟩
      · next h1 h2 =>
        refine List.pairwise_cons.mpr ⟨fun e he => ?_, ih hm'⟩
        rcases Memory.mem_write he with rfl | he
        · show k < a; omega
        · exact hk e he

/-! ### One pixel -/

theorem Memory.setPixel_wf {m : Memory} (hm : m.wf) (p : Point) (px : Pixel) : (m.setPixel p px).wf :=
  Memory.write_wf (Memory.write_wf (Memory.write_wf (Memory.write_wf hm _ _) _ _) _ _) _ _

theorem Memory.ofPixels_wf (pixels : List (Point × Pixel)) : (Memory.ofPixels pixels).wf := by
  have key : ∀ (l : List (Point × Pixel)) (m : Memory), m.wf →
      (l.foldl (fun m e => m.setPixel e.1 e.2) m).wf := by
    intro l
    induction l with
    | nil => exact fun m hm => hm
    | cons e l ih => exact fun m hm => ih _ (Memory.setPixel_wf hm _ _)
  exact key pixels [] List.Pairwise.nil

/-- After reset the surface is in its canonical form. -/
theorem State.reset_surface_wf : Memory.wf State.reset.surface := List.Pairwise.nil

/-- The four cells of a pixel are its own: distinct coordinates have distinct cells. -/
theorem Point.addr_inj {p q : Point} (h : p.addr = q.addr) : p = q := by
  obtain ⟨x, y⟩ := p
  obtain ⟨x', y'⟩ := q
  have := x.isLt; have := x'.isLt; have := y.isLt; have := y'.isLt
  simp only [Point.addr] at h
  have hx : x.toNat = x'.toNat := by omega
  have hy : y.toNat = y'.toNat := by omega
  rw [BitVec.eq_of_toNat_eq hx, BitVec.eq_of_toNat_eq hy]

theorem Point.addr_apart {p q : Point} (h : p ≠ q) : p.addr + 4 ≤ q.addr ∨ q.addr + 4 ≤ p.addr := by
  have hne : p.addr ≠ q.addr := fun e => h (Point.addr_inj e)
  simp only [Point.addr] at *
  omega

/-- A pixel write leaves every other cell alone. -/
theorem Memory.read_setPixel_other (m : Memory) (p : Point) (px : Pixel) (a : Nat) (h : a < p.addr ∨ p.addr + 4 ≤ a) :
    (m.setPixel p px).read a = m.read a := by
  simp only [Memory.setPixel]
  rw [Memory.read_write_other _ _ _ _ (by omega), Memory.read_write_other _ _ _ _ (by omega),
    Memory.read_write_other _ _ _ _ (by omega), Memory.read_write_other _ _ _ _ (by omega)]

theorem Memory.pixel_setPixel_same (m : Memory) (p : Point) (px : Pixel) : (m.setPixel p px).pixel p = some px := by
  have h0 : (m.setPixel p px).read p.addr = some px.r := by
    simp only [Memory.setPixel]
    rw [Memory.read_write_other _ _ _ _ (by omega), Memory.read_write_other _ _ _ _ (by omega),
      Memory.read_write_other _ _ _ _ (by omega), Memory.read_write_same]
  have h1 : (m.setPixel p px).read (p.addr + 1) = some px.g := by
    simp only [Memory.setPixel]
    rw [Memory.read_write_other _ _ _ _ (by omega), Memory.read_write_other _ _ _ _ (by omega), Memory.read_write_same]
  have h2 : (m.setPixel p px).read (p.addr + 2) = some px.b := by
    simp only [Memory.setPixel]
    rw [Memory.read_write_other _ _ _ _ (by omega), Memory.read_write_same]
  have h3 : (m.setPixel p px).read (p.addr + 3) = some px.a := by
    simp only [Memory.setPixel]
    rw [Memory.read_write_same]
  simp [Memory.pixel, h0, h1, h2, h3]

theorem Memory.pixel_setPixel_other (m : Memory) {p q : Point} (px : Pixel) (h : q ≠ p) :
    (m.setPixel p px).pixel q = m.pixel q := by
  have hq := Point.addr_apart h
  have key : ∀ k, k < 4 → (m.setPixel p px).read (q.addr + k) = m.read (q.addr + k) := fun k hk =>
    Memory.read_setPixel_other m p px _ (by omega)
  simp only [Memory.pixel, key 1 (by omega), key 2 (by omega), key 3 (by omega)]
  rw [Memory.read_setPixel_other m p px q.addr (by omega)]

/-- Laying pixels on a surface one after the other, with distinct coordinates. -/
theorem Memory.pixel_foldl (pixels : List (Point × Pixel)) (m : Memory) (p : Point) (px : Pixel)
    (hn : (pixels.map Prod.fst).Nodup) :
    (pixels.foldl (fun m e => m.setPixel e.1 e.2) m).pixel p = some px ↔
      (p, px) ∈ pixels ∨ (p ∉ pixels.map Prod.fst ∧ m.pixel p = some px) := by
  induction pixels generalizing m with
  | nil => simp
  | cons e pixels ih =>
    obtain ⟨hn1, hn2⟩ := List.nodup_cons.mp hn
    rw [List.foldl_cons, ih _ hn2]
    obtain ⟨q, qx⟩ := e
    by_cases hq : p = q
    · subst hq
      have : ∀ x, (p, x) ∉ pixels := fun x hx => hn1 (List.mem_map.mpr ⟨_, hx, rfl⟩)
      simp only [Memory.pixel_setPixel_same, List.mem_cons, this, false_or, List.map_cons, not_true, hn1, not_false_iff,
        true_and, or_false, Prod.mk.injEq, Option.some.injEq, false_and]
      exact eq_comm
    · rw [Memory.pixel_setPixel_other _ _ hq]
      simp [hq]

/-- A surface made of pixels with distinct coordinates has exactly those. -/
theorem Memory.pixel_ofPixels {pixels : List (Point × Pixel)} (hn : (pixels.map Prod.fst).Nodup) (p : Point) (px : Pixel) :
    (Memory.ofPixels pixels).pixel p = some px ↔ (p, px) ∈ pixels := by
  rw [Memory.ofPixels, Memory.pixel_foldl _ _ _ _ hn]
  simp [Memory.pixel, Memory.read]

theorem Memory.mem_of_read {m : Memory} {a : Nat} {v : Byte} (h : m.read a = some v) : (a, v) ∈ m := by
  induction m with
  | nil => simp [Memory.read] at h
  | cons e m ih =>
    obtain ⟨k, w⟩ := e
    simp only [Memory.read] at h
    split at h
    · next hk => cases h; subst hk; simp
    · exact List.mem_cons_of_mem _ (ih h)

/-- Every surface can be listed pixel by pixel. -/
theorem Memory.exists_listing (m : Memory) : ∃ pixels : List (Point × Pixel), (pixels.map Prod.fst).Nodup ∧
    ∀ q px, (q, px) ∈ pixels ↔ m.pixel q = some px := by
  let at? (a : Nat) : Option (Point × Pixel) :=
    let q : Point := ⟨BitVec.ofNat 32 (a / 4), BitVec.ofNat 32 (a / 4 / 2 ^ 32)⟩
    (m.pixel q).map fun px => (q, px)
  have hm : ∀ q px, (q, px) ∈ (m.filterMap fun c => at? c.1).dedup ↔ m.pixel q = some px := by
    intro q px
    rw [List.mem_dedup, List.mem_filterMap]
    constructor
    · rintro ⟨c, -, hc⟩
      simp only [at?, Option.map_eq_some_iff, Prod.mk.injEq] at hc
      obtain ⟨x, hx, rfl, rfl⟩ := hc
      exact hx
    · intro h
      have hr : ∃ v, m.read q.addr = some v := by
        cases hv : m.read q.addr with
        | none => simp [Memory.pixel, hv] at h
        | some v => exact ⟨v, rfl⟩
      obtain ⟨v, hv⟩ := hr
      refine ⟨_, Memory.mem_of_read hv, ?_⟩
      have hq : (⟨BitVec.ofNat 32 (q.addr / 4), BitVec.ofNat 32 (q.addr / 4 / 2 ^ 32)⟩ : Point) = q := by
        obtain ⟨x, y⟩ := q
        have hx := x.isLt
        have hy := y.isLt
        simp only [Point.addr, Point.mk.injEq, Nat.mul_div_cancel_left _ (show 0 < 4 by decide)]
        constructor <;> apply BitVec.eq_of_toNat_eq
        · rw [BitVec.toNat_ofNat, Nat.mul_add_mod_self_right, Nat.mod_eq_of_lt hx]
        · have hd : (y.toNat * 2 ^ 32 + x.toNat) / 2 ^ 32 = y.toNat := by omega
          rw [BitVec.toNat_ofNat, hd, Nat.mod_eq_of_lt hy]
      simp only [at?, hq, h, Option.map_some]
  have hd := List.nodup_dedup (m.filterMap fun c => at? c.1)
  generalize (m.filterMap fun c => at? c.1).dedup = pixels at hm hd
  refine ⟨pixels, hd.map_on ?_, hm⟩
  rintro ⟨q, px⟩ h1 ⟨q', px'⟩ h2 (rfl : q = q')
  rw [Option.some.inj (((hm q px).mp h1).symm.trans ((hm q px').mp h2))]

/-- A surface keeps every pixel it has under a pixel write to a pixel it has. -/
theorem Memory.Covers.setPixel {m : Memory} {w h : Nat} (hc : m.Covers w h) (p : Point) (px : Pixel) :
    (m.setPixel p px).Covers w h := by
  intro q hx hy
  by_cases hq : q = p
  · exact ⟨px, by rw [hq, Memory.pixel_setPixel_same]⟩
  · rw [Memory.pixel_setPixel_other m px hq]; exact hc q hx hy

/-! ### One bit of a pixel -/

theorem Pixel.sample_setSample_same (px : Pixel) (ch : Channel) (v : Byte) : (px.setSample ch v).sample ch = v := by
  cases ch <;> rfl

theorem Pixel.sample_setSample_other (px : Pixel) {ch ch' : Channel} (v : Byte) (h : ch' ≠ ch) :
    (px.setSample ch v).sample ch' = px.sample ch' := by
  cases ch <;> cases ch' <;> first | rfl | exact absurd rfl h

theorem Pixel.setSample_a (px : Pixel) (ch : Channel) (v : Byte) : (px.setSample ch v).a = px.a := by
  cases ch <;> rfl

/-- The masked sample of 43 R167, bit by bit. -/
theorem maskedSample_bit (v : Byte) (i j : Nat) (bit : Bool) (hi : i < 8) (hj : j < 8) :
    ((v &&& ~~~((1 : Byte) <<< i)) ||| ((if bit then (1 : Byte) else 0) <<< i)).getLsbD j =
      if j = i then bit else v.getLsbD j := by
  have h1 : ∀ k : Nat, (1#8).getLsbD k = decide (k = 0) := by
    intro k
    rw [BitVec.getLsbD_one]; simp
  by_cases hji : j = i
  · subst hji
    cases bit <;> simp [hj]
  · by_cases hlt : j < i
    · cases bit <;> simp [hj, hji, hlt]
    · have : j - i ≠ 0 := by omega
      cases bit <;> simp [hj, hji, hlt, this]

theorem Pixel.bit_setBit_same (px : Pixel) (ch : Channel) (i : Nat) (bit : Bool) (hi : i < 8) :
    (px.setBit ch i bit).bit ch i = bit := by
  rw [Pixel.bit, Pixel.setBit, Pixel.sample_setSample_same, maskedSample_bit _ _ _ _ hi hi, if_pos rfl]

theorem Pixel.bit_setBit_other (px : Pixel) (ch ch' : Channel) (i j : Nat) (bit : Bool) (hi : i < 8)
    (h : ch' ≠ ch ∨ j ≠ i) : (px.setBit ch i bit).bit ch' j = px.bit ch' j := by
  by_cases hch : ch' = ch
  · subst hch
    have hji : j ≠ i := h.resolve_left (fun e => e rfl)
    rw [Pixel.bit, Pixel.setBit, Pixel.sample_setSample_same, Pixel.bit]
    by_cases hj : j < 8
    · rw [maskedSample_bit _ _ _ _ hi hj, if_neg hji]
    · rw [BitVec.getLsbD_of_ge _ _ (by omega), BitVec.getLsbD_of_ge _ _ (by omega)]
  · rw [Pixel.bit, Pixel.setBit, Pixel.sample_setSample_other _ _ hch, Pixel.bit]

theorem Pixel.setBit_a (px : Pixel) (ch : Channel) (i : Nat) (bit : Bool) : (px.setBit ch i bit).a = px.a :=
  Pixel.setSample_a _ _ _

end Sys2Proof.Machine
end

