-- ==== Sys2Proof/Laws/Ops.lean ====
section
/-! SUPPORT. What the shared operations can answer, said once: responses, errors, the session guard, sequencing, register
writes, `KsBit`, `BcSeek`, `BcRead`, `BcWrite`. -/

namespace Sys2Proof.Machine

/-! ### Response words (30_encoding R91) -/

@[simp] theorem rspStatus_rspWord (st aux : Byte) (d : Word64) : rspStatus (rspWord st aux d) = st := by
  apply BitVec.eq_of_getLsbD_eq
  intro i hi
  simp only [rspStatus, rspWord, BitVec.getLsbD_extractLsb', BitVec.getLsbD_append]
  rw [if_neg (by omega), if_neg (by omega)]
  simp [hi, show 72 + i - 64 - 8 = i by omega]

@[simp] theorem rspAux_rspWord (st aux : Byte) (d : Word64) : rspAux (rspWord st aux d) = aux := by
  apply BitVec.eq_of_getLsbD_eq
  intro i hi
  simp only [rspAux, rspWord, BitVec.getLsbD_extractLsb', BitVec.getLsbD_append]
  simp [hi]

@[simp] theorem rspData_rspWord (st aux : Byte) (d : Word64) : rspData (rspWord st aux d) = d := by
  apply BitVec.eq_of_getLsbD_eq
  intro i hi
  simp only [rspData, rspWord, BitVec.getLsbD_extractLsb', BitVec.getLsbD_append]
  simp [hi]

@[simp] theorem Err.code_ne_zero (e : Err) : e.code ≠ 0#8 := by cases e <;> decide

theorem Err.code_le (e : Err) : e.code.toNat ≤ 6 := by cases e <;> decide

/-! ### The end of a command -/

/-- A command that ends in a next state has either returned or raised. -/
theorem Res.finish_next {r : Res Reply} {t : State} (h : r.finish = .next t) :
    (∃ v u, r = .done v u ∧ t = u.respond v.aux v.data) ∨ (∃ e u, r = .raised e u ∧ t = u.raise e) := by
  cases r with
  | done v u => exact .inl ⟨v, u, rfl, by simpa [Res.finish] using h.symm⟩
  | raised e u => exact .inr ⟨e, u, rfl, by simpa [Res.finish] using h.symm⟩
  | stuck f => cases h

/-- The session guard (60 R234). -/
theorem State.needing_next {s t : State} {flags : Bool} {body : Res Reply} (h : s.needing flags body = .next t) :
    (flags = true ∧ body.finish = .next t) ∨ (flags = false ∧ t = s.raise .notActive) := by
  cases flags with
  | true => exact .inl ⟨rfl, h⟩
  | false => exact .inr ⟨rfl, by simpa [State.needing] using h.symm⟩

@[simp] theorem State.needing_true (s : State) (body : Res Reply) : s.needing true body = body.finish := rfl

@[simp] theorem State.needing_false (s : State) (body : Res Reply) : s.needing false body = .next (s.raise .notActive) :=
  rfl

@[simp] theorem Res.finish_done (v : Reply) (s : State) : (Res.done v s).finish = .next (s.respond v.aux v.data) := rfl

@[simp] theorem Res.finish_raised (e : Err) (s : State) :
    (Res.raised e s : Res Reply).finish = .next (s.raise e) := rfl

@[simp] theorem Res.finish_stuck (f : Fault) : (Res.stuck f : Res Reply).finish = .fault f := rfl

section
variable {α β : Type} (k : α → State → Res β)

@[simp] theorem Res.andThen_done (v : α) (s : State) : (Res.done v s).andThen k = k v s := rfl

@[simp] theorem Res.andThen_raised (e : Err) (s : State) : (Res.raised e s : Res α).andThen k = .raised e s := rfl

@[simp] theorem Res.andThen_stuck (f : Fault) : (Res.stuck f : Res α).andThen k = .stuck f := rfl

end

@[simp] theorem Reply.ofData_aux (d : Word64) : (Reply.ofData d).aux = 0 := rfl

@[simp] theorem Reply.ofData_data (d : Word64) : (Reply.ofData d).data = d := rfl

/-! ### `KsBit` (41 R133) -/

theorem ksBit_ok {s : State} {i : Int} (h0 : 0 ≤ i) (h1 : i < Config.offsetLimit) :
    ksBit i s = .done (blockBit (s.refresh i.toNat).kgBlock i.toNat) (s.refresh i.toNat) := by
  rw [ksBit, if_neg]; omega

theorem ksBit_illegal {s : State} {i : Int} (h : i < 0 ∨ (Config.offsetLimit : Int) ≤ i) :
    ksBit i s = .raised .illegalOffset s := by
  rw [ksBit, if_pos h]

/-- Everything `KsBit` can do. -/
theorem ksBit_cases (i : Int) (s : State) :
    ((i < 0 ∨ (Config.offsetLimit : Int) ≤ i) ∧ ksBit i s = .raised .illegalOffset s) ∨
    (0 ≤ i ∧ i < Config.offsetLimit ∧
      ksBit i s = .done (blockBit (s.refresh i.toNat).kgBlock i.toNat) (s.refresh i.toNat)) := by
  by_cases h : i < 0 ∨ (Config.offsetLimit : Int) ≤ i
  · exact .inl ⟨h, ksBit_illegal h⟩
  · exact .inr ⟨by omega, by omega, ksBit_ok (by omega) (by omega)⟩

/-- While the cached block is that of the counter (10_state R33), the block after a refresh is that of the offset. -/
theorem State.refresh_cached {s : State} (hc : s.kgBlock = ksBlock s.key s.nonce s.kgCounter) (i : Nat) :
    (s.refresh i).kgBlock = ksBlock s.key s.nonce (counterOf i) ∧ (s.refresh i).kgCounter = counterOf i := by
  unfold State.refresh
  split
  · next h =>
    have : counterOf i = s.kgCounter := by
      rw [counterOf, h, BitVec.ofNat_toNat, BitVec.setWidth_eq]
    rw [this]; exact ⟨hc, rfl⟩
  · exact ⟨rfl, rfl⟩

/-- The bit `KsBit` returns is the pure keystream's (41 R133). -/
theorem refresh_bit {s : State} (hc : s.kgBlock = ksBlock s.key s.nonce s.kgCounter) (i : Nat) :
    blockBit (s.refresh i).kgBlock i = ks s.key s.nonce i := by
  rw [(State.refresh_cached hc i).1, ks]

/-! ### `BcSeek` (43 R164) -/

/-- Everything `BcSeek` can do. -/
theorem bcSeek_cases (n : Int) (mode : SeekMode) (s : State) :
    ((s.seekCandidate n mode).1 < 0 ∧ bcSeek n mode s = .raised (s.seekCandidate n mode).2 s) ∨
    (0 ≤ (s.seekCandidate n mode).1 ∧ (zext64 s.bcCapacity : Int) ≤ (s.seekCandidate n mode).1 ∧
      bcSeek n mode s = .raised .outOfBounds s) ∨
    (0 ≤ (s.seekCandidate n mode).1 ∧ (s.seekCandidate n mode).1 < (zext64 s.bcCapacity : Int) ∧
      bcSeek n mode s =
        .done (s.seekCandidate n mode).1 { s with bcPosition := word64OfInt (s.seekCandidate n mode).1 }) := by
  unfold bcSeek
  by_cases h : (s.seekCandidate n mode).1 < 0
  · exact .inl ⟨h, by simp [h]⟩
  · by_cases h' : (zext64 s.bcCapacity : Int) ≤ (s.seekCandidate n mode).1
    · exact .inr (.inl ⟨by omega, h', by simp [h, h']⟩)
    · exact .inr (.inr ⟨by omega, by omega, by simp [h, h']⟩)

/-! ### `BcRead` and `BcWrite` (43 R166, R167) -/

theorem State.atEnd_false_iff (s : State) :
    s.atEnd = false ↔ 0 ≤ sext64 s.bcPosition ∧ sext64 s.bcPosition < (zext64 s.bcCapacity : Int) := by
  simp only [State.atEnd, decide_eq_false_iff_not]; omega

/-- Everything fetching the addressed cell can do. -/
theorem State.fetchCell_cases (s : State) :
    (s.tell (sext64 s.bcPosition).toNat = none ∧ s.fetchCell = .stuck .cellUndefined) ∨
    (∃ c, s.tell (sext64 s.bcPosition).toNat = some c ∧ s.surface.pixel c.point = none ∧
      s.fetchCell = .stuck .pixelAbsent) ∨
    (∃ c px, s.tell (sext64 s.bcPosition).toNat = some c ∧ s.surface.pixel c.point = some px ∧
      s.fetchCell = .done (c, px) s) := by
  unfold State.fetchCell
  cases h : s.tell (sext64 s.bcPosition).toNat with
  | none => exact .inl ⟨rfl, rfl⟩
  | some c =>
    cases h' : s.surface.pixel c.point with
    | none => exact .inr (.inl ⟨c, rfl, h', by simp [h']⟩)
    | some px => exact .inr (.inr ⟨c, px, rfl, h', by simp [h']⟩)

theorem State.fetchCell_ok {s : State} {c : BitCell} {px : Pixel}
    (ht : s.tell (sext64 s.bcPosition).toNat = some c) (hp : s.surface.pixel c.point = some px) :
    s.fetchCell = .done (c, px) s := by
  simp [State.fetchCell, ht, hp]

/-- Everything `BcRead` can do. -/
theorem bcRead_cases (s : State) :
    (s.atEnd = true ∧ bcRead s = .raised .outOfBounds s) ∨
    (s.atEnd = false ∧ ∃ f, bcRead s = .stuck f) ∨
    (s.atEnd = false ∧ ∃ c px, s.tell (sext64 s.bcPosition).toNat = some c ∧ s.surface.pixel c.point = some px ∧
      bcRead s = .done (px.bit c.chan c.bit) s.advanceBc) := by
  cases h : s.atEnd with
  | true => exact .inl ⟨rfl, by simp [bcRead, h]⟩
  | false =>
    rcases s.fetchCell_cases with ⟨-, hf⟩ | ⟨c, -, -, hf⟩ | ⟨c, px, ht, hp, hf⟩
    · exact .inr (.inl ⟨rfl, _, by simp [bcRead, h, hf]; rfl⟩)
    · exact .inr (.inl ⟨rfl, _, by simp [bcRead, h, hf]; rfl⟩)
    · exact .inr (.inr ⟨rfl, c, px, ht, hp, by simp [bcRead, h, hf]⟩)

/-- Everything `BcWrite` can do. -/
theorem bcWrite_cases (bit : Bool) (s : State) :
    (s.atEnd = true ∧ bcWrite bit s = .raised .outOfBounds s) ∨
    (s.atEnd = false ∧ ∃ f, bcWrite bit s = .stuck f) ∨
    (s.atEnd = false ∧ ∃ c px, s.tell (sext64 s.bcPosition).toNat = some c ∧ s.surface.pixel c.point = some px ∧
      bcWrite bit s = .done () (s.storeCell c px bit)) := by
  cases h : s.atEnd with
  | true => exact .inl ⟨rfl, by simp [bcWrite, h]⟩
  | false =>
    rcases s.fetchCell_cases with ⟨-, hf⟩ | ⟨c, -, -, hf⟩ | ⟨c, px, ht, hp, hf⟩
    · exact .inr (.inl ⟨rfl, _, by simp [bcWrite, h, hf]; rfl⟩)
    · exact .inr (.inl ⟨rfl, _, by simp [bcWrite, h, hf]; rfl⟩)
    · exact .inr (.inr ⟨rfl, c, px, ht, hp, by simp [bcWrite, h, hf]⟩)

/-! ### Register writes (40 R120) -/

/-- `Tell` reads the table, the channels and the depth, and nothing else. -/
theorem State.tell_congr {s t : State} (h1 : s.ppPoints = t.ppPoints) (h2 : s.bcChans = t.bcChans)
    (h3 : s.bcBpc = t.bcBpc) (p : Nat) : s.tell p = t.tell p := by
  simp [State.tell, h1, h2, h3]

end Sys2Proof.Machine
end

