-- ==== Sys2Proof/Laws/Permutation.lean ====
section
/-! SUPPORT. The shuffle rearranges the row-major list, whatever the generator draws (42_pixel_permutation R153). -/

namespace Sys2Proof.Machine

theorem swapPoints_length (ps : List Point) (i j : Nat) : (swapPoints ps i j).length = ps.length := by
  unfold swapPoints; split <;> simp

/-- A swap rearranges the list. -/
theorem swapPoints_perm (ps : List Point) (i j : Nat) : (swapPoints ps i j).Perm ps := by
  unfold swapPoints
  split
  · next a b ha hb =>
    obtain ⟨hi, rfl⟩ := List.getElem?_eq_some_iff.mp ha
    obtain ⟨hj, rfl⟩ := List.getElem?_eq_some_iff.mp hb
    exact List.set_set_perm hi hj
  · exact List.Perm.refl _

theorem shuffle_perm (g : Prng) (i gen : Nat) (ps : List Point) : (shuffle g i gen ps).Perm ps := by
  induction i generalizing gen ps with
  | zero => exact List.Perm.refl _
  | succ i ih => exact (ih _ _).trans (swapPoints_perm _ _ _)

/-- The table is a rearrangement of the row-major list. -/
theorem generate_perm (g : Prng) (w h : Nat) (seed : Word64) : (generate g w h seed).Perm (rowMajor w h) :=
  shuffle_perm _ _ _ _

theorem rowMajor_length (w h : Nat) : (rowMajor w h).length = w * h := by simp [rowMajor]

theorem generate_length (g : Prng) (w h : Nat) (seed : Word64) : (generate g w h seed).length = w * h := by
  rw [(generate_perm g w h seed).length_eq, rowMajor_length]

/-- Entry `k` of the row-major list (42 R150). -/
theorem rowMajor_getElem? (w h k : Nat) (hk : k < w * h) :
    (rowMajor w h)[k]? = some ⟨BitVec.ofNat 32 (k % w), BitVec.ofNat 32 (k / w)⟩ := by
  simp [rowMajor, hk]

/-- The row-major list names exactly the coordinates of the grid. -/
theorem mem_rowMajor {w h : Nat} (hw : w < 2 ^ 32) (hh : h < 2 ^ 32) (p : Point) :
    p ∈ rowMajor w h ↔ p.x.toNat < w ∧ p.y.toNat < h := by
  simp only [rowMajor, List.mem_map, List.mem_range]
  constructor
  · rintro ⟨k, hk, rfl⟩
    have hw0 : 0 < w := Nat.pos_of_ne_zero fun e => by simp [e] at hk
    have h1 : k % w < w := Nat.mod_lt _ hw0
    have h2 : k / w < h := Nat.div_lt_of_lt_mul hk
    simp only [BitVec.toNat_ofNat]
    constructor
    · rw [Nat.mod_eq_of_lt (by omega)]; exact h1
    · rw [Nat.mod_eq_of_lt (by omega)]; exact h2
  · rintro ⟨hx, hy⟩
    refine ⟨p.y.toNat * w + p.x.toNat, ?_, ?_⟩
    · calc p.y.toNat * w + p.x.toNat < p.y.toNat * w + w := by omega
        _ = (p.y.toNat + 1) * w := by ring
        _ ≤ h * w := Nat.mul_le_mul_right w hy
        _ = w * h := Nat.mul_comm _ _
    · have hw0 : 0 < w := by omega
      have e1 : (p.y.toNat * w + p.x.toNat) % w = p.x.toNat := by
        rw [Nat.mul_comm, Nat.mul_add_mod, Nat.mod_eq_of_lt hx]
      have e2 : (p.y.toNat * w + p.x.toNat) / w = p.y.toNat := by
        rw [Nat.mul_comm, Nat.mul_add_div hw0, Nat.div_eq_of_lt hx, Nat.add_zero]
      rw [e1, e2, BitVec.ofNat_toNat, BitVec.ofNat_toNat, BitVec.setWidth_eq, BitVec.setWidth_eq]

/-- No coordinate is named twice. -/
theorem rowMajor_nodup {w h : Nat} (hw : w < 2 ^ 32) (hh : h < 2 ^ 32) : (rowMajor w h).Nodup := by
  refine (List.nodup_range).map_on ?_
  intro a ha b hb hab
  rw [List.mem_range] at ha hb
  have hw0 : 0 < w := Nat.pos_of_ne_zero fun e => by simp [e] at ha
  have ea : a / w < h := Nat.div_lt_of_lt_mul ha
  have eb : b / w < h := Nat.div_lt_of_lt_mul hb
  have ma := Nat.mod_lt a hw0
  have mb := Nat.mod_lt b hw0
  have h1 := congrArg (fun p => p.x.toNat) hab
  have h2 := congrArg (fun p => p.y.toNat) hab
  have lt32 : ∀ x, x < w ∨ x < h → x % 2 ^ 32 = x := fun x hx => Nat.mod_eq_of_lt (by omega)
  simp only [BitVec.toNat_ofNat] at h1 h2
  rw [lt32 _ (.inl ma), lt32 _ (.inl mb)] at h1
  rw [lt32 _ (.inr ea), lt32 _ (.inr eb)] at h2
  calc a = w * (a / w) + a % w := (Nat.div_add_mod a w).symm
    _ = w * (b / w) + b % w := by rw [h1, h2]
    _ = b := Nat.div_add_mod b w

theorem generate_nodup (g : Prng) {w h : Nat} (seed : Word64) (hw : w < 2 ^ 32) (hh : h < 2 ^ 32) :
    (generate g w h seed).Nodup :=
  (generate_perm g w h seed).nodup_iff.mpr (rowMajor_nodup hw hh)

theorem mem_generate (g : Prng) {w h : Nat} (seed : Word64) (hw : w < 2 ^ 32) (hh : h < 2 ^ 32) (p : Point) :
    p ∈ generate g w h seed ↔ p.x.toNat < w ∧ p.y.toNat < h :=
  (generate_perm g w h seed).mem_iff.trans (mem_rowMajor hw hh p)

end Sys2Proof.Machine
end

