-- ==== Sys2Proof/Laws/Exec.lean ====
section
/-! SUPPORT. One inversion lemma for each command: everything it can do when it answers a next state. The whole-machine
statements follow from these by cases, without unfolding a meaning again. -/

namespace Sys2Proof.Machine

variable {s t : State}

theorem execWrReg_next {r : Reg} {v : Word64} (h : execWrReg r v s = .next t) :
    (r.writable = false ∧ t = s.raise .illegalCommand) ∨
    (r.writable = true ∧ regLegal r v = false ∧ t = s.raise .configInvalid) ∨
    (r.writable = true ∧ regLegal r v = true ∧ t = ((s.writeReg r v).endSessions r).respond 0 0) := by
  unfold execWrReg at h
  cases hw : r.writable <;> cases hl : regLegal r v <;> simp [hw, hl] at h <;> simp [h]

theorem execRdReg_next {r : Reg} (h : execRdReg r s = .next t) : t = s.respond 0 (s.readReg r) := by
  simpa [execRdReg] using h.symm

theorem execKgInit_next (h : execKgInit s = .next t) :
    t = ({ s with kgOffset := 0, kgCounter := 0, kgBlock := ksBlock s.key s.nonce 0, kgActive := true }).respond 0 0 := by
  simpa [execKgInit] using h.symm

theorem execKgSeek_next {off : Word64} (h : execKgSeek off s = .next t) :
    (s.kgActive = false ∧ t = s.raise .notActive) ∨
    (s.kgActive = true ∧ sext64 off < 0 ∧ t = s.raise .illegalOffset) ∨
    (s.kgActive = true ∧ 0 ≤ sext64 off ∧ t = ({ s with kgOffset := off }).respond 0 off) := by
  rcases State.needing_next h with ⟨ha, h⟩ | ⟨ha, h⟩
  · by_cases hn : sext64 off < 0
    · exact .inr (.inl ⟨ha, hn, by simpa [kgSeek, hn] using h.symm⟩)
    · exact .inr (.inr ⟨ha, by omega, by simpa [kgSeek, hn] using h.symm⟩)
  · exact .inl ⟨ha, h⟩

theorem execKgBitAt_next {off : Word64} (h : execKgBitAt off s = .next t) :
    (s.kgActive = false ∧ t = s.raise .notActive) ∨
    (s.kgActive = true ∧ t = s.raise .illegalOffset) ∨
    (s.kgActive = true ∧ 0 ≤ sext64 off ∧ sext64 off < Config.offsetLimit ∧
      t = (s.refresh (sext64 off).toNat).respond 0
        (bitData (blockBit (s.refresh (sext64 off).toNat).kgBlock (sext64 off).toNat))) := by
  rcases State.needing_next h with ⟨ha, h⟩ | ⟨ha, h⟩
  · rcases ksBit_cases (sext64 off) s with ⟨-, hk⟩ | ⟨h0, h1, hk⟩
    · exact .inr (.inl ⟨ha, by simpa [kgBitAt, hk] using h.symm⟩)
    · exact .inr (.inr ⟨ha, h0, h1, by simpa [kgBitAt, hk] using h.symm⟩)
  · exact .inl ⟨ha, h⟩

theorem execKgXorBit_next {bit : Bool} (h : execKgXorBit bit s = .next t) :
    (s.kgActive = false ∧ t = s.raise .notActive) ∨
    (s.kgActive = true ∧ t = s.raise .illegalOffset) ∨
    (s.kgActive = true ∧ 0 ≤ sext64 s.kgOffset ∧ sext64 s.kgOffset < Config.offsetLimit ∧
      t = (s.refresh (sext64 s.kgOffset).toNat).advanceKg.respond 0
        (bitData (bit ^^ blockBit (s.refresh (sext64 s.kgOffset).toNat).kgBlock (sext64 s.kgOffset).toNat))) := by
  rcases State.needing_next h with ⟨ha, h⟩ | ⟨ha, h⟩
  · rcases ksBit_cases (sext64 s.kgOffset) s with ⟨-, hk⟩ | ⟨h0, h1, hk⟩
    · exact .inr (.inl ⟨ha, by simpa [kgXorBit, hk] using h.symm⟩)
    · exact .inr (.inr ⟨ha, h0, h1, by simpa [kgXorBit, hk] using h.symm⟩)
  · exact .inl ⟨ha, h⟩

theorem execPpGen_next (h : execPpGen s = .next t) :
    (Config.pointsMax < s.width.toNat * s.height.toNat ∧
      t = ({ s with bcActive := false, ppValid := false }).raise .configInvalid) ∨
    (s.width.toNat * s.height.toNat ≤ Config.pointsMax ∧
      t = ({ s with
          bcActive := false, ppW := s.width, ppH := s.height, ppValid := true
          ppPoints := generate Config.prng s.width.toNat s.height.toNat s.seed }).respond 0
        (BitVec.ofNat 64 (s.width.toNat * s.height.toNat))) := by
  by_cases hn : Config.pointsMax < s.width.toNat * s.height.toNat
  · exact .inl ⟨hn, by simpa [execPpGen, ppGen, hn] using h.symm⟩
  · exact .inr ⟨by omega, by simpa [execPpGen, ppGen, hn] using h.symm⟩

theorem execPpPoint_next {k : Word64} (h : execPpPoint k s = .next t) :
    (s.ppValid = false ∧ t = s.raise .notActive) ∨
    (s.ppValid = true ∧ t = s.raise .outOfBounds) ∨
    (s.ppValid = true ∧ ∃ p, s.ppPoints[zext64 k]? = some p ∧ t = s.respond 0 p.pack) := by
  rcases State.needing_next h with ⟨ha, h⟩ | ⟨ha, h⟩
  · by_cases hn : s.ppW.toNat * s.ppH.toNat ≤ zext64 k
    · exact .inr (.inl ⟨ha, by simpa [ppPoint, hn] using h.symm⟩)
    · cases hp : s.ppPoints[zext64 k]? with
      | none => simp [ppPoint, hn, hp] at h
      | some p => exact .inr (.inr ⟨ha, p, rfl, by simpa [ppPoint, hn, hp] using h.symm⟩)
  · exact .inl ⟨ha, h⟩

theorem execBcInit_next (h : execBcInit s = .next t) :
    (s.ppValid = false ∧ t = s.raise .notActive) ∨
    (s.ppValid = true ∧ t = s.initCursor.respond 0 s.initCursor.bcCapacity) := by
  rcases State.needing_next h with ⟨ha, h⟩ | ⟨ha, h⟩
  · exact .inr ⟨ha, by simpa using h.symm⟩
  · exact .inl ⟨ha, h⟩

theorem execBcSeek_next {n : Word64} {mode : SeekMode} (h : execBcSeek n mode s = .next t) :
    (s.bcActive = false ∧ t = s.raise .notActive) ∨
    (s.bcActive = true ∧ (t = s.raise .outOfBounds ∨ t = s.raise .invalidSeekArgument)) ∨
    (s.bcActive = true ∧ ∃ c : Int, c = (s.seekCandidate (sext64 n) mode).1 ∧ 0 ≤ c ∧ c < (zext64 s.bcCapacity : Int) ∧
      t = ({ s with bcPosition := word64OfInt c }).respond 0 (word64OfInt c)) := by
  rcases State.needing_next h with ⟨ha, h⟩ | ⟨ha, h⟩
  · rcases bcSeek_cases (sext64 n) mode s with ⟨-, hk⟩ | ⟨-, -, hk⟩ | ⟨h0, h1, hk⟩
    · refine .inr (.inl ⟨ha, ?_⟩)
      have ht : t = s.raise (s.seekCandidate (sext64 n) mode).2 := by simpa [hk] using h.symm
      cases mode
      · exact .inl ht
      · exact .inr ht
      · exact .inr ht
    · exact .inr (.inl ⟨ha, .inl (by simpa [hk] using h.symm)⟩)
    · exact .inr (.inr ⟨ha, _, rfl, h0, h1, by simpa [hk] using h.symm⟩)
  · exact .inl ⟨ha, h⟩

theorem execBcReadBit_next (h : execBcReadBit s = .next t) :
    (s.bcActive = false ∧ t = s.raise .notActive) ∨
    (s.bcActive = true ∧ s.atEnd = true ∧ t = s.raise .outOfBounds) ∨
    (s.bcActive = true ∧ s.atEnd = false ∧ ∃ c px, s.tell (sext64 s.bcPosition).toNat = some c ∧
      s.surface.pixel c.point = some px ∧ t = s.advanceBc.respond 0 (bitData (px.bit c.chan c.bit))) := by
  rcases State.needing_next h with ⟨ha, h⟩ | ⟨ha, h⟩
  · rcases bcRead_cases s with ⟨he, hk⟩ | ⟨-, f, hk⟩ | ⟨he, c, px, hc, hp, hk⟩
    · exact .inr (.inl ⟨ha, he, by simpa [hk] using h.symm⟩)
    · simp [hk] at h
    · exact .inr (.inr ⟨ha, he, c, px, hc, hp, by simpa [hk] using h.symm⟩)
  · exact .inl ⟨ha, h⟩

theorem execBcWriteBit_next {bit : Bool} (h : execBcWriteBit bit s = .next t) :
    (s.bcActive = false ∧ t = s.raise .notActive) ∨
    (s.bcActive = true ∧ s.atEnd = true ∧ t = s.raise .outOfBounds) ∨
    (s.bcActive = true ∧ s.atEnd = false ∧ ∃ c px, s.tell (sext64 s.bcPosition).toNat = some c ∧
      s.surface.pixel c.point = some px ∧ t = (s.storeCell c px bit).respond 0 0) := by
  rcases State.needing_next h with ⟨ha, h⟩ | ⟨ha, h⟩
  · rcases bcWrite_cases bit s with ⟨he, hk⟩ | ⟨-, f, hk⟩ | ⟨he, c, px, hc, hp, hk⟩
    · exact .inr (.inl ⟨ha, he, by simpa [hk] using h.symm⟩)
    · simp [hk] at h
    · exact .inr (.inr ⟨ha, he, c, px, hc, hp, by simpa [hk] using h.symm⟩)
  · exact .inl ⟨ha, h⟩

theorem execBcTell_next {p : Word64} (h : execBcTell p s = .next t) :
    (s.bcActive = false ∧ t = s.raise .notActive) ∨
    (s.bcActive = true ∧ t = s.raise .outOfBounds) ∨
    (s.bcActive = true ∧ ∃ c, s.tell (sext64 p).toNat = some c ∧ t = s.respond c.aux c.point.pack) := by
  rcases State.needing_next h with ⟨ha, h⟩ | ⟨ha, h⟩
  · by_cases hn : sext64 p < 0 ∨ (zext64 s.bcCapacity : Int) ≤ sext64 p
    · exact .inr (.inl ⟨ha, by simpa [bcTell, hn] using h.symm⟩)
    · cases hc : s.tell (sext64 p).toNat with
      | none => simp [bcTell, hn, hc] at h
      | some c => exact .inr (.inr ⟨ha, c, rfl, by simpa [bcTell, hn, hc] using h.symm⟩)
  · exact .inl ⟨ha, h⟩

theorem execCmSeek_next {n : Word64} {mode : SeekMode} (h : execCmSeek n mode s = .next t) :
    (s.cmActive = false ∧ t = s.raise .notActive) ∨
    (s.cmActive = true ∧ (t = s.raise .outOfBounds ∨ t = s.raise .invalidSeekArgument)) ∨
    (s.cmActive = true ∧ ∃ c : Int, c = (s.seekCandidate (sext64 n) mode).1 ∧ 0 ≤ c ∧ c < (zext64 s.bcCapacity : Int) ∧
      t = ({ s with bcPosition := word64OfInt c, kgOffset := word64OfInt c }).respond 0 (word64OfInt c)) := by
  rcases State.needing_next h with ⟨ha, h⟩ | ⟨ha, h⟩
  · rcases bcSeek_cases (sext64 n) mode s with ⟨-, hk⟩ | ⟨-, -, hk⟩ | ⟨h0, h1, hk⟩
    · refine .inr (.inl ⟨ha, ?_⟩)
      have ht : t = s.raise (s.seekCandidate (sext64 n) mode).2 := by simpa [hk] using h.symm
      cases mode
      · exact .inl ht
      · exact .inr ht
      · exact .inr ht
    · exact .inr (.inl ⟨ha, .inl (by simpa [hk] using h.symm)⟩)
    · exact .inr (.inr ⟨ha, _, rfl, h0, h1, by simpa [hk] using h.symm⟩)
  · exact .inl ⟨ha, h⟩

theorem execCmReadBit_next (h : execCmReadBit s = .next t) :
    (s.cmActive = false ∧ t = s.raise .notActive) ∨
    (s.cmActive = true ∧ s.atEnd = true ∧ t = s.raise .outOfBounds) ∨
    (s.cmActive = true ∧ s.atEnd = false ∧ t = s.advanceBc.raise .illegalOffset) ∨
    (s.cmActive = true ∧ s.atEnd = false ∧ 0 ≤ sext64 s.kgOffset ∧ sext64 s.kgOffset < Config.offsetLimit ∧
      ∃ c px, s.tell (sext64 s.bcPosition).toNat = some c ∧ s.surface.pixel c.point = some px ∧
        t = (s.advanceBc.refresh (sext64 s.kgOffset).toNat).advanceKg.respond 0
          (bitData (px.bit c.chan c.bit ^^
            blockBit (s.advanceBc.refresh (sext64 s.kgOffset).toNat).kgBlock (sext64 s.kgOffset).toNat))) := by
  rcases State.needing_next h with ⟨ha, h⟩ | ⟨ha, h⟩
  · rcases bcRead_cases s with ⟨he, hk⟩ | ⟨-, f, hk⟩ | ⟨he, c, px, hc, hp, hk⟩
    · exact .inr (.inl ⟨ha, he, by simpa [hk] using h.symm⟩)
    · simp [hk] at h
    · rcases ksBit_cases (sext64 s.kgOffset) s.advanceBc with ⟨-, hb⟩ | ⟨h0, h1, hb⟩
      · exact .inr (.inr (.inl ⟨ha, he, by simpa [hk, hb] using h.symm⟩))
      · exact .inr (.inr (.inr ⟨ha, he, h0, h1, c, px, hc, hp, by simpa [hk, hb] using h.symm⟩))
  · exact .inl ⟨ha, h⟩

theorem execCmWriteBit_next {bit : Bool} (h : execCmWriteBit bit s = .next t) :
    (s.cmActive = false ∧ t = s.raise .notActive) ∨
    (s.cmActive = true ∧ t = s.raise .illegalOffset) ∨
    (s.cmActive = true ∧ 0 ≤ sext64 s.kgOffset ∧ sext64 s.kgOffset < Config.offsetLimit ∧
      ((s.atEnd = true ∧ t = (s.refresh (sext64 s.kgOffset).toNat).advanceKg.raise .outOfBounds) ∨
       (s.atEnd = false ∧ ∃ c px, s.tell (sext64 s.bcPosition).toNat = some c ∧ s.surface.pixel c.point = some px ∧
        t = ((s.refresh (sext64 s.kgOffset).toNat).advanceKg.storeCell c px
          (bit ^^ blockBit (s.refresh (sext64 s.kgOffset).toNat).kgBlock (sext64 s.kgOffset).toNat)).respond 0 0))) := by
  rcases State.needing_next h with ⟨ha, h⟩ | ⟨ha, h⟩
  · rcases ksBit_cases (sext64 s.kgOffset) s with ⟨-, hb⟩ | ⟨h0, h1, hb⟩
    · exact .inr (.inl ⟨ha, by simpa [hb] using h.symm⟩)
    · refine .inr (.inr ⟨ha, h0, h1, ?_⟩)
      have hat : (s.refresh (sext64 s.kgOffset).toNat).advanceKg.atEnd = s.atEnd := by simp [State.atEnd]
      have htell : ∀ p, (s.refresh (sext64 s.kgOffset).toNat).advanceKg.tell p = s.tell p := fun p =>
        State.tell_congr (by simp) (by simp) (by simp) p
      rcases bcWrite_cases (bit ^^ blockBit (s.refresh (sext64 s.kgOffset).toNat).kgBlock (sext64 s.kgOffset).toNat)
          (s.refresh (sext64 s.kgOffset).toNat).advanceKg with ⟨he, hk⟩ | ⟨-, f, hk⟩ | ⟨he, c, px, hc, hp, hk⟩
      · exact .inl ⟨by rw [← hat, he], by simpa [hb, hk] using h.symm⟩
      · simp [hb, hk] at h
      · refine .inr ⟨by rw [← hat, he], c, px, ?_, ?_, ?_⟩
        · simpa [htell] using hc
        · simpa using hp
        · simpa [hb, hk] using h.symm
  · exact .inl ⟨ha, h⟩

end Sys2Proof.Machine
end

