-- ==== Sys2Proof/Laws/Cursor.lean ====
section
/-! SUPPORT. Fields read as numbers, the shape of a legal channel configuration, and what the invariant says of an active
cursor: its capacity, and the cell of every position below it. -/

namespace Sys2Proof.Machine

/-! ### Concatenated fields as numbers -/

theorem toNat_append_eq {n m : Nat} (x : BitVec n) (y : BitVec m) :
    (x ++ y).toNat = x.toNat * 2 ^ m + y.toNat := by
  rw [BitVec.toNat_append, ← Nat.shiftLeft_add_eq_or_of_lt y.isLt, Nat.shiftLeft_eq]

/-- `STATUS` as a number (10_state R29). -/
theorem State.statusWord_toNat (s : State) :
    s.statusWord.toNat = s.kgActive.toNat + 2 * s.ppValid.toNat + 4 * s.bcActive.toNat + 256 * s.err.toNat := by
  simp only [State.statusWord, flagBit, toNat_append_eq, BitVec.toNat_ofBool]
  rw [show (0 : BitVec 48).toNat = 0 from rfl, show (0 : BitVec 5).toNat = 0 from rfl]
  omega

/-- A packed point as a number (30_encoding R91). -/
theorem Point.pack_toNat (p : Point) : p.pack.toNat = p.y.toNat * 2 ^ 32 + p.x.toNat := toNat_append_eq _ _

/-! ### The channel configuration (10_state R28) -/

/-- What a legal value says: 1 to 3 distinct channels, as many as `count` says, and 1 to 7 bits of each. -/
theorem cfgLegal_shape {c : BitVec 11} (h : cfgLegal c = true) :
    1 ≤ (cfgChannels c).length ∧ (cfgChannels c).length ≤ 3 ∧ (cfgChannels c).Nodup ∧ 1 ≤ (cfgBpc c).toNat ∧
      (cfgBpc c).toNat ≤ 7 ∧ cfgCount c = (cfgChannels c).length := by
  revert c; decide +kernel

/-! ### The cursor in a state that meets the invariant -/

variable {s : State}

theorem State.Inv.table_length (hi : s.Inv) (hv : s.ppValid = true) : s.ppPoints.length = s.ppW.toNat * s.ppH.toNat := by
  rw [hi.ppTable hv, generate_length]

/-- The channels and the depth of an active cursor. -/
theorem State.Inv.cursor_shape (hi : s.Inv) (ha : s.bcActive = true) :
    1 ≤ s.bcChans.length ∧ s.bcChans.length ≤ 3 ∧ s.bcChans.Nodup ∧ 1 ≤ s.bcBpc.toNat ∧ s.bcBpc.toNat ≤ 7 := by
  obtain ⟨hc, hb⟩ := hi.bcConfig ha
  obtain ⟨h1, h2, h3, h4, h5, -⟩ := cfgLegal_shape hi.cfg
  rw [hc, hb]; exact ⟨h1, h2, h3, h4, h5⟩

/-- The capacity counts the cells of the table's points, and is far below `2^63` (10_state R36). -/
theorem State.Inv.capacity_eq (hi : s.Inv) (ha : s.bcActive = true) :
    s.bcCapacity.toNat = s.ppPoints.length * (s.bcChans.length * s.bcBpc.toNat) ∧ s.bcCapacity.toNat < 2 ^ 37 := by
  have hv := hi.bcNeedsPp ha
  have hl := hi.table_length hv
  have hn := hi.ppSize hv
  obtain ⟨-, h2, -, -, h5⟩ := hi.cursor_shape ha
  have hc := hi.bcCapacity ha
  rw [← hl] at hc hn
  rw [hc, Nat.mul_assoc]
  refine ⟨rfl, ?_⟩
  have h6 : s.bcChans.length * s.bcBpc.toNat ≤ 3 * 7 := Nat.mul_le_mul h2 h5
  have h7 : s.ppPoints.length * (s.bcChans.length * s.bcBpc.toNat) ≤ 2 ^ 32 * (3 * 7) := Nat.mul_le_mul hn h6
  omega

/-- A position below the capacity has a cell. -/
theorem State.Inv.tell_isSome (hi : s.Inv) (ha : s.bcActive = true) {p : Nat} (hp : p < s.bcCapacity.toNat) :
    ∃ point chan, s.ppPoints[p / (s.bcChans.length * s.bcBpc.toNat)]? = some point ∧
      s.bcChans[p / s.bcBpc.toNat % s.bcChans.length]? = some chan ∧
      s.tell p = some ⟨point, chan, p % s.bcBpc.toNat⟩ := by
  obtain ⟨h1, -, -, h4, -⟩ := hi.cursor_shape ha
  rw [(hi.capacity_eq ha).1] at hp
  have hk : p / (s.bcChans.length * s.bcBpc.toNat) < s.ppPoints.length :=
    Nat.div_lt_of_lt_mul (by rw [Nat.mul_comm]; exact hp)
  have hc : p / s.bcBpc.toNat % s.bcChans.length < s.bcChans.length := Nat.mod_lt _ (by omega)
  refine ⟨_, _, List.getElem?_eq_getElem hk, List.getElem?_eq_getElem hc, ?_⟩
  simp [State.tell, hk, hc]

/-- The cell of a position is one of the table's, the cursor's channels' and the depth's (20_memory R73). -/
theorem State.Inv.tell_in_range (hi : s.Inv) (ha : s.bcActive = true) {p : Nat} {c : BitCell} (ht : s.tell p = some c) :
    c.point.x.toNat < s.ppW.toNat ∧ c.point.y.toNat < s.ppH.toNat ∧ c.chan ∈ s.bcChans ∧ c.bit < s.bcBpc.toNat := by
  obtain ⟨-, -, -, h4, -⟩ := hi.cursor_shape ha
  unfold State.tell at ht
  split at ht
  · next point chan h1 h2 =>
    cases ht
    have hm := List.mem_of_getElem? h1
    rw [hi.ppTable (hi.bcNeedsPp ha)] at hm
    obtain ⟨hx, hy⟩ := (mem_generate _ _ s.ppW.isLt s.ppH.isLt _).mp hm
    exact ⟨hx, hy, List.mem_of_getElem? h2, Nat.mod_lt _ (by omega)⟩
  · cases ht

theorem State.Inv.table_nodup (hi : s.Inv) (hv : s.ppValid = true) : s.ppPoints.Nodup := by
  rw [hi.ppTable hv]; exact generate_nodup _ _ s.ppW.isLt s.ppH.isLt

/-- The bit commands find their cell below the capacity (43 R166, R167). -/
theorem State.Inv.position (hi : s.Inv) (ha : s.bcActive = true) :
    sext64 s.bcPosition = (s.bcPosition.toNat : Int) ∧ s.bcPosition.toNat ≤ s.bcCapacity.toNat := by
  obtain ⟨h0, h1⟩ := hi.bcPosition ha
  have h2 := (hi.capacity_eq ha).2
  simp only [sext64, zext64] at *
  have h3 := BitVec.toInt_eq_toNat_cond s.bcPosition
  have h4 := s.bcPosition.isLt
  split at h3 <;> omega

end Sys2Proof.Machine
end

