-- ==== Sys2Proof/Laws/PerInstr.lean ====
section
/-! SUPPORT. Per-instruction families: MatchesRow (30_encoding R94: the word of every well-formed command satisfies the mask
and match of its own row and the row's further condition). -/

namespace Sys2Proof.Laws.MatchesRow

/-- The word of a well-formed command satisfies the row of R94 of its own opcode. -/
def Statement (i : Instr) : Prop :=
  WellFormed i = true → encode i &&& i.opcode.mask = i.opcode.pattern ∧ i.opcode.further (encode i) = true

/-- Masking is field by field. -/
theorem cwOf_and (a b c d : Byte) (v w : Word64) : cwOf a b v &&& cwOf c d w = cwOf (a &&& c) (b &&& d) (v &&& w) := by
  apply BitVec.eq_of_getLsbD_eq
  intro i _
  simp only [cwOf, BitVec.getLsbD_and, BitVec.getLsbD_append]
  split
  · rfl
  · split <;> rfl

/-- A row's test on an encoded command, field by field. -/
theorem masked {a b c d : Byte} {v w : Word64} {mask pattern : CmdWord} {e f : Byte} {x : Word64}
    (hm : mask = cwOf c d w) (hp : pattern = cwOf e f x) (h1 : a &&& c = e) (h2 : b &&& d = f) (h3 : v &&& w = x) :
    cwOf a b v &&& mask = pattern := by
  rw [hm, hp, cwOf_and, h1, h2, h3]

/-- The modifier of an encoded word. -/
theorem mod_cwOf (a b : Byte) (v : Word64) : (cwOf a b v).extractLsb' 64 8 = b := by
  apply BitVec.eq_of_getLsbD_eq
  intro i hi
  simp only [cwOf, BitVec.getLsbD_extractLsb', BitVec.getLsbD_append]
  simp [hi]

/-- The mode bits of an encoded word. -/
theorem mode_cwOf (a b : Byte) (v : Word64) : (cwOf a b v).extractLsb' 64 2 = b.extractLsb' 0 2 := by
  apply BitVec.eq_of_getLsbD_eq
  intro i hi
  simp only [cwOf, BitVec.getLsbD_extractLsb', BitVec.getLsbD_append]
  simp [hi, show i < 8 by omega]

theorem wrReg (reg : Reg) (value : Word64) : Statement (.wrReg reg value) := by
  intro hw
  refine ⟨masked (by decide : Opcode.wrReg.mask = cwOf 0xFF 0 (0))
    (by decide : Opcode.wrReg.pattern = cwOf Opcode.wrReg.code 0 0) (by decide : Opcode.wrReg.code &&& 0xFF = Opcode.wrReg.code) ?_ ?_, ?_⟩
  · simp
  · simp [Instr.opdField]
  · simp only [Opcode.further, Instr.opcode, encode, mod_cwOf, Instr.modByte]
    cases reg <;> first | decide | simp [WellFormed, Reg.writable] at hw

theorem rdReg (reg : Reg) : Statement (.rdReg reg) := by
  intro hw
  refine ⟨masked (by decide : Opcode.rdReg.mask = cwOf 0xFF 0 (BitVec.allOnes 64))
    (by decide : Opcode.rdReg.pattern = cwOf Opcode.rdReg.code 0 0) (by decide : Opcode.rdReg.code &&& 0xFF = Opcode.rdReg.code) ?_ ?_, ?_⟩
  · simp
  · simp [Instr.opdField]
  · simp only [Opcode.further, Instr.opcode, encode, mod_cwOf, Instr.modByte]
    cases reg <;> decide

theorem kgInit : Statement .kgInit := by
  intro hw
  refine ⟨masked (by decide : Opcode.kgInit.mask = cwOf 0xFF 0xFF (BitVec.allOnes 64))
    (by decide : Opcode.kgInit.pattern = cwOf Opcode.kgInit.code 0 0) (by decide : Opcode.kgInit.code &&& 0xFF = Opcode.kgInit.code) ?_ ?_, ?_⟩
  · exact (by decide : (0 : Byte) &&& 0xFF = 0)
  · simp [Instr.opdField]
  · rfl

theorem kgSeek (off : Word64) : Statement (.kgSeek off) := by
  intro hw
  refine ⟨masked (by decide : Opcode.kgSeek.mask = cwOf 0xFF 0xFF (0))
    (by decide : Opcode.kgSeek.pattern = cwOf Opcode.kgSeek.code 0 0) (by decide : Opcode.kgSeek.code &&& 0xFF = Opcode.kgSeek.code) ?_ ?_, ?_⟩
  · exact (by decide : (0 : Byte) &&& 0xFF = 0)
  · simp [Instr.opdField]
  · rfl

theorem kgBitAt (off : Word64) : Statement (.kgBitAt off) := by
  intro hw
  refine ⟨masked (by decide : Opcode.kgBitAt.mask = cwOf 0xFF 0xFF (0))
    (by decide : Opcode.kgBitAt.pattern = cwOf Opcode.kgBitAt.code 0 0) (by decide : Opcode.kgBitAt.code &&& 0xFF = Opcode.kgBitAt.code) ?_ ?_, ?_⟩
  · exact (by decide : (0 : Byte) &&& 0xFF = 0)
  · simp [Instr.opdField]
  · rfl

theorem kgXorBit (bit : Bool) : Statement (.kgXorBit bit) := by
  intro hw
  refine ⟨masked (by decide : Opcode.kgXorBit.mask = cwOf 0xFF 0xFE (BitVec.allOnes 64))
    (by decide : Opcode.kgXorBit.pattern = cwOf Opcode.kgXorBit.code 0 0) (by decide : Opcode.kgXorBit.code &&& 0xFF = Opcode.kgXorBit.code) ?_ ?_, ?_⟩
  · cases bit <;> decide
  · simp [Instr.opdField]
  · rfl

theorem ppGen : Statement .ppGen := by
  intro hw
  refine ⟨masked (by decide : Opcode.ppGen.mask = cwOf 0xFF 0xFF (BitVec.allOnes 64))
    (by decide : Opcode.ppGen.pattern = cwOf Opcode.ppGen.code 0 0) (by decide : Opcode.ppGen.code &&& 0xFF = Opcode.ppGen.code) ?_ ?_, ?_⟩
  · exact (by decide : (0 : Byte) &&& 0xFF = 0)
  · simp [Instr.opdField]
  · rfl

theorem ppPoint (k : Word64) : Statement (.ppPoint k) := by
  intro hw
  refine ⟨masked (by decide : Opcode.ppPoint.mask = cwOf 0xFF 0xFF (0))
    (by decide : Opcode.ppPoint.pattern = cwOf Opcode.ppPoint.code 0 0) (by decide : Opcode.ppPoint.code &&& 0xFF = Opcode.ppPoint.code) ?_ ?_, ?_⟩
  · exact (by decide : (0 : Byte) &&& 0xFF = 0)
  · simp [Instr.opdField]
  · rfl

theorem bcInit : Statement .bcInit := by
  intro hw
  refine ⟨masked (by decide : Opcode.bcInit.mask = cwOf 0xFF 0xFF (BitVec.allOnes 64))
    (by decide : Opcode.bcInit.pattern = cwOf Opcode.bcInit.code 0 0) (by decide : Opcode.bcInit.code &&& 0xFF = Opcode.bcInit.code) ?_ ?_, ?_⟩
  · exact (by decide : (0 : Byte) &&& 0xFF = 0)
  · simp [Instr.opdField]
  · rfl

theorem bcSeek (n : Word64) (mode : SeekMode) : Statement (.bcSeek n mode) := by
  intro hw
  refine ⟨masked (by decide : Opcode.bcSeek.mask = cwOf 0xFF 0xFC (0))
    (by decide : Opcode.bcSeek.pattern = cwOf Opcode.bcSeek.code 0 0) (by decide : Opcode.bcSeek.code &&& 0xFF = Opcode.bcSeek.code) ?_ ?_, ?_⟩
  · exact (by cases mode <;> decide : mode.code &&& 0xFC = 0)
  · simp [Instr.opdField]
  · simp only [Opcode.further, Instr.opcode, encode, mode_cwOf, Instr.modByte]
    cases mode <;> decide

theorem bcReadBit : Statement .bcReadBit := by
  intro hw
  refine ⟨masked (by decide : Opcode.bcReadBit.mask = cwOf 0xFF 0xFF (BitVec.allOnes 64))
    (by decide : Opcode.bcReadBit.pattern = cwOf Opcode.bcReadBit.code 0 0) (by decide : Opcode.bcReadBit.code &&& 0xFF = Opcode.bcReadBit.code) ?_ ?_, ?_⟩
  · exact (by decide : (0 : Byte) &&& 0xFF = 0)
  · simp [Instr.opdField]
  · rfl

theorem bcWriteBit (bit : Bool) : Statement (.bcWriteBit bit) := by
  intro hw
  refine ⟨masked (by decide : Opcode.bcWriteBit.mask = cwOf 0xFF 0xFE (BitVec.allOnes 64))
    (by decide : Opcode.bcWriteBit.pattern = cwOf Opcode.bcWriteBit.code 0 0) (by decide : Opcode.bcWriteBit.code &&& 0xFF = Opcode.bcWriteBit.code) ?_ ?_, ?_⟩
  · cases bit <;> decide
  · simp [Instr.opdField]
  · rfl

theorem bcTell (p : Word64) : Statement (.bcTell p) := by
  intro hw
  refine ⟨masked (by decide : Opcode.bcTell.mask = cwOf 0xFF 0xFF (0))
    (by decide : Opcode.bcTell.pattern = cwOf Opcode.bcTell.code 0 0) (by decide : Opcode.bcTell.code &&& 0xFF = Opcode.bcTell.code) ?_ ?_, ?_⟩
  · exact (by decide : (0 : Byte) &&& 0xFF = 0)
  · simp [Instr.opdField]
  · rfl

theorem cmSeek (n : Word64) (mode : SeekMode) : Statement (.cmSeek n mode) := by
  intro hw
  refine ⟨masked (by decide : Opcode.cmSeek.mask = cwOf 0xFF 0xFC (0))
    (by decide : Opcode.cmSeek.pattern = cwOf Opcode.cmSeek.code 0 0) (by decide : Opcode.cmSeek.code &&& 0xFF = Opcode.cmSeek.code) ?_ ?_, ?_⟩
  · exact (by cases mode <;> decide : mode.code &&& 0xFC = 0)
  · simp [Instr.opdField]
  · simp only [Opcode.further, Instr.opcode, encode, mode_cwOf, Instr.modByte]
    cases mode <;> decide

theorem cmReadBit : Statement .cmReadBit := by
  intro hw
  refine ⟨masked (by decide : Opcode.cmReadBit.mask = cwOf 0xFF 0xFF (BitVec.allOnes 64))
    (by decide : Opcode.cmReadBit.pattern = cwOf Opcode.cmReadBit.code 0 0) (by decide : Opcode.cmReadBit.code &&& 0xFF = Opcode.cmReadBit.code) ?_ ?_, ?_⟩
  · exact (by decide : (0 : Byte) &&& 0xFF = 0)
  · simp [Instr.opdField]
  · rfl

theorem cmWriteBit (bit : Bool) : Statement (.cmWriteBit bit) := by
  intro hw
  refine ⟨masked (by decide : Opcode.cmWriteBit.mask = cwOf 0xFF 0xFE (BitVec.allOnes 64))
    (by decide : Opcode.cmWriteBit.pattern = cwOf Opcode.cmWriteBit.code 0 0) (by decide : Opcode.cmWriteBit.code &&& 0xFF = Opcode.cmWriteBit.code) ?_ ?_, ?_⟩
  · cases bit <;> decide
  · simp [Instr.opdField]
  · rfl

end Sys2Proof.Laws.MatchesRow
end

