-- ==== Sys2Proof/Laws/Decode.lean ====
section
/-! SUPPORT. The fields of command words, the tables of codes, and each operand format read back. -/

namespace Sys2Proof

/-! ### Fields -/

@[simp] theorem cwOpcode_cwOf (a b : Byte) (v : Word64) : cwOpcode (cwOf a b v) = a := by
  apply BitVec.eq_of_getLsbD_eq
  intro i hi
  simp only [cwOpcode, cwOf, BitVec.getLsbD_extractLsb', BitVec.getLsbD_append]
  rw [if_neg (by omega), if_neg (by omega)]
  simp [hi, show 72 + i - 64 - 8 = i by omega]

@[simp] theorem cwMod_cwOf (a b : Byte) (v : Word64) : cwMod (cwOf a b v) = b := by
  apply BitVec.eq_of_getLsbD_eq
  intro i hi
  simp only [cwMod, cwOf, BitVec.getLsbD_extractLsb', BitVec.getLsbD_append]
  simp [hi]

@[simp] theorem cwOpd_cwOf (a b : Byte) (v : Word64) : cwOpd (cwOf a b v) = v := by
  apply BitVec.eq_of_getLsbD_eq
  intro i hi
  simp only [cwOpd, cwOf, BitVec.getLsbD_extractLsb', BitVec.getLsbD_append]
  simp [hi]

/-- A command word is its three fields (30_encoding R90). -/
theorem cwOf_fields (cw : CmdWord) : cwOf (cwOpcode cw) (cwMod cw) (cwOpd cw) = cw := by
  apply BitVec.eq_of_getLsbD_eq
  intro i hi
  simp only [cwOf, cwOpcode, cwMod, cwOpd, BitVec.getLsbD_append, BitVec.getLsbD_extractLsb']
  by_cases h1 : i < 64
  · simp [h1]
  · by_cases h2 : i - 64 < 8
    · simp [h1, h2]; congr 1; omega
    · simp [h1, h2]
      rw [decide_eq_true (by omega), Bool.true_and]
      congr 1; omega

/-! ### Code tables -/

theorem Opcode.ofCode_code (o : Opcode) : Opcode.ofCode o.code = some o := by cases o <;> decide

theorem Opcode.code_of_ofCode {c : Byte} {o : Opcode} (h : Opcode.ofCode c = some o) : o.code = c := by
  simpa using List.find?_some h

theorem Reg.ofIndex_index (r : Reg) : Reg.ofIndex r.index = some r := by cases r <;> decide

theorem Reg.index_of_ofIndex {c : Byte} {r : Reg} (h : Reg.ofIndex c = some r) : r.index = c := by
  simpa using List.find?_some h

/-! ### Each operand format read and inverted (30_encoding R92, R93) -/

@[simp] theorem readS_code (f : Word64 → SeekMode → Instr) (m : SeekMode) (n : Word64) :
    readS f m.code n = .ok (f n m) := by
  cases m <;> rfl

@[simp] theorem readD_bitMod (f : Bool → Instr) (b : Bool) : readD f (bitMod b) 0#64 = .ok (f b) := by cases b <;> rfl

theorem readN_ok {i j : Instr} {m : Byte} {v : Word64} (h : readN i m v = .ok j) : j = i ∧ m = 0 ∧ v = 0 := by
  unfold readN at h
  split at h
  · next hc => cases h; exact ⟨rfl, hc⟩
  · cases h

theorem readW_ok {j : Instr} {m : Byte} {v : Word64} (h : readW m v = .ok j) :
    ∃ r, j = .wrReg r v ∧ r.index = m ∧ r.writable = true := by
  unfold readW at h
  split at h
  · cases h
  · next r hr =>
    split at h
    · next hw => cases h; exact ⟨r, rfl, Reg.index_of_ofIndex hr, hw⟩
    · cases h

theorem readQ_ok {j : Instr} {m : Byte} {v : Word64} (h : readQ m v = .ok j) :
    ∃ r, j = .rdReg r ∧ r.index = m ∧ v = 0 := by
  unfold readQ at h
  split at h
  · next hv =>
    split at h
    · cases h
    · next r hr => cases h; exact ⟨r, rfl, Reg.index_of_ofIndex hr, hv⟩
  · cases h

theorem readO_ok {f : Word64 → Instr} {j : Instr} {m : Byte} {v : Word64} (h : readO f m v = .ok j) :
    j = f v ∧ m = 0 := by
  unfold readO at h
  split at h
  · next hm => cases h; exact ⟨rfl, hm⟩
  · cases h

theorem readS_ok {f : Word64 → SeekMode → Instr} {j : Instr} {m : Byte} {v : Word64} (h : readS f m v = .ok j) :
    ∃ mode, j = f v mode ∧ mode.code = m := by
  unfold readS at h
  split at h
  · next hm => cases h; exact ⟨.fromStart, rfl, hm.symm⟩
  · split at h
    · next hm => cases h; exact ⟨.fromCurrent, rfl, hm.symm⟩
    · split at h
      · next hm => cases h; exact ⟨.fromEnd, rfl, hm.symm⟩
      · split at h <;> cases h

theorem readD_ok {f : Bool → Instr} {j : Instr} {m : Byte} {v : Word64} (h : readD f m v = .ok j) :
    ∃ b, j = f b ∧ bitMod b = m ∧ v = 0 := by
  unfold readD at h
  split at h
  · next hv =>
    split at h
    · next hm => cases h; exact ⟨false, rfl, hm.symm, hv⟩
    · split at h
      · next hm => cases h; exact ⟨true, rfl, hm.symm, hv⟩
      · cases h
  · cases h

/-- The operands read under an opcode are a well-formed command of that opcode with those fields. -/
theorem Opcode.read_ok {o : Opcode} {m : Byte} {v : Word64} {i : Instr} (h : o.read m v = .ok i) :
    WellFormed i = true ∧ i.opcode = o ∧ i.modByte = m ∧ i.opdField = v := by
  cases o
  case wrReg => obtain ⟨r, rfl, h1, h2⟩ := readW_ok h; exact ⟨h2, rfl, h1, rfl⟩
  case rdReg => obtain ⟨r, rfl, h1, h2⟩ := readQ_ok h; exact ⟨rfl, rfl, h1, h2.symm⟩
  case kgSeek => obtain ⟨rfl, h1⟩ := readO_ok h; exact ⟨rfl, rfl, h1.symm, rfl⟩
  case kgBitAt => obtain ⟨rfl, h1⟩ := readO_ok h; exact ⟨rfl, rfl, h1.symm, rfl⟩
  case ppPoint => obtain ⟨rfl, h1⟩ := readO_ok h; exact ⟨rfl, rfl, h1.symm, rfl⟩
  case bcTell => obtain ⟨rfl, h1⟩ := readO_ok h; exact ⟨rfl, rfl, h1.symm, rfl⟩
  case bcSeek => obtain ⟨mode, rfl, h1⟩ := readS_ok h; exact ⟨rfl, rfl, h1, rfl⟩
  case cmSeek => obtain ⟨mode, rfl, h1⟩ := readS_ok h; exact ⟨rfl, rfl, h1, rfl⟩
  case kgXorBit => obtain ⟨b, rfl, h1, h2⟩ := readD_ok h; exact ⟨rfl, rfl, h1, h2.symm⟩
  case bcWriteBit => obtain ⟨b, rfl, h1, h2⟩ := readD_ok h; exact ⟨rfl, rfl, h1, h2.symm⟩
  case cmWriteBit => obtain ⟨b, rfl, h1, h2⟩ := readD_ok h; exact ⟨rfl, rfl, h1, h2.symm⟩
  all_goals obtain ⟨rfl, h1, h2⟩ := readN_ok h; exact ⟨rfl, rfl, h1.symm, h2.symm⟩

/-! ### Decoding what was encoded -/

theorem decode_encode_eq (i : Instr) : decode (encode i) = i.opcode.read i.modByte i.opdField := by
  simp [decode, encode, Opcode.ofCode_code]

/-- Reading the fields of an accepted word gives the command, and the command's fields are the word's. -/
theorem decode_ok {cw : CmdWord} {i : Instr} (h : decode cw = .ok i) :
    ∃ o, Opcode.ofCode (cwOpcode cw) = some o ∧ o.read (cwMod cw) (cwOpd cw) = .ok i := by
  unfold decode at h
  split at h
  · cases h
  · next o ho => exact ⟨o, ho, h⟩

/-! ### Byte transport (30_encoding R99) -/

/-- A word is its ten bytes, the most significant first. -/
theorem bytes_of_word (w : BitVec 80) :
    (w.extractLsb' 72 8 ++ w.extractLsb' 64 8 ++ w.extractLsb' 56 8 ++ w.extractLsb' 48 8 ++ w.extractLsb' 40 8 ++
      w.extractLsb' 32 8 ++ w.extractLsb' 24 8 ++ w.extractLsb' 16 8 ++ w.extractLsb' 8 8 ++ w.extractLsb' 0 8 :
      BitVec (8 + 8 + 8 + 8 + 8 + 8 + 8 + 8 + 8 + 8)) = w := by
  apply BitVec.eq_of_getLsbD_eq
  intro i hi
  simp only [BitVec.getLsbD_append, BitVec.getLsbD_extractLsb']
  have : i < 80 := hi
  interval_cases i <;> simp

/-- The transport of 30_encoding R99 is read back, and what follows it is untouched. -/
theorem wordOfBytes_wordBytes (w : BitVec 80) (rest : List Byte) :
    wordOfBytes (wordBytes w ++ rest) = some (w, rest) := by
  have h : wordBytes w = [w.extractLsb' 72 8, w.extractLsb' 64 8, w.extractLsb' 56 8, w.extractLsb' 48 8,
      w.extractLsb' 40 8, w.extractLsb' 32 8, w.extractLsb' 24 8, w.extractLsb' 16 8, w.extractLsb' 8 8, w.extractLsb' 0 8] := rfl
  rw [h]
  simp only [List.cons_append, List.nil_append, wordOfBytes, bytes_of_word]

end Sys2Proof
end

