-- ==== Sys2Proof/Laws/Fetch.lean ====
section
/-! SUPPORT. Everything one input of the host can do when the step answers a next state, and attaching the surface of a call
of the host software. -/

namespace Sys2Proof.Machine

variable {s t : State}

/-- A command word (30_encoding R101). -/
theorem runWord_next {cw : CmdWord} (h : runWord cw s = .next t) :
    (∃ i, decode cw = .ok i ∧ exec i s = .next t) ∨ (∃ e, decode cw = .error e ∧ t = s.raise .illegalCommand) := by
  unfold runWord at h
  split at h
  · next i hi => exact .inl ⟨i, hi, h⟩
  · next e he => cases h; exact .inr ⟨e, he, rfl⟩

/-- Any input (30_encoding R100, 70_reset R260, R263). -/
theorem takeInput_next {x : PortInput} (h : takeInput x s = .next t) :
    (∃ cw, x = .command cw ∧ runWord cw s = .next t) ∨
    ((x = .reset ∨ ∃ cw, x = .resetDuring cw false) ∧ t = s.takeReset) ∨
    (∃ cw u, x = .resetDuring cw true ∧ runWord cw s = .next u ∧ t = u.takeReset) ∨
    (∃ pixels, x = .attach pixels ∧ s.bcActive = false ∧ t = { s with surface := Memory.ofPixels pixels }) := by
  cases x with
  | command cw => exact .inl ⟨cw, rfl, h⟩
  | reset => cases h; exact .inr (.inl ⟨.inl rfl, rfl⟩)
  | resetDuring cw issued =>
    cases issued with
    | false => cases h; exact .inr (.inl ⟨.inr ⟨cw, rfl⟩, rfl⟩)
    | true =>
      simp only [takeInput, abandonWord, if_true] at h
      split at h
      · next u hu => cases h; exact .inr (.inr (.inl ⟨cw, u, rfl, hu, rfl⟩))
      · cases h
      · cases h
  | attach pixels =>
    simp only [takeInput, attachSurface] at h
    split at h
    · cases h
    · next hb => cases h; exact .inr (.inr (.inr ⟨pixels, rfl, by simpa using hb, rfl⟩))

/-- A step takes no input, or the first. -/
theorem step_next (h : step s = .next t) :
    (s.port = [] ∧ t = s) ∨ ∃ x rest, s.port = x :: rest ∧ takeInput x { s with port := rest } = .next t := by
  unfold step at h
  split at h
  · next hp => cases h; exact .inl ⟨hp, rfl⟩
  · next x rest hp => exact .inr ⟨x, rest, hp, h⟩

/-- Attaching the surface of a call always succeeds: an old cursor session is reset away, then the surface is the one lent
(45 R203, 70_reset R263). -/
theorem lendSurface_eq (surface : List (Point × Pixel)) (s : State) :
    lendSurface surface s =
      some { (if s.bcActive then s.takeReset else s) with surface := Memory.ofPixels surface } := by
  have ha : ∀ u : State, u.bcActive = false →
      present (.attach surface) u = some { u with surface := Memory.ofPixels surface } := by
    intro u hu
    simp [present, step, takeInput, attachSurface, hu]
  cases hb : s.bcActive with
  | false => simp [lendSurface, hb, ha s hb]
  | true =>
    have hr : present .reset s = some s.takeReset := rfl
    simp [lendSurface, hb, hr, ha s.takeReset rfl]

end Sys2Proof.Machine
end

