-- ==== Sys2Proof/Laws/Invariant.lean ====
section
/-! SUPPORT. The updates the meanings are made of keep the invariant of the block. -/

namespace Sys2Proof.Machine

theorem toInt_small (v : Word64) (h : v.toNat < 2 ^ 63) : v.toInt = v.toNat := by
  rw [BitVec.toInt_eq_toNat_cond]; omega

/-- Raising an error keeps the invariant (60 R238). -/
theorem State.Inv.raise {s : State} (h : s.Inv) (e : Err) : (s.raise e).Inv := by
  obtain ⟨h1, h2, h3, h4, h5, h6, h7, h8, h9, h10, h11, h12⟩ := h
  constructor <;> simp <;> first | assumption | skip
  · split
    · exact e.code_le
    · exact h12

/-- Answering keeps the invariant. -/
theorem State.Inv.respond {s : State} (h : s.Inv) (a d) : (s.respond a d).Inv := by
  obtain ⟨h1, h2, h3, h4, h5, h6, h7, h8, h9, h10, h11, h12⟩ := h
  constructor <;> assumption

/-- The refresh of 41 R133 keeps the invariant. -/
theorem State.Inv.refresh {s : State} (h : s.Inv) (hk : s.kgActive = true) (i) : (s.refresh i).Inv := by
  obtain ⟨h1, h2, h3, h4, h5, h6, h7, h8, h9, h10, h11, h12⟩ := h
  constructor <;> simp <;> first | assumption | skip
  · intro _; have := State.refresh_cached (h4 hk) i; rw [this.1, this.2]

/-- `KG.offset + 1` keeps the invariant below the offset limit. -/
theorem State.Inv.advanceKg {s : State} (h : s.Inv)
    (hk : 0 ≤ sext64 s.kgOffset) (hk' : sext64 s.kgOffset < Config.offsetLimit) : s.advanceKg.Inv := by
  obtain ⟨h1, h2, h3, h4, h5, h6, h7, h8, h9, h10, h11, h12⟩ := h
  constructor <;> simp <;> first | assumption | skip
  · have h3 := BitVec.toInt_eq_toNat_cond s.kgOffset
    have h4 := s.kgOffset.isLt
    have h5 := BitVec.toInt_eq_toNat_cond (s.kgOffset + 1#64)
    simp only [sext64, Config.offsetLimit] at *
    rw [h5, BitVec.toNat_add]
    simp at *
    split at h3 <;> split <;> omega

/-- A position within the capacity keeps the invariant. -/
theorem State.Inv.setPosition {s : State} (h : s.Inv) (p : Word64)
    (hp : s.bcActive = true → p.toNat ≤ s.bcCapacity.toNat) : ({ s with bcPosition := p }).Inv := by
  have hcap := h.capacity_eq
  obtain ⟨h1, h2, h3, h4, h5, h6, h7, h8, h9, h10, h11, h12⟩ := h
  constructor <;> first | assumption | skip
  · intro ha
    have hp := hp ha
    have hcap := (hcap ha).2
    have := toInt_small p (by omega)
    simp only [sext64, zext64, this]; omega

/-- An offset that is not negative keeps the invariant. -/
theorem State.Inv.setOffset {s : State} (h : s.Inv) (p : Word64) (hp : 0 ≤ sext64 p) : ({ s with kgOffset := p }).Inv := by
  obtain ⟨h1, h2, h3, h4, h5, h6, h7, h8, h9, h10, h11, h12⟩ := h
  constructor <;> assumption

/-- A surface in its canonical form keeps the invariant. -/
theorem State.Inv.setSurface {s : State} (h : s.Inv) (m : Memory) (hm : m.wf) : ({ s with surface := m }).Inv := by
  obtain ⟨h1, h2, h3, h4, h5, h6, h7, h8, h9, h10, h11, h12⟩ := h
  constructor <;> assumption

/-- A cursor that is not at the end stands below the capacity. -/
theorem State.Inv.below_capacity {s : State} (h : s.Inv) (ha : s.bcActive = true)
    (he : s.atEnd = false) : s.bcPosition.toNat < s.bcCapacity.toNat := by
  have hpos := (State.atEnd_false_iff s).mp he
  rw [(h.position ha).1] at hpos; simp only [zext64] at hpos
  omega

/-- `BC.position + 1` keeps the invariant before the end of the medium (43 R166). -/
theorem State.Inv.advanceBc {s : State} (h : s.Inv) (he : s.atEnd = false) : s.advanceBc.Inv := by
  apply State.Inv.setPosition h
  intro ha
  have := State.Inv.below_capacity h ha he
  rw [BitVec.toNat_add]; simp; omega

/-- A bit write keeps the invariant (43 R167). -/
theorem State.Inv.storeCell {s : State} (h : s.Inv) (he : s.atEnd = false) (c px b) : (s.storeCell c px b).Inv := by
  apply State.Inv.advanceBc
  · exact State.Inv.setSurface h _ (Memory.setPixel_wf h.surfaceWf _ _)
  · exact he

/-- A committed seek keeps the invariant (43 R164). -/
theorem State.Inv.seek {s : State} (h : s.Inv) (c : Int) (h0 : 0 ≤ c)
    (h1 : c < (zext64 s.bcCapacity : Int)) : ({ s with bcPosition := word64OfInt c }).Inv := by
  apply State.Inv.setPosition h
  intro ha
  have := (h.capacity_eq ha).2
  obtain ⟨n, rfl⟩ := Int.eq_ofNat_of_zero_le h0
  simp only [zext64] at h1
  have : (word64OfInt (Int.ofNat n)).toNat = n := by simp [word64OfInt]; omega
  change (word64OfInt (Int.ofNat n)).toNat ≤ _
  omega

/-- Input waiting at the port is outside the invariant. -/
theorem State.Inv.setPort {s : State} (h : s.Inv) (p : List PortInput) : ({ s with port := p }).Inv := by
  obtain ⟨h1, h2, h3, h4, h5, h6, h7, h8, h9, h10, h11, h12⟩ := h
  constructor <;> assumption

end Sys2Proof.Machine
end

