-- ==== Sys2Proof/Tests/Slice0.lean ====
section
/-! SUPPORT. Tests whose expected results stand in `spec/` (95_test_vectors, the examples of 40 to 46), and for every
statement with hypotheses a named witness that meets them. -/

namespace Sys2Proof.Tests

open Sys2Proof Sys2Proof.Machine Sys2Proof.Claims

/-! ### Well-formedness: the one check refuses each ill-formed term (30_encoding R94, R95) -/

theorem test_wellFormed_refuses_readOnly : [Reg.status, .kgOffset, .kgCounter, .kgBlock0, .kgBlock1, .bcPosition,
    .bcCapacity].all (fun r => !WellFormed (.wrReg r 0)) = true := by decide

theorem test_wellFormed_accepts_writable : [Reg.key0, .key1, .nonce, .seed, .width, .height, .chancfg].all
    (fun r => WellFormed (.wrReg r (-1))) = true := by decide

/-! ### Decoding: the words of 95_test_vectors and of the rules' own examples -/

theorem test_decode_wrReg : decode 0x01060000000000000212 = .ok (.wrReg .chancfg 0x212) ∧
    decode 0x0100FFFFFFFFFFFFFFFF = .ok (.wrReg .key0 (-1)) := by decide

theorem test_decode_rdReg : decode 0x02110000000000000000 = .ok (.rdReg .kgOffset) ∧
    decode 0x02160000000000000000 = .ok (.rdReg .bcCapacity) := by decide

theorem test_decode_kgInit : decode 0x10000000000000000000 = .ok .kgInit := by decide

theorem test_decode_kgSeek : decode 0x1100000000000000007F = .ok (.kgSeek 127) ∧
    decode 0x1100FFFFFFFFFFFFFFFF = .ok (.kgSeek (-1)) := by decide

theorem test_decode_kgBitAt : decode 0x12000000007FFFFFFFFF = .ok (.kgBitAt 0x7FFFFFFFFF) := by decide

theorem test_decode_kgXorBit : decode 0x13010000000000000000 = .ok (.kgXorBit true) ∧
    decode 0x13000000000000000000 = .ok (.kgXorBit false) := by decide

theorem test_decode_ppGen : decode 0x20000000000000000000 = .ok .ppGen := by decide

theorem test_decode_ppPoint : decode 0x21000000000000000005 = .ok (.ppPoint 5) := by decide

theorem test_decode_bcInit : decode 0x30000000000000000000 = .ok .bcInit := by decide

theorem test_decode_bcSeek : decode 0x31000000000000000018 = .ok (.bcSeek 24 .fromStart) ∧
    decode 0x3101FFFFFFFFFFFFFFE7 = .ok (.bcSeek (-25) .fromCurrent) ∧
    decode 0x3102FFFFFFFFFFFFFFFF = .ok (.bcSeek (-1) .fromEnd) := by decide

theorem test_decode_bcReadBit : decode 0x32000000000000000000 = .ok .bcReadBit := by decide

theorem test_decode_bcWriteBit : decode 0x33010000000000000000 = .ok (.bcWriteBit true) := by decide

theorem test_decode_bcTell : decode 0x34000000000000000007 = .ok (.bcTell 7) := by decide

theorem test_decode_cmSeek : decode 0x4102FFFFFFFFFFFFFFF8 = .ok (.cmSeek (-8) .fromEnd) := by decide

theorem test_decode_cmReadBit : decode 0x42000000000000000000 = .ok .cmReadBit := by decide

theorem test_decode_cmWriteBit : decode 0x43010000000000000000 = .ok (.cmWriteBit true) := by decide

/-- 95 section 7.1, every row. -/
theorem test_decode_illegal :
    decode 0x00000000000000000000 = .error .unassignedOpcode ∧
    decode 0x44000000000000000000 = .error .unassignedOpcode ∧
    decode 0xFF000000000000000000 = .error .unassignedOpcode ∧
    decode 0x10000000000000000001 = .error .nonzeroReserved ∧
    decode 0x10010000000000000000 = .error .nonzeroReserved ∧
    decode 0x12010000000000000000 = .error .nonzeroReserved ∧
    decode 0x31030000000000000000 = .error .reservedMode ∧
    decode 0x13020000000000000000 = .error .nonzeroReserved ∧
    decode 0x13010000000000000001 = .error .nonzeroReserved ∧
    decode 0x01100000000000000000 = .error .readOnlyRegister ∧
    decode 0x01070000000000000000 = .error .unlistedRegister ∧
    decode 0x02170000000000000000 = .error .unlistedRegister ∧
    decode 0x02000000000000000001 = .error .nonzeroReserved := by decide

/-- 30_encoding R99: opcode byte first; nine bytes are no command. -/
theorem test_bytes : encodeBytes (.kgSeek 127) = [0x11, 0, 0, 0, 0, 0, 0, 0, 0, 0x7F] ∧
    decodeBytes [0x13, 1, 0, 0, 0, 0, 0, 0, 0, 0, 0xAA] = .ok (.kgXorBit true, [0xAA]) ∧
    decodeBytes [0x13, 1, 0, 0, 0, 0, 0, 0, 0] = .error .truncated := by decide

theorem test_decodeTableWord : decodeTableWord 80 0x10000000000000000000 = some .kgInit ∧
    decodeTableWord 80 0x44000000000000000000 = none := by decide

/-! ### The step on small states -/

/-- The outcome of one command word. -/
def send (s : State) (cw : CmdWord) : Host.Outcome State Fault Refusal := step { s with port := [.command cw] }

/-- The response of an outcome. -/
def answer : Host.Outcome State Fault Refusal → Option RspWord
  | .next t => t.rsp
  | .fault _ => none
  | .refused _ => none

/-- What a next state holds. -/
def held {α : Type} (f : State → α) : Host.Outcome State Fault Refusal → Option α
  | .next t => some (f t)
  | .fault _ => none
  | .refused _ => none

/-- The key "pw" padded, nonce 0 (95 section 3.2): the block of counter 0. -/
def pwBlock : Block :=
  ⟨⟨0xd1, 0xff, 0xc0, 0xe5⟩, ⟨0xf9, 0x56, 0x2d, 0x2f⟩, ⟨0x89, 0x6a, 0x5e, 0x57⟩, ⟨0x42, 0x16, 0xa9, 0x55⟩⟩

/-- A KG session with the key "pw", at an offset. -/
def pwAt (off : Word64) : State := { State.reset with key0 := 0x7770, kgActive := true, kgBlock := pwBlock, kgOffset := off }

/-- The 3 x 2 cursor of 95 section 5.1 and program P2: `[Red, Green]`, 2 bits, capacity 24. -/
def p2At (pos : Word64) : State :=
  { State.reset with
    width := 3, height := 2, chancfg := 0x212, ppValid := true, bcActive := true, ppW := 3, ppH := 2
    ppPoints := [⟨2, 1⟩, ⟨0, 0⟩, ⟨0, 1⟩, ⟨1, 0⟩, ⟨2, 0⟩, ⟨1, 1⟩]
    bcChans := [.red, .green], bcBpc := 2, bcCapacity := 24, bcPosition := pos
    surface := Memory.ofPixels [(⟨2, 1⟩, ⟨0xA5, 0x0F, 0x55, 0xFF⟩), (⟨1, 1⟩, ⟨0xA4, 0x0F, 0x55, 0xFF⟩)] }

/-- The 2 x 2 ciphered cursor of program P3: `[Red]`, 2 bits, capacity 8. -/
def p3At (pos off : Word64) : State :=
  { State.reset with
    key0 := 0x7770, width := 2, height := 2, chancfg := 0x201, kgActive := true, ppValid := true, bcActive := true
    kgBlock := pwBlock, kgOffset := off, ppW := 2, ppH := 2
    ppPoints := [⟨1, 0⟩, ⟨1, 1⟩, ⟨0, 1⟩, ⟨0, 0⟩]
    bcChans := [.red], bcBpc := 2, bcCapacity := 8, bcPosition := pos
    surface := Memory.ofPixels
      [(⟨0, 0⟩, ⟨0x80, 0x80, 0x80, 0xFF⟩), (⟨1, 0⟩, ⟨0x80, 0x80, 0x80, 0xFF⟩),
       (⟨0, 1⟩, ⟨0x80, 0x80, 0x80, 0xFF⟩), (⟨1, 1⟩, ⟨0x80, 0x80, 0x80, 0xFF⟩)] }

/-- 95 section 7.3: the refused values. -/
theorem test_wrReg_refused :
    [(Reg.nonce, (0x100000000 : Word64)), (.width, 0x100000000), (.chancfg, 0x100), (.chancfg, 0x104), (.chancfg, 0x10D),
     (.chancfg, 0x006), (.chancfg, 0x801), (.chancfg, 0x116), (.chancfg, 0x111), (.chancfg, 0x7E7)].all
      (fun e => answer (exec (.wrReg e.1 e.2) State.reset) == some 0x05000000000000000000) = true := by decide

/-- 95 sections 7.3 and 7.4: accepted values, and the flags cleared. -/
theorem test_wrReg_accepted :
    ([0x106, 0x109, 0x193, 0x70A, 0x74B] : List Word64).all
      (fun v => answer (exec (.wrReg .chancfg v) State.reset) == some 0) = true ∧
    held State.statusWord (send (p3At 0 0) 0x01060000000000000101) = some 0x3 ∧
    held State.statusWord (send (p3At 0 0) 0x01030000000000000000) = some 0x1 ∧
    held State.statusWord (send (p3At 0 0) 0x01010000000000000000) = some 0x6 := by decide

/-- 95 section 7.2; program P1 row 15. -/
theorem test_rdReg : answer (send State.reset 0x02060000000000000000) = some 0x00000000000000000101 ∧
    answer (send (pwAt 129) 0x02130000000000000000) = some 0x00002F2D56F9E5C0FFD1 ∧
    answer (send (pwAt 129) 0x02110000000000000000) = some 0x00000000000000000081 := by decide

/-- 95 section 7.2 (zero key) and 41 R130 (key "pw"). -/
theorem test_kgInit :
    held (fun t => (blockWord0 t.kgBlock, blockWord1 t.kgBlock)) (send State.reset 0x10000000000000000000) =
      some (0x3B2C8AEFD44BE966, 0x2E2B34CA59FA4C88) ∧
    held State.kgBlock (send { State.reset with key0 := 0x7770 } 0x10000000000000000000) = some pwBlock := by decide +kernel

/-- 95 section 3.4; program P1 row 12. -/
theorem test_kgSeek : answer (send (pwAt 0) 0x11000000008000000000) = some 0x00000000008000000000 ∧
    answer (send (pwAt 129) 0x1100FFFFFFFFFFFFFFFF) = some 0x03000000000000000000 := by decide

/-- 95 section 3.4: the last legal offset uses counter `0xFFFFFFFF`; the next is refused. -/
theorem test_kgBitAt : answer (send (pwAt 0) 0x12000000007FFFFFFFFF) = some 0x00000000000000000001 ∧
    held State.kgCounter (send (pwAt 0) 0x12000000007FFFFFFFFF) = some 0xFFFFFFFF ∧
    answer (send (pwAt 0) 0x12000000008000000000) = some 0x03000000000000000000 := by decide +kernel

/-- Program P1 rows 9 and 10: the refresh at the block boundary. -/
theorem test_kgXorBit :
    held (fun t => (t.rsp, t.kgOffset, t.kgCounter)) (send (pwAt 127) 0x13000000000000000000) = some (some 0, 128, 0) ∧
    held (fun t => (t.rsp, t.kgOffset, t.kgCounter)) (send (pwAt 128) 0x13000000000000000000) =
      some (some 1, 129, 1) := by decide +kernel

/-- 95 section 7.3, last row; 42 R151, the response data (the table is the open generator's). -/
theorem test_ppGen :
    answer (send { State.reset with width := 0x10000, height := 0x10001 } 0x20000000000000000000) =
      some 0x05000000000000000000 ∧
    held (fun t => (t.ppPoints, t.statusWord)) (send State.reset 0x20000000000000000000) = some ([], 2) := by decide

/-- Program P2 rows 7 and 8. -/
theorem test_ppPoint : answer (send (p2At 0) 0x21000000000000000005) = some 0x00000000000100000001 ∧
    answer (send (p2At 0) 0x21000000000000000006) = some 0x01000000000000000000 := by decide

/-- Program P2 row 9; 95 section 7.2. -/
theorem test_bcInit :
    held (fun t => (t.rsp, t.bcPosition, t.bcChans)) (send { p2At 9 with bcActive := false } 0x30000000000000000000) =
      some (some 0x18, 0, [.red, .green]) ∧
    answer (send State.reset 0x30000000000000000000) = some 0x06000000000000000000 := by decide

/-- 95 section 5.2: each mode, each error, no wrap-around. -/
theorem test_bcSeek_errors :
    [((23 : Word64), (0x31000000000000000018 : CmdWord), (0x01 : Byte)), (23, 0x3100FFFFFFFFFFFFFFFF, 1),
     (23, 0x31010000000000000001, 1), (0, 0x3101FFFFFFFFFFFFFFFF, 2), (0, 0x31020000000000000000, 1),
     (0, 0x3102FFFFFFFFFFFFFFE7, 2), (24, 0x31010000000000000000, 1), (5, 0x31017FFFFFFFFFFFFFFF, 1),
     (5, 0x31028000000000000000, 2)].all
      (fun e => answer (send (p2At e.1) e.2.1) == some (rspWord e.2.2 0 0)) = true := by decide

theorem test_bcSeek_positions :
    [((0 : Word64), (0x31000000000000000017 : CmdWord), (23 : Word64)), (23, 0x31010000000000000000, 23),
     (23, 0x3101FFFFFFFFFFFFFFE9, 0), (0, 0x3102FFFFFFFFFFFFFFFF, 23), (23, 0x3102FFFFFFFFFFFFFFE8, 0),
     (24, 0x3101FFFFFFFFFFFFFFEA, 2)].all
      (fun e => held (fun t => (t.rsp, t.bcPosition)) (send (p2At e.1) e.2.1) ==
        some (some (rspWord 0 0 e.2.2), e.2.2)) = true := by decide

/-- 43 R166, the example; program P2 row 16. -/
theorem test_bcReadBit :
    held (fun t => (t.rsp, t.bcPosition)) (send (p2At 3) 0x32000000000000000000) = some (some 1, 4) ∧
    answer (send (p2At 24) 0x32000000000000000000) = some 0x01000000000000000000 := by decide

/-- 43 R167, the example; program P2 row 15. -/
theorem test_bcWriteBit :
    held (fun t => t.surface.pixel ⟨2, 1⟩) (send (p2At 1) 0x33010000000000000000) =
      some (some ⟨0xA7, 0x0F, 0x55, 0xFF⟩) ∧
    held (fun t => (t.surface.pixel ⟨1, 1⟩, t.bcPosition)) (send (p2At 23) 0x33000000000000000000) =
      some (some ⟨0xA4, 0x0D, 0x55, 0xFF⟩, 24) := by decide

/-- 95 section 5.1, `CHANCFG = 0x212`. -/
theorem test_bcTell : answer (send (p2At 0) 0x34000000000000000007) = some 0x00050000000000000000 ∧
    answer (send (p2At 0) 0x34000000000000000002) = some 0x00010000000100000002 ∧
    answer (send (p2At 0) 0x34000000000000000018) = some 0x01000000000000000000 := by decide

/-- Program P3 rows 41 and 42. -/
theorem test_cmSeek : answer (send (p3At 8 8) 0x41000000000000000008) = some 0x01000000000000000000 ∧
    held (fun t => (t.bcPosition, t.kgOffset)) (send (p3At 8 8) 0x4102FFFFFFFFFFFFFFF8) = some (0, 0) := by decide

/-- 44 R182, the example; program P3 row 29. -/
theorem test_cmReadBit :
    held (fun t => (t.rsp, t.bcPosition, t.kgOffset)) (send (p3At 0 0) 0x42000000000000000000) = some (some 1, 1, 1) ∧
    held (fun t => (t.rsp, t.bcPosition, t.kgOffset)) (send (p3At 8 8) 0x42000000000000000000) =
      some (some 0x01000000000000000000, 8, 8) := by decide

/-- 95 section 6, seek consistency; program P3 row 17, the drift at the end of the medium. -/
theorem test_cmWriteBit :
    held (fun t => (t.surface.pixel ⟨0, 1⟩, t.bcPosition, t.kgOffset)) (send (p3At 5 5) 0x43010000000000000000) =
      some (some ⟨0x82, 0x80, 0x80, 0xFF⟩, 6, 6) ∧
    held (fun t => (t.rsp, t.bcPosition, t.kgOffset)) (send (p3At 8 8) 0x43010000000000000000) =
      some (some 0x01000000000000000000, 8, 9) := by decide

/-- 95 section 7.2: the latch keeps the first error. -/
theorem test_latch : held State.err (send State.reset 0x13010000000000000000) = some 6 ∧
    held State.err (send { State.reset with err := 6 } 0x44000000000000000000) = some 6 := by decide

/-- The host's word is the next one to run, from reset. -/
theorem test_withFetchWord :
    answer (step (State.reset.withFetchWord 80 0x02060000000000000000)) = some 0x00000000000000000101 := by decide

/-- 70 R260: a command abandoned before and after its write was issued; no response; every register reset. -/
theorem test_resetDuring :
    held (fun t => (t.surface.pixel ⟨2, 1⟩, t.rsp, t.statusWord)) (step { p2At 1 with port := [.resetDuring 0x33010000000000000000 false] }) =
      some (some ⟨0xA5, 0x0F, 0x55, 0xFF⟩, none, 0) ∧
    held (fun t => (t.surface.pixel ⟨2, 1⟩, t.rsp, t.statusWord)) (step { p2At 1 with port := [.resetDuring 0x33010000000000000000 true] }) =
      some (some ⟨0xA7, 0x0F, 0x55, 0xFF⟩, none, 0) := by decide

/-- 45 R203: the surface of a call is attached, also on a block that an old session left active. -/
theorem test_lendSurface :
    (lendSurface [(⟨0, 0⟩, ⟨1, 2, 3, 4⟩)] (p2At 1)).map (fun t => (t.surface.pixel ⟨0, 0⟩, t.surface.pixel ⟨2, 1⟩, t.bcActive)) =
      some (some ⟨1, 2, 3, 4⟩, none, false) := by decide

/-! ### Functions -/

/-- 46 R225 (a) and (b). -/
theorem test_aes :
    aesEncrypt ⟨⟨0x00, 0x01, 0x02, 0x03⟩, ⟨0x04, 0x05, 0x06, 0x07⟩, ⟨0x08, 0x09, 0x0a, 0x0b⟩, ⟨0x0c, 0x0d, 0x0e, 0x0f⟩⟩
      ⟨⟨0x00, 0x11, 0x22, 0x33⟩, ⟨0x44, 0x55, 0x66, 0x77⟩, ⟨0x88, 0x99, 0xaa, 0xbb⟩, ⟨0xcc, 0xdd, 0xee, 0xff⟩⟩ =
      ⟨⟨0x69, 0xc4, 0xe0, 0xd8⟩, ⟨0x6a, 0x7b, 0x04, 0x30⟩, ⟨0xd8, 0xcd, 0xb7, 0x80⟩, ⟨0x70, 0xb4, 0xc5, 0x5a⟩⟩ ∧
    aesEncrypt ⟨⟨0x2b, 0x7e, 0x15, 0x16⟩, ⟨0x28, 0xae, 0xd2, 0xa6⟩, ⟨0xab, 0xf7, 0x15, 0x88⟩, ⟨0x09, 0xcf, 0x4f, 0x3c⟩⟩
      ⟨⟨0x32, 0x43, 0xf6, 0xa8⟩, ⟨0x88, 0x5a, 0x30, 0x8d⟩, ⟨0x31, 0x31, 0x98, 0xa2⟩, ⟨0xe0, 0x37, 0x07, 0x34⟩⟩ =
      ⟨⟨0x39, 0x25, 0x84, 0x1d⟩, ⟨0x02, 0xdc, 0x09, 0xfb⟩, ⟨0xdc, 0x11, 0x85, 0x97⟩, ⟨0x19, 0x6a, 0x0b, 0x32⟩⟩ := by
  decide +kernel

/-- 95 section 3.2: the layout of the cipher's input, and a block that tells nonce from counter. -/
theorem test_ksBlock :
    fmtIn 0x01020304 0x0A0B0C0D = ⟨⟨1, 2, 3, 4⟩, ⟨0x0a, 0x0b, 0x0c, 0x0d⟩, ⟨0, 0, 0, 0⟩, ⟨0, 0, 0, 0⟩⟩ ∧
    ksBlock (keyOf 0x7770 0) 1 0 =
      ⟨⟨0xfe, 0x57, 0xf0, 0x99⟩, ⟨0x4e, 0x66, 0x68, 0x5b⟩, ⟨0x5b, 0xac, 0xe5, 0x8a⟩, ⟨0x27, 0x35, 0xc9, 0xd0⟩⟩ := by
  decide +kernel

/-- 95 section 3.3: offsets 0 to 15 of the keystream of key "pw". -/
theorem test_ks_bits : (List.range 16).map (blockBit pwBlock) =
    [true, false, false, false, true, false, true, true, true, true, true, true, true, true, true, true] := by decide

/-- `TESTRNG` of 95 section 1: a generator for the spec's vectors, not the block's. -/
def testRng : Prng where
  seedState := fun seed => seed.toNat
  below := fun s i =>
    let s' := (6364136223846793005 * s + 1442695040888963407) % 2 ^ 64
    (⟨s' / 2 ^ 32 % (i + 1), Nat.mod_lt _ (Nat.succ_pos i)⟩, s')

/-- 95 section 4.2, four rows. -/
theorem test_generate :
    generate testRng 3 2 1 = [⟨2, 1⟩, ⟨0, 0⟩, ⟨0, 1⟩, ⟨1, 0⟩, ⟨2, 0⟩, ⟨1, 1⟩] ∧
    generate testRng 2 3 1 = [⟨1, 2⟩, ⟨0, 0⟩, ⟨1, 1⟩, ⟨1, 0⟩, ⟨0, 1⟩, ⟨0, 2⟩] ∧
    generate testRng 2 2 7 = [⟨1, 0⟩, ⟨1, 1⟩, ⟨0, 1⟩, ⟨0, 0⟩] ∧
    generate testRng 0 5 1 = [] := by decide

/-- 95 section 8.1 and 8.2. -/
theorem test_host_derivations :
    deriveKey Config.padByte [0x70, 0x77] = keyOf 0x7770 0 ∧
    (deriveKey 0 ([0x30, 0x31, 0x32, 0x33, 0x34, 0x35, 0x36, 0x37, 0x38, 0x39, 0x61, 0x62, 0x63, 0x64, 0x65, 0x66, 0x58] :
      List Byte)) = keyOf 0x3736353433323130 0x6665646362613938 ∧
    le32 2 = [2, 0, 0, 0] ∧
    byteBits 0x68 = [false, true, true, false, true, false, false, false] := by decide

/-- 45 R206 and 95 section 8.1: the digest of "pw" gives the seed. -/
theorem test_deriveSeed :
    deriveSeed (fun _ => ⟨⟨0x8f, 0xe4, 0xc1, 0x14⟩, ⟨0x51, 0x28, 0x1c, 0x09⟩, ⟨0x4a, 0x65, 0x78, 0xe6⟩,
      ⟨0xdd, 0xbf, 0x5e, 0xed⟩⟩) [] = 0x4A6578E6DDBF5EED := by decide

/-- 95 section 8.2: partial results at the end of the medium (BC triple, capacity 8). -/
theorem test_baWrite_partial :
    (baWrite .raw [0xA5, 0xFF] (p3At 0 0)).map (fun r => (r.1, r.2.bcPosition)) = some ((1, 1), 8) := by decide

/-- 95 section 8.2: `BA.SEEK -1, END` is `CM.SEEK -8, END`. -/
theorem test_baSeek : (baSeek .ciphered (-1) .fromEnd { p3At 0 0 with bcCapacity := 24 }).map
    (fun r => (r.1, r.2.bcPosition, r.2.kgOffset)) = some (0, 16, 16) := by decide

/-! ### Witnesses: for every statement with hypotheses, states and operands that meet them -/

/-- Reads a next state out of a computed outcome. -/
theorem next_of_held {α : Type} {f : State → α} {o : Host.Outcome State Fault Refusal} {v : α}
    (h : held f o = some v) : ∃ t, o = .next t ∧ f t = v := by
  cases o with
  | next t => exact ⟨t, rfl, by simpa [held] using h⟩
  | fault _ => simp [held] at h
  | refused _ => simp [held] at h

/-- A 1 x 1 surface with `[Red, Green, Blue]` and 7 bits: capacity 21; all three sessions active, key "pw". -/
def demo : State :=
  { State.reset with
    key0 := 0x7770, width := 1, height := 1, chancfg := 0x793, kgActive := true, ppValid := true, bcActive := true
    kgBlock := pwBlock, ppPoints := [⟨0, 0⟩], ppW := 1, ppH := 1, bcCapacity := 21
    bcChans := [.red, .green, .blue], bcBpc := 7, surface := Memory.ofPixels [(⟨0, 0⟩, ⟨0x80, 0x80, 0x80, 0xFF⟩)] }

/-- `demo` at a cursor position and a cipher offset. -/
def demoAt (pos off : Word64) : State := { demo with bcPosition := pos, kgOffset := off }

theorem demo_inv : demo.Inv where
  surfaceWf := by decide
  cfg := by decide
  kgOffset := by decide
  kgCached := fun _ => by decide +kernel
  ppBounds := fun _ => ⟨rfl, rfl⟩
  ppSize := fun _ => by decide
  ppTable := fun _ => rfl
  bcNeedsPp := fun _ => rfl
  bcConfig := fun _ => by decide
  bcCapacity := fun _ => by decide
  bcPosition := fun _ => by decide
  errCode := by decide

theorem inv_at {s : State} (h : s.Inv) {pos off : Word64} (hp : pos.toNat ≤ s.bcCapacity.toNat) (ho : 0 ≤ sext64 off) :
    ({ s with bcPosition := pos, kgOffset := off }).Inv := State.Inv.setOffset (h.setPosition pos fun _ => hp) off ho

theorem demoAt_inv (pos off : Word64) (hp : pos.toNat ≤ demo.bcCapacity.toNat) (ho : 0 ≤ sext64 off) :
    (demoAt pos off).Inv := inv_at demo_inv hp ho

theorem demoAt_kgReady (pos off : Word64) : KgReady (demoAt pos off) := ⟨rfl, demo_inv.kgCached rfl⟩

theorem demo_covers : demo.surface.Covers 1 1 := by
  intro p hx hy
  have hp : p = ⟨0, 0⟩ := by
    obtain ⟨x, y⟩ := p
    congr 1 <;> exact BitVec.eq_of_toNat_eq (by simp at *; omega)
  subst hp
  exact ⟨_, (by decide : demo.surface.pixel ⟨0, 0⟩ = some ⟨0x80, 0x80, 0x80, 0xFF⟩)⟩

theorem witness_DecodeOfEncodeIsTheCommand : WellFormed (.wrReg .chancfg 0x212) = true ∧
    WellFormed (.bcSeek (-1) .fromEnd) = true := by decide

theorem witness_AcceptedWordIsItsEncoding : decode 0x4102FFFFFFFFFFFFFFF8 = .ok (.cmSeek (-8) .fromEnd) := by decide

theorem witness_DecoderAcceptsExactlyTheTable :
    decode 0x13010000000000000000 = .ok (.kgXorBit true) ∧ tableRow 0x13010000000000000000 = some .kgXorBit ∧
    (0x13010000000000000000 : CmdWord) &&& Opcode.kgXorBit.mask = Opcode.kgXorBit.pattern := by decide

theorem witness_ByteTransportRoundTrips : WellFormed (.kgSeek 127) = true := by decide

theorem witness_IllegalWordOnlyAnswers :
    ({ demo with port := [.command 0x44000000000000000000] }).port = .command 0x44000000000000000000 :: [] ∧
    tableRow 0x44000000000000000000 = none ∧ tableRow 0x01100000000000000000 = none := by decide

theorem witness_StepRunsTheDecodedCommand :
    ({ demo with port := [.command 0x32000000000000000000, .reset] }).port = .command 0x32000000000000000000 :: [.reset] ∧
    decode 0x32000000000000000000 = .ok .bcReadBit := by decide

theorem witness_IdleStepKeepsAllState : demo.port = [] := by decide

theorem witness_ResetGivesTheListedValues : ({ demo with port := [.reset] }).port = .reset :: [] ∧
    ({ demo with port := [.resetDuring 0x33010000000000000000 false] }).port =
      .resetDuring 0x33010000000000000000 false :: [] ∧
    ({ demo with port := [.resetDuring 0x33010000000000000000 true] }).port =
      .resetDuring 0x33010000000000000000 true :: [] ∧
    (∃ u, step { demo with port := [.command 0x33010000000000000000] } = .next u) ∧
    step { demo with surface := [], port := [.command 0x33010000000000000000] } = .fault .pixelAbsent :=
  ⟨rfl, rfl, rfl, ⟨_, rfl⟩, rfl⟩

theorem witness_AfterResetOnlyFourCommandsSucceed : ResetValues State.reset ∧ (∀ r v, Instr.kgSeek 0 ≠ .wrReg r v) ∧
    (∀ r, Instr.kgSeek 0 ≠ .rdReg r) ∧ Instr.kgSeek 0 ≠ .kgInit ∧ Instr.kgSeek 0 ≠ .ppGen := by
  refine ⟨by unfold ResetValues; decide, ?_, ?_, ?_, ?_⟩ <;> simp

theorem witness_AttachReplacesTheSurfaceBetweenSessions :
    ({ demo with port := [.attach [(⟨0, 0⟩, ⟨1, 2, 3, 4⟩)]] }).port = .attach [(⟨0, 0⟩, ⟨1, 2, 3, 4⟩)] :: [] ∧
    demo.bcActive = true ∧ State.reset.bcActive = false ∧
    ([((⟨0, 0⟩ : Point), (⟨1, 2, 3, 4⟩ : Pixel)), (⟨1, 0⟩, ⟨5, 6, 7, 8⟩)].map Prod.fst).Nodup := by decide

theorem witness_MissingSessionGivesNotActive :
    State.reset.kgActive = false ∧ State.reset.ppValid = false ∧ State.reset.bcActive = false ∧
    (∃ t, exec .kgInit State.reset = .next t) ∧ (∃ t, exec .ppGen State.reset = .next t) ∧
    (∃ t, exec (.wrReg .status 0) State.reset = .next t) ∧ (∃ t, exec (.rdReg .status) State.reset = .next t) ∧
    demo.Inv ∧ demo.bcActive = true :=
  ⟨rfl, rfl, rfl, ⟨_, rfl⟩, ⟨_, rfl⟩, ⟨_, rfl⟩, ⟨_, rfl⟩, demo_inv, rfl⟩

/-- A failing command of each kind that R238 tells apart. -/
theorem witness_FailedCommandLeavesOnlyListedEffects :
    (∃ t, exec (.cmWriteBit true) (demoAt 21 21) = .next t ∧ t.status = some 0x01) ∧
    (∃ t, exec .cmReadBit (demoAt 20 0x8000000000) = .next t ∧ t.status = some 0x03) ∧
    (∃ t, exec .ppGen { demo with width := 0x10000, height := 0x10001 } = .next t ∧ t.status = some 0x05) ∧
    (∃ t, exec (.bcSeek (-1) .fromCurrent) demo = .next t ∧ t.status = some 0x02) :=
  ⟨next_of_held (by decide +kernel), next_of_held (by decide +kernel), next_of_held (by decide +kernel),
    next_of_held (by decide +kernel)⟩

theorem witness_ResponsesCarryListedStatuses : WellFormed (.bcTell 20) = true ∧
    (∃ t, exec (.bcTell 20) demo = .next t ∧ t.rsp = some (rspWord 0 0x1A 0)) ∧
    ({ demo with port := [.command 0x44000000000000000000] }).port = .command 0x44000000000000000000 :: [] ∧
    decode 0x44000000000000000000 = .error .unassignedOpcode :=
  ⟨rfl, next_of_held (by decide +kernel), rfl, by decide⟩

theorem witness_StatusBitsChangeOnlyAsListed :
    (∃ t, exec (.wrReg .seed 1) demo = .next t ∧ t.status = some 0) ∧
    (∃ t, exec (.bcTell 21) demo = .next t ∧ t.status = some 1) ∧
    decode 0x31030000000000000000 = .error .reservedMode ∧
    ({ demo with port := [.command 0x31030000000000000000] }).port = .command 0x31030000000000000000 :: [] ∧
    ({ demo with port := [.reset] }).port = .reset :: [] ∧
    [3, 7, 16, 63].all (fun k => 3 ≤ k ∧ k ≤ 7 ∨ 16 ≤ k) = true :=
  ⟨next_of_held (by decide +kernel), next_of_held (by decide +kernel), by decide, rfl, rfl, by decide⟩

theorem witness_OnlyBitWritesChangeTheSurface : writesSurface .bcReadBit = false ∧ writesSurface .ppGen = false ∧
    (∃ t, exec .bcReadBit demo = .next t) ∧ (∃ t, exec .ppGen demo = .next t) := ⟨rfl, rfl, ⟨_, rfl⟩, ⟨_, rfl⟩⟩

/-- The last cell of `demo` (bit 6 of Blue), by both commands, and a position past the end, where no cell is. -/
theorem witness_BitWriteStoresOnlyItsPixel :
    (∃ t, exec (.bcWriteBit true) (demoAt 20 20) = .next t ∧ t.status = some 0) ∧
    (∃ t, exec (.cmWriteBit true) (demoAt 20 20) = .next t ∧ t.status = some 0) ∧
    (demoAt 20 20).tell (demoAt 20 20).bcPosition.toInt.toNat = some ⟨⟨0, 0⟩, .blue, 6⟩ ∧
    demo.surface.pixel ⟨0, 0⟩ = some ⟨0x80, 0x80, 0x80, 0xFF⟩ ∧
    (∃ t, exec (.bcWriteBit true) (demoAt 21 21) = .next t ∧ t.status = some 1) ∧
    (demoAt 21 21).tell (demoAt 21 21).bcPosition.toInt.toNat = none :=
  ⟨next_of_held (by decide +kernel), next_of_held (by decide +kernel), by decide, by decide,
    next_of_held (by decide +kernel), by decide⟩

theorem witness_OnlyWrRegChangesConfiguration : (∀ r v, Instr.bcReadBit ≠ .wrReg r v) ∧
    ∃ t, exec .bcReadBit demo = .next t := ⟨by simp, _, rfl⟩

theorem witness_SessionStateWrittenOnlyAsListed : (∃ t, exec (.bcTell 0) demo = .next t) ∧
    writesKgOffset (.bcTell 0) = false ∧ writesKgBlock (.bcTell 0) = false ∧ Instr.bcTell 0 ≠ .ppGen ∧
    writesBcPosition (.bcTell 0) = false ∧ Instr.bcTell 0 ≠ .bcInit :=
  ⟨⟨_, rfl⟩, rfl, rfl, by simp, rfl, by simp⟩

theorem witness_WrRegWritesAndEndsSessions : 0x06 < (0x07 : Byte).toNat ∧ 0x06 < (0xFF : Byte).toNat ∧ Reg.status.writable = false ∧ Reg.bcCapacity.writable = false ∧
    Reg.nonce.writable = true ∧ regLegal .nonce 0x100000000 = false ∧ regLegal .nonce 0xFFFFFFFF = true ∧
    Reg.chancfg.writable = true ∧ regLegal .chancfg 0x104 = false ∧ cfgLegal 0x101 = true ∧ cfgLegal 0x793 = true := by
  decide

theorem witness_RdRegReturnsTheRegister : (1 : Word64) ≠ 0 ∧
    (0x06 < (0x07 : Byte).toNat ∧ (0x0F : Byte).toNat < 0x10) ∧ 0x16 < (0x17 : Byte).toNat := by decide

theorem witness_ChanCfgHoldsOrderedChannelSets : regLegal .chancfg 0x101 = true ∧ cfgNumber [.red] 1 = 0x101 ∧
    regLegal .chancfg 0x793 = true ∧ cfgNumber [.red, .green, .blue] 7 = 0x793 ∧
    cfgNumber [.blue, .red] 7 = (0x70A : BitVec 11).toNat := by decide

theorem witness_KeyBytesArePackedLittleEndian : (0 : Nat) < 8 ∧ 7 < 8 := by decide

theorem witness_KgSeekSetsTheOffset : State.reset.kgActive = false ∧ demo.kgActive = true ∧ 0 ≤ (0 : Word64).toInt ∧
    0 ≤ (0x7FFFFFFFFFFFFFFF : Word64).toInt ∧ (0x8000000000000000 : Word64).toInt < 0 ∧ (-1 : Word64).toInt < 0 := by decide

theorem servable_bounds : Servable (0 : Word64).toInt ∧ Servable (0x7FFFFFFFFF : Word64).toInt ∧
    ¬ Servable (0x8000000000 : Word64).toInt ∧ ¬ Servable (-1 : Word64).toInt := by unfold Servable; decide

theorem witness_KgBitAtReturnsTheKeystreamBit : State.reset.kgActive = false ∧ demo.kgActive = true ∧ KgReady demo ∧ Servable (0 : Word64).toInt ∧
    Servable (0x7FFFFFFFFF : Word64).toInt ∧ ¬ Servable (0x8000000000 : Word64).toInt ∧ ¬ Servable (-1 : Word64).toInt :=
  ⟨rfl, rfl, ⟨rfl, demo_inv.kgCached rfl⟩, servable_bounds⟩

theorem witness_KgXorBitEncryptsAndAdvances : State.reset.kgActive = false ∧
    KgReady (demoAt 0 0x7FFFFFFFFF) ∧ Servable (demoAt 0 0x7FFFFFFFFF).kgOffset.toInt ∧
    (demoAt 0 0x8000000000).kgActive = true ∧ ¬ Servable (demoAt 0 0x8000000000).kgOffset.toInt :=
  ⟨rfl, demoAt_kgReady _ _, servable_bounds.2.1, rfl, servable_bounds.2.2.1⟩

theorem witness_KeystreamRunsLeastSignificantBitFirst : (0 : Nat) < 16 ∧ 15 < 16 ∧ (0 : Nat) < 8 ∧ 7 < 8 := by decide

theorem witness_KeystreamIgnoresHistory : KgReady (demoAt 0 5) ∧ KgReady (demoAt 3 5) ∧
    (demoAt 0 5).key = (demoAt 3 5).key ∧ (demoAt 0 5).nonce = (demoAt 3 5).nonce ∧
    (demoAt 0 5).kgOffset = (demoAt 3 5).kgOffset := ⟨demoAt_kgReady _ _, demoAt_kgReady _ _, rfl, rfl, rfl⟩

theorem witness_XorBitTwiceGivesTheBitBack : KgReady (demoAt 0 5) ∧ KgReady (demoAt 3 5) ∧
    (demoAt 0 5).key = (demoAt 3 5).key ∧ (demoAt 0 5).nonce = (demoAt 3 5).nonce ∧
    (demoAt 0 5).kgOffset = (demoAt 3 5).kgOffset ∧ Servable (demoAt 0 5).kgOffset.toInt :=
  ⟨demoAt_kgReady _ _, demoAt_kgReady _ _, rfl, rfl, rfl, by unfold Servable; decide⟩

theorem witness_SboxIsTheAffineInverse : (0 : Byte) = 0 ∧ (0x53 : Byte) ≠ 0 := by decide

theorem witness_PpGenBuildsTheTable :
    (0x10000 : Word32).toNat * (0x10000 : Word32).toNat ≤ 2 ^ 32 ∧ (0 : Word32).toNat * (5 : Word32).toNat ≤ 2 ^ 32 ∧
    2 ^ 32 < (0x10000 : Word32).toNat * (0x10001 : Word32).toNat := by decide

theorem witness_GeneratedTableIsABijection :
    (∃ t, exec .ppGen demo = .next t ∧ t.status = some 0) ∧ (generate Config.prng 1 1 0)[0]? = some ⟨0, 0⟩ ∧
    (0 : Word32).toNat < (1 : Word32).toNat :=
  ⟨⟨_, rfl, by decide +kernel⟩, rfl, by decide⟩

theorem witness_EqualSeedsGiveEqualTables : demo.width = (demoAt 3 5).width ∧ demo.height = (demoAt 3 5).height ∧
    demo.seed = (demoAt 3 5).seed ∧ demo.width.toNat * demo.height.toNat ≤ 2 ^ 32 := ⟨rfl, rfl, rfl, by decide⟩

theorem witness_PpPointReturnsTheEntry : demo.Inv ∧ demo.ppValid = true ∧
    (0 : Word64).toNat < demo.ppW.toNat * demo.ppH.toNat ∧ demo.ppW.toNat * demo.ppH.toNat ≤ (1 : Word64).toNat ∧
    State.reset.ppValid = false := ⟨demo_inv, rfl, by decide, by decide, rfl⟩

theorem witness_BcInitCreatesTheCursor : State.reset.ppValid = false ∧ demo.ppValid = true ∧ demo.ppW.toNat * demo.ppH.toNat ≤ 2 ^ 32 := by decide

/-- BC and CM commands without a session (the last clauses of their statements). -/
theorem witness_noSession : State.reset.bcActive = false ∧ State.reset.kgActive = false ∧
    ({ demo with kgActive := false }).bcActive = true := by decide

/-- Each clause of a seek at the ends of its range: candidates -1, 0, 20 and 21 of capacity 21, in the three modes. -/
theorem witness_BcSeekCommitsInRangeCandidates : demo.bcActive = true ∧
    ([(-1 : Word64), 0, 20, 21].map fun n => n.toInt) = [-1, 0, 20, 21] ∧
    ([(-6 : Word64), -5, 15, 16].map fun n => (demoAt 5 5).bcPosition.toInt + n.toInt) = [-1, 0, 20, 21] ∧
    ([(-22 : Word64), -21, -1, 0].map fun n => (demo.bcCapacity.toNat : Int) + n.toInt) = [-1, 0, 20, 21] := by decide

theorem demoAt_onCell : OnCell (demoAt 0 0) ⟨⟨0, 0⟩, .red, 0⟩ ⟨0x80, 0x80, 0x80, 0xFF⟩ ∧
    OnCell (demoAt 20 20) ⟨⟨0, 0⟩, .blue, 6⟩ ⟨0x80, 0x80, 0x80, 0xFF⟩ ∧
    OnCell (demoAt 20 0x8000000000) ⟨⟨0, 0⟩, .blue, 6⟩ ⟨0x80, 0x80, 0x80, 0xFF⟩ := by unfold OnCell; decide

theorem demoAt_atEnd : AtEnd (demoAt 21 21) ∧ AtEnd (demoAt (-1) 0) ∧ ¬ AtEnd (demoAt 20 20) := by unfold AtEnd; decide

theorem witness_BcReadBitReturnsTheCell : (demoAt 20 20).bcActive = true ∧
    OnCell (demoAt 20 20) ⟨⟨0, 0⟩, .blue, 6⟩ ⟨0x80, 0x80, 0x80, 0xFF⟩ ∧ AtEnd (demoAt 21 21) ∧ AtEnd (demoAt (-1) 0) :=
  ⟨rfl, demoAt_onCell.2.1, demoAt_atEnd.1, demoAt_atEnd.2.1⟩

theorem witness_BcWriteBitStoresTheCell : (demoAt 0 0).bcActive = true ∧
    OnCell (demoAt 0 0) ⟨⟨0, 0⟩, .red, 0⟩ ⟨0x80, 0x80, 0x80, 0xFF⟩ ∧ (0 : Nat) < 8 ∧ AtEnd (demoAt 21 21) :=
  ⟨rfl, demoAt_onCell.1, by decide, demoAt_atEnd.1⟩

theorem witness_BcTellReturnsTheCell : demo.Inv ∧ demo.bcActive = true ∧ 0 ≤ (20 : Word64).toInt ∧
    (20 : Word64).toInt < (demo.bcCapacity.toNat : Int) ∧ (demo.bcCapacity.toNat : Int) ≤ (21 : Word64).toInt ∧
    (-1 : Word64).toInt < 0 := ⟨demo_inv, rfl, by decide, by decide, by decide, by decide⟩

/-- `demo` without a surface, and `demo` without a table. -/
theorem witness_AbsentPixelStopsTheMachine : ¬ AtEnd { demo with surface := [] } ∧
    ({ demo with surface := [] }).tell 0 = some ⟨⟨0, 0⟩, .red, 0⟩ ∧ Memory.pixel [] ⟨0, 0⟩ = none ∧
    ¬ AtEnd { demo with ppPoints := [] } ∧ ({ demo with ppPoints := [] }).tell (0 : Word64).toInt.toNat = none ∧
    ({ demo with ppPoints := [] }).ppPoints[(0 : Word64).toNat]? = none ∧ demo.ppValid = true ∧
    (0 : Word64).toNat < demo.ppW.toNat * demo.ppH.toNat ∧ 0 ≤ (0 : Word64).toInt ∧
    (0 : Word64).toInt < (demo.bcCapacity.toNat : Int) ∧
    demo.kgActive = true ∧ demo.bcActive = true ∧ Servable demo.kgOffset.toInt := by unfold AtEnd Servable; decide

theorem witness_TellNumbersTheBitCells : demo.Inv ∧ demo.bcActive = true ∧ 0 < demo.bcCapacity.toNat ∧
    20 < demo.bcCapacity.toNat ∧ demo.tell 20 = some ⟨⟨0, 0⟩, .blue, 6⟩ ∧ Channel.blue ∈ demo.bcChans ∧
    6 < demo.bcBpc.toNat ∧ (0 : Word32).toNat < demo.ppW.toNat ∧ (0 : Word32).toNat < demo.ppH.toNat :=
  ⟨demo_inv, rfl, by decide, by decide, by decide, by decide, by decide, by decide, by decide⟩

theorem witness_ReadAfterWriteReturnsTheBit : ∃ t, demo.Inv ∧ demo.bcActive = true ∧
    exec (.bcWriteBit true) demo = .next t ∧ t.status = some 0 ∧ t.Inv ∧ t.bcActive = true ∧
    t.bcCapacity = t.bcCapacity ∧ t.cellBit demo.bcPosition.toNat = t.cellBit demo.bcPosition.toNat :=
  ⟨_, demo_inv, rfl, rfl, by decide,
    State.Inv.respond (State.Inv.storeCell demo_inv (by decide) ⟨⟨0, 0⟩, .red, 0⟩ ⟨0x80, 0x80, 0x80, 0xFF⟩ true) 0 0,
    rfl, rfl, rfl⟩

theorem witness_WriteChangesNoOtherCell : demo.Inv ∧ demo.bcActive = true ∧
    (∃ t, exec (.bcWriteBit true) demo = .next t ∧ t.status = some 0) ∧ 20 < demo.bcCapacity.toNat ∧
    20 ≠ demo.bcPosition.toNat := ⟨demo_inv, rfl, next_of_held (by decide +kernel), by decide, by decide⟩

theorem witness_CapacityBitsFitAndNoMore : demo.Inv ∧ demo.bcActive = true ∧ demo.bcPosition = 0 ∧
    demo.surface.Covers demo.ppW.toNat demo.ppH.toNat ∧
    (List.replicate 21 true).length = demo.bcCapacity.toNat :=
  ⟨demo_inv, rfl, rfl, demo_covers, by decide⟩

theorem witness_CmSeekMovesBothPositions : demo.kgActive = true ∧ demo.bcActive = true ∧
    ([(-1 : Word64), 0, 20, 21].map fun n => n.toInt) = [-1, 0, 20, 21] ∧
    ([(-6 : Word64), -5, 15, 16].map fun n => (demoAt 5 5).bcPosition.toInt + n.toInt) = [-1, 0, 20, 21] ∧
    ([(-22 : Word64), -21, -1, 0].map fun n => (demo.bcCapacity.toNat : Int) + n.toInt) = [-1, 0, 20, 21] := by decide

theorem witness_CmReadBitDecrypts : KgReady (demoAt 20 20) ∧ (demoAt 20 20).bcActive = true ∧
    OnCell (demoAt 20 20) ⟨⟨0, 0⟩, .blue, 6⟩ ⟨0x80, 0x80, 0x80, 0xFF⟩ ∧ Servable (demoAt 20 20).kgOffset.toInt ∧
    AtEnd (demoAt 21 21) ∧ OnCell (demoAt 20 0x8000000000) ⟨⟨0, 0⟩, .blue, 6⟩ ⟨0x80, 0x80, 0x80, 0xFF⟩ ∧
    ¬ Servable (demoAt 20 0x8000000000).kgOffset.toInt :=
  ⟨demoAt_kgReady _ _, rfl, demoAt_onCell.2.1, by unfold Servable; decide, demoAt_atEnd.1, demoAt_onCell.2.2,
    servable_bounds.2.2.1⟩

theorem witness_CmWriteBitEncrypts : KgReady (demoAt 20 20) ∧ (demoAt 20 20).bcActive = true ∧
    OnCell (demoAt 20 20) ⟨⟨0, 0⟩, .blue, 6⟩ ⟨0x80, 0x80, 0x80, 0xFF⟩ ∧ Servable (demoAt 20 20).kgOffset.toInt ∧
    ¬ Servable (demoAt 20 0x8000000000).kgOffset.toInt ∧ KgReady (demoAt 21 21) ∧ AtEnd (demoAt 21 21) ∧
    Servable (demoAt 21 21).kgOffset.toInt :=
  ⟨demoAt_kgReady _ _, rfl, demoAt_onCell.2.1, by unfold Servable; decide, servable_bounds.2.2.1, demoAt_kgReady _ _,
    demoAt_atEnd.1, by unfold Servable; decide⟩

theorem witness_CmCommandsKeepPositionsEqual :
    (∃ t, exec (.cmSeek (-1) .fromEnd) demo = .next t ∧ t.status = some 0) ∧ demo.Synced ∧
    (∃ t, exec .cmReadBit demo = .next t ∧ t.status = some 0) ∧
    (∃ t, exec (.cmWriteBit true) demo = .next t ∧ t.status = some 0) ∧
    (okRun [.kgInit, .bcInit] { demo with kgActive := false, bcActive := false }).isSome = true :=
  ⟨next_of_held (by decide +kernel), rfl, next_of_held (by decide +kernel), next_of_held (by decide +kernel),
    by decide +kernel⟩

/-- What the session that seeks to cell 20 and writes 1 leaves (the keystream bit there is bit 4 of `0xC0`, which is 0). -/
def demoWritten : State :=
  { demoAt 21 21 with
    surface := Memory.ofPixels [(⟨0, 0⟩, ⟨0x80, 0x80, 0xC0, 0xFF⟩)], rsp := some (rspWord 0 0 0) }

theorem inv_written {s : State} (h : s.Inv) {m : Memory} (hm : m.wf) (d : Word64) :
    ({ s with surface := m, rsp := some (rspWord 0 0 d) }).Inv := (h.setSurface m hm).respond 0 d

theorem demoWritten_inv : demoWritten.Inv := inv_written (demoAt_inv 21 21 (by decide) (by decide)) (by decide) 0

theorem witness_CmSeekReadAfterSeekWriteReturnsTheBit : demo.Inv ∧ demo.kgActive = true ∧ demo.bcActive = true ∧
    okRun [.cmSeek 20 .fromStart, .cmWriteBit true] demo = some demoWritten ∧ demoWritten.Inv ∧
    demoWritten.kgActive = true ∧ demoWritten.bcActive = true :=
  ⟨demo_inv, rfl, rfl, by decide +kernel, demoWritten_inv, rfl, rfl⟩

theorem witness_EveryStepKeepsTheInvariant : demo.Inv ∧
    ({ demo with port := [.command 0x33010000000000000000] }).Inv ∧
    ∃ t, step { demo with port := [.command 0x33010000000000000000] } = .next t :=
  ⟨demo_inv, State.Inv.setPort demo_inv _, _, rfl⟩

/-- Two passphrases that share their first 16 bytes; an index inside and one outside a short passphrase. -/
theorem witness_KeyIsThePaddedPassphrase : 15 < 16 ∧ 16 ≤ (List.replicate 16 (0x61 : Byte)).length ∧
    16 ≤ (List.replicate 16 (0x61 : Byte) ++ [0x62]).length ∧
    (List.replicate 16 (0x61 : Byte)).take 16 = (List.replicate 16 (0x61 : Byte) ++ [0x62]).take 16 := by decide

theorem witness_LengthFieldIsLittleEndian : (3 : Nat) < 4 ∧ 2 ^ 32 - 1 < 2 ^ 32 := by decide

theorem witness_ByteAdapterReadsBackWhatItWrote : demo.Inv ∧ CursorReady .ciphered demo ∧ CursorReady .raw demo ∧
    demo.surface.Covers demo.ppW.toNat demo.ppH.toNat ∧
    8 * (1 + ([0xA5] : List Byte).length) ≤ demo.bcCapacity.toNat ∧ 8 * 1 < demo.bcCapacity.toNat ∧
    8 * (2 + ([] : List Byte).length) ≤ demo.bcCapacity.toNat ∧ 8 * 2 < demo.bcCapacity.toNat :=
  ⟨demo_inv, ⟨rfl, fun _ => rfl⟩, ⟨rfl, fun _ => rfl⟩, demo_covers, by decide, by decide, by decide, by decide⟩

/-- Parameters with an empty digest, on a `w` x 1 surface with 7 bits of each channel. -/
def demoParams (w : Word32) : HostParams where
  seedHash := fun _ => Block.zero
  frameHash := ⟨0, fun _ => #v[]⟩
  pad := Config.padByte
  nonce := 0
  width := w
  height := 1
  chancfg := 0x793

theorem witness_PreflightRefusesBeforeAnyWrite : cfgLegal (demoParams 1).chancfg = true ∧
    (demoParams 1).width.toNat * (demoParams 1).height.toNat ≤ 2 ^ 32 ∧
    (demoParams 1).width.toNat * (demoParams 1).height.toNat * (cfgChannels (demoParams 1).chancfg).length *
      (cfgBpc (demoParams 1).chancfg).toNat < 8 * (4 + ([] : List Byte).length + (demoParams 1).frameHash.ds) := by decide

def lentPixels : List (Point × Pixel) := [(⟨0, 0⟩, ⟨1, 2, 3, 4⟩), (⟨1, 0⟩, ⟨5, 6, 7, 8⟩)]

/-- A 2 x 1 surface: 42 cells hold the frame of one byte (40 bits). -/
def lent : State :=
  { demo with surface := Memory.ofPixels lentPixels }

theorem lent_covers : (Memory.ofPixels lentPixels).Covers 2 1 := by
  intro p hx hy
  obtain ⟨x, y⟩ := p
  have hy : y.toNat < 1 := hy
  have hy : y = 0 := BitVec.eq_of_toNat_eq (by simp; omega)
  have hxv : x = 0 ∨ x = 1 := by
    have hx : x.toNat < 2 := hx
    rcases Nat.lt_or_ge x.toNat 1 with h | h
    · exact .inl (BitVec.eq_of_toNat_eq (by simp; omega))
    · exact .inr (BitVec.eq_of_toNat_eq (by simp; omega))
  subst hy
  rcases hxv with rfl | rfl
  · exact ⟨_, (by decide : (Memory.ofPixels lentPixels).pixel ⟨0, 0⟩ = some ⟨1, 2, 3, 4⟩)⟩
  · exact ⟨_, (by decide : (Memory.ofPixels lentPixels).pixel ⟨1, 0⟩ = some ⟨5, 6, 7, 8⟩)⟩

theorem lentParams_cover :
    (Memory.ofPixels lentPixels).Covers (demoParams 2).width.toNat (demoParams 2).height.toNat := by
  have hw : (demoParams 2).width.toNat = 2 := by decide
  have hh : (demoParams 2).height.toNat = 1 := by decide
  rw [hw, hh]
  exact lent_covers

theorem lent_inv : lent.Inv := State.Inv.setSurface demo_inv _ (by decide)

theorem witness_DecodeOfEncodeIsThePayload : FrameFits (demoParams 2) ([0x41] : List Byte).length ∧ lent.Inv ∧
    lent.surface.Covers (demoParams 2).width.toNat (demoParams 2).height.toNat ∧ ({ lent with port := [.reset] }).Inv := by
  refine ⟨by unfold FrameFits; decide, lent_inv, ?_, lent_inv.setPort _⟩
  simp only [lent]
  exact lentParams_cover

/-- The clause with attached surfaces: whatever surface the encode leaves, there is a list of its pixels to lend. -/
theorem witness_DecodeOfEncodeIsThePayload_lent :
    (Memory.ofPixels lentPixels).Covers (demoParams 2).width.toNat
      (demoParams 2).height.toNat ∧
    ∀ t : State, ∃ lent : List (Point × Pixel), (lent.map Prod.fst).Nodup ∧
      ∀ q px, (q, px) ∈ lent ↔ t.surface.pixel q = some px :=
  And.intro lentParams_cover fun t => Memory.exists_listing t.surface

end Sys2Proof.Tests
end

section
/-! The STATUS register (10_state R29): where its bits stand, which commands leave it alone, and what each of the others
leaves in it. -/

namespace Sys2Proof.Machine

open Sys2Proof.Claims

variable {i : Instr} {st : Byte} {s t u : State}

/-! ### The bits of the word -/

/-- Every bit of `STATUS` in one equation. -/
theorem State.statusWord_getLsbD (s : State) (k : Nat) :
    s.statusWord.getLsbD k =
      if k = 0 then s.kgActive else if k = 1 then s.ppValid else if k = 2 then s.bcActive
      else decide (8 ≤ k) && s.err.getLsbD (k - 8) := by
  simp only [State.statusWord, flagBit, BitVec.getLsbD_append, BitVec.getLsbD_ofBool]
  rcases k with _ | _ | _ | k
  · simp
  · simp
  · simp
  · by_cases h5 : k < 5
    · simp [h5]
    · simpa [h5, show k + 3 - 8 = k - 5 by omega, show 5 ≤ k by omega] using BitVec.lt_of_getLsbD

theorem State.statusWord_kgActive (s : State) : s.statusWord.getLsbD 0 = s.kgActive := s.statusWord_getLsbD 0

theorem State.statusWord_ppValid (s : State) : s.statusWord.getLsbD 1 = s.ppValid := s.statusWord_getLsbD 1

theorem State.statusWord_bcActive (s : State) : s.statusWord.getLsbD 2 = s.bcActive := s.statusWord_getLsbD 2

theorem State.statusWord_err (s : State) : s.statusWord.extractLsb' 8 8 = s.err := by
  apply BitVec.eq_of_getLsbD_eq
  intro k hk
  simp only [BitVec.getLsbD_extractLsb', State.statusWord_getLsbD]
  simp [hk, show ¬ 8 + k = 1 by omega, show ¬ 8 + k = 2 by omega]

/-- The reserved bits. -/
theorem State.statusWord_reserved (s : State) {k : Nat} (hk : 3 ≤ k ∧ k ≤ 7 ∨ 16 ≤ k) :
    s.statusWord.getLsbD k = false := by
  rw [State.statusWord_getLsbD, if_neg (by omega), if_neg (by omega), if_neg (by omega)]
  rcases hk with ⟨-, hk⟩ | hk
  · simp [show ¬ 8 ≤ k by omega]
  · simp [BitVec.getLsbD_of_ge s.err (k - 8) (by omega)]

/-- The word determines the three flags and the latch. -/
theorem State.fields_of_statusWord_eq (h : u.statusWord = s.statusWord) :
    u.kgActive = s.kgActive ∧ u.ppValid = s.ppValid ∧ u.bcActive = s.bcActive ∧ u.err = s.err := by
  refine ⟨?_, ?_, ?_, ?_⟩
  · rw [← u.statusWord_kgActive, ← s.statusWord_kgActive, h]
  · rw [← u.statusWord_ppValid, ← s.statusWord_ppValid, h]
  · rw [← u.statusWord_bcActive, ← s.statusWord_bcActive, h]
  · rw [← u.statusWord_err, ← s.statusWord_err, h]

/-! ### Updates that do not touch the word -/

@[simp] theorem State.refresh_statusWord (s : State) (k : Nat) : (s.refresh k).statusWord = s.statusWord := by
  simp [State.statusWord]

@[simp] theorem State.advanceKg_statusWord (s : State) : s.advanceKg.statusWord = s.statusWord := rfl

@[simp] theorem State.advanceBc_statusWord (s : State) : s.advanceBc.statusWord = s.statusWord := rfl

@[simp] theorem State.storeCell_statusWord (s : State) (c : BitCell) (px : Pixel) (b : Bool) :
    (s.storeCell c px b).statusWord = s.statusWord := rfl

/-! ### What a command leaves in the flags and the latch -/

/-- The flags and the latch of `t` are what the rows of R29 give for command `i` begun in `s`, by the status that `t`
answers. -/
def StatusAsListed (i : Instr) (s t : State) : Prop :=
  ∀ st, t.status = some st →
    t.kgActive = kgActiveAfter i st s ∧ t.ppValid = ppValidAfter i st s ∧ t.bcActive = bcActiveAfter i st s ∧
    t.err = if s.err = 0 then st else s.err

/-- In `u` the flags stand as command `i` leaves them when it answers `st`, and the latch is still that of `s`. -/
structure FlagsAsListed (i : Instr) (st : Byte) (s u : State) : Prop where
  kgActive : u.kgActive = kgActiveAfter i st s
  ppValid : u.ppValid = ppValidAfter i st s
  bcActive : u.bcActive = bcActiveAfter i st s
  err : u.err = s.err

theorem FlagsAsListed.raise {e : Err} (h : FlagsAsListed i e.code s u) : StatusAsListed i s (u.raise e) := by
  intro st hst
  obtain rfl : e.code = st := by simpa using hst
  simpa [h.err] using ⟨h.kgActive, h.ppValid, h.bcActive⟩

/-- A success leaves the latch as it was: it latches OK, which is the 0 that was there. -/
theorem FlagsAsListed.respond (h : FlagsAsListed i 0 s u) (aux : Byte) (data : Word64) :
    StatusAsListed i s (u.respond aux data) := by
  intro st hst
  obtain rfl : 0 = st := by simpa using hst
  have herr : u.err = if s.err = 0 then 0 else s.err := by
    rw [h.err]
    split
    · assumption
    · rfl
  exact ⟨h.kgActive, h.ppValid, h.bcActive, herr⟩

/-! ### The commands that no row of R29 lists -/

/-- The commands that no "set by" or "cleared by" entry of R29 names. -/
def keepsFlags : Instr → Bool
  | .rdReg _ | .kgSeek _ | .kgBitAt _ | .kgXorBit _ | .ppPoint _ | .bcSeek _ _ | .bcReadBit | .bcWriteBit _ | .bcTell _
  | .cmSeek _ _ | .cmReadBit | .cmWriteBit _ => true
  | .wrReg _ _ | .kgInit | .ppGen | .bcInit => false

theorem flagsAfter_of_keepsFlags (hk : keepsFlags i = true) (st : Byte) (s : State) :
    kgActiveAfter i st s = s.kgActive ∧ ppValidAfter i st s = s.ppValid ∧ bcActiveAfter i st s = s.bcActive := by
  cases i with
  | wrReg | kgInit | ppGen | bcInit => cases hk
  | rdReg | kgSeek | kgBitAt | kgXorBit | ppPoint | bcSeek | bcReadBit | bcWriteBit | bcTell | cmSeek | cmReadBit
  | cmWriteBit => exact ⟨rfl, rfl, rfl⟩

theorem FlagsAsListed.of_keepsFlags (hk : keepsFlags i = true) (h : u.statusWord = s.statusWord) (st : Byte) :
    FlagsAsListed i st s u := by
  obtain ⟨hkg, hpp, hbc⟩ := flagsAfter_of_keepsFlags hk st s
  obtain ⟨ukg, upp, ubc, uerr⟩ := State.fields_of_statusWord_eq h
  exact ⟨ukg.trans hkg.symm, upp.trans hpp.symm, ubc.trans hbc.symm, uerr⟩

/-- `t` is the answer, an error or a success, given from a state with the `STATUS` of `s`. -/
def AnswersWithStatusOf (s t : State) : Prop :=
  ∃ u : State, u.statusWord = s.statusWord ∧ ((∃ e, t = u.raise e) ∨ ∃ aux data, t = u.respond aux data)

theorem AnswersWithStatusOf.raise (h : u.statusWord = s.statusWord) (e : Err) : AnswersWithStatusOf s (u.raise e) :=
  ⟨u, h, .inl ⟨e, rfl⟩⟩

theorem AnswersWithStatusOf.respond (h : u.statusWord = s.statusWord) (aux : Byte) (data : Word64) :
    AnswersWithStatusOf s (u.respond aux data) :=
  ⟨u, h, .inr ⟨aux, data, rfl⟩⟩

/-- A command that no row lists answers from a state with the `STATUS` it found. -/
theorem exec_answersWithStatusOf (hk : keepsFlags i = true) (h : exec i s = .next t) : AnswersWithStatusOf s t := by
  cases i with
  | wrReg | kgInit | ppGen | bcInit => cases hk
  | rdReg r =>
    obtain rfl := execRdReg_next h
    exact .respond rfl _ _
  | kgSeek off =>
    rcases execKgSeek_next h with ⟨-, rfl⟩ | ⟨-, -, rfl⟩ | ⟨-, -, rfl⟩
    · exact .raise rfl _
    · exact .raise rfl _
    · exact .respond (by rfl) _ _
  | kgBitAt off =>
    rcases execKgBitAt_next h with ⟨-, rfl⟩ | ⟨-, rfl⟩ | ⟨-, -, -, rfl⟩
    · exact .raise rfl _
    · exact .raise rfl _
    · exact .respond (by simp) _ _
  | kgXorBit bit =>
    rcases execKgXorBit_next h with ⟨-, rfl⟩ | ⟨-, rfl⟩ | ⟨-, -, -, rfl⟩
    · exact .raise rfl _
    · exact .raise rfl _
    · exact .respond (by simp) _ _
  | ppPoint k =>
    rcases execPpPoint_next h with ⟨-, rfl⟩ | ⟨-, rfl⟩ | ⟨-, p, -, rfl⟩
    · exact .raise rfl _
    · exact .raise rfl _
    · exact .respond rfl _ _
  | bcSeek n mode =>
    rcases execBcSeek_next h with ⟨-, rfl⟩ | ⟨-, rfl | rfl⟩ | ⟨-, c, -, -, -, rfl⟩
    · exact .raise rfl _
    · exact .raise rfl _
    · exact .raise rfl _
    · exact .respond (by rfl) _ _
  | bcReadBit =>
    rcases execBcReadBit_next h with ⟨-, rfl⟩ | ⟨-, -, rfl⟩ | ⟨-, -, c, px, -, -, rfl⟩
    · exact .raise rfl _
    · exact .raise rfl _
    · exact .respond (by simp) _ _
  | bcWriteBit bit =>
    rcases execBcWriteBit_next h with ⟨-, rfl⟩ | ⟨-, -, rfl⟩ | ⟨-, -, c, px, -, -, rfl⟩
    · exact .raise rfl _
    · exact .raise rfl _
    · exact .respond (by simp) _ _
  | bcTell p =>
    rcases execBcTell_next h with ⟨-, rfl⟩ | ⟨-, rfl⟩ | ⟨-, c, -, rfl⟩
    · exact .raise rfl _
    · exact .raise rfl _
    · exact .respond rfl _ _
  | cmSeek n mode =>
    rcases execCmSeek_next h with ⟨-, rfl⟩ | ⟨-, rfl | rfl⟩ | ⟨-, c, -, -, -, rfl⟩
    · exact .raise rfl _
    · exact .raise rfl _
    · exact .raise rfl _
    · exact .respond (by rfl) _ _
  | cmReadBit =>
    rcases execCmReadBit_next h with ⟨-, rfl⟩ | ⟨-, -, rfl⟩ | ⟨-, -, rfl⟩ | ⟨-, -, -, -, c, px, -, -, rfl⟩
    · exact .raise rfl _
    · exact .raise rfl _
    · exact .raise (by simp) _
    · exact .respond (by simp) _ _
  | cmWriteBit bit =>
    rcases execCmWriteBit_next h with ⟨-, rfl⟩ | ⟨-, rfl⟩ | ⟨-, -, -, ⟨-, rfl⟩ | ⟨-, c, px, -, -, rfl⟩⟩
    · exact .raise rfl _
    · exact .raise rfl _
    · exact .raise (by simp) _
    · exact .respond (by simp) _ _

theorem statusAsListed_of_keepsFlags (hk : keepsFlags i = true) (h : exec i s = .next t) : StatusAsListed i s t := by
  obtain ⟨u, hu, ⟨e, rfl⟩ | ⟨aux, data, rfl⟩⟩ := exec_answersWithStatusOf hk h
  · exact (FlagsAsListed.of_keepsFlags hk hu e.code).raise
  · exact (FlagsAsListed.of_keepsFlags hk hu 0).respond aux data

/-! ### The commands that a row of R29 lists -/

/-- A failed SYS.WRREG clears no flag. -/
theorem statusAsListed_wrReg_raise (r : Reg) (v : Word64) (s : State) (e : Err) :
    StatusAsListed (.wrReg r v) s (s.raise e) :=
  FlagsAsListed.raise
    ⟨by simp [kgActiveAfter], by simp [ppValidAfter], by simp [bcActiveAfter], rfl⟩

/-- The flags that `endSessions` clears (R41) are those that the "cleared by" column gives for a written register. -/
theorem flagsAsListed_wrReg (r : Reg) (v : Word64) (s : State) :
    FlagsAsListed (.wrReg r v) 0 s ((s.writeReg r v).endSessions r) := by
  cases r <;> exact ⟨rfl, rfl, rfl, rfl⟩

theorem statusAsListed_wrReg {r : Reg} {v : Word64} (h : exec (.wrReg r v) s = .next t) :
    StatusAsListed (.wrReg r v) s t := by
  rcases execWrReg_next h with ⟨-, rfl⟩ | ⟨-, -, rfl⟩ | ⟨-, -, rfl⟩
  · exact statusAsListed_wrReg_raise r v s _
  · exact statusAsListed_wrReg_raise r v s _
  · exact (flagsAsListed_wrReg r v s).respond _ _

theorem statusAsListed_kgInit (h : exec .kgInit s = .next t) : StatusAsListed .kgInit s t := by
  obtain rfl := execKgInit_next h
  apply FlagsAsListed.respond
  exact ⟨rfl, rfl, rfl, rfl⟩

theorem statusAsListed_ppGen (h : exec .ppGen s = .next t) : StatusAsListed .ppGen s t := by
  rcases execPpGen_next h with ⟨-, rfl⟩ | ⟨-, rfl⟩
  · exact FlagsAsListed.raise ⟨rfl, rfl, rfl, rfl⟩
  · apply FlagsAsListed.respond
    exact ⟨rfl, rfl, rfl, rfl⟩

theorem statusAsListed_bcInit (h : exec .bcInit s = .next t) : StatusAsListed .bcInit s t := by
  rcases execBcInit_next h with ⟨-, rfl⟩ | ⟨-, rfl⟩
  · exact FlagsAsListed.raise ⟨rfl, rfl, rfl, rfl⟩
  · apply FlagsAsListed.respond
    exact ⟨rfl, rfl, rfl, rfl⟩

/-! ### Every command and every input -/

theorem exec_statusAsListed (i : Instr) (h : exec i s = .next t) : StatusAsListed i s t := by
  cases i with
  | wrReg r v => exact statusAsListed_wrReg h
  | kgInit => exact statusAsListed_kgInit h
  | ppGen => exact statusAsListed_ppGen h
  | bcInit => exact statusAsListed_bcInit h
  | rdReg | kgSeek | kgBitAt | kgXorBit | ppPoint | bcSeek | bcReadBit | bcWriteBit | bcTell | cmSeek | cmReadBit
  | cmWriteBit => exact statusAsListed_of_keepsFlags rfl h

theorem step_illegalWord {cw : CmdWord} {rest : List PortInput} {e : Reject} (hp : s.port = .command cw :: rest)
    (hd : decode cw = .error e) : step s = .next (({ s with port := rest } : State).raise .illegalCommand) := by
  simp [step, hp, takeInput, runWord, hd]

theorem step_reset {rest : List PortInput} (hp : s.port = .reset :: rest) :
    step s = .next ({ s with port := rest } : State).takeReset := by
  simp [step, hp, takeInput]

end Sys2Proof.Machine

open Sys2Proof Sys2Proof.Machine

/-- Settles O16: the bits by the equation of the word, each command by its inversion lemma, an illegal word and the reset
by the step they take. -/
theorem statusBitsChangeOnlyAsListed : Obligations.StatusBitsChangeOnlyAsListed := by
  unfold Obligations.StatusBitsChangeOnlyAsListed
  refine ⟨fun s => ⟨s.statusWord_kgActive, s.statusWord_ppValid, s.statusWord_bcActive, s.statusWord_err,
    fun _ hk => s.statusWord_reserved hk⟩,
    fun i s t st h => exec_statusAsListed i h st, ?_, ?_⟩
  · intro s cw rest e hp hd
    exact ⟨_, step_illegalWord hp hd, by simp, by simp, by simp, by simp [Err.code]⟩
  · intro s rest hp
    exact ⟨_, step_reset hp, rfl, rfl, rfl, rfl⟩

end

section
/-! The order of the keystream's bits within a block (20_memory R65) and the bytes of the cipher's input (20_memory R66). -/

namespace Sys2Proof.Machine

theorem Block.length_toList (b : Block) : b.toList.length = 16 := rfl

/-- The 128 offsets from `128 * c` on lie in the block with counter `c`. -/
theorem counterOf_add {r : Nat} (hr : r < 128) (c : Word32) : counterOf (128 * c.toNat + r) = c := by
  have hdiv : (128 * c.toNat + r) / 128 = c.toNat := by omega
  rw [counterOf, Config.blockBits, hdiv, BitVec.ofNat_toNat, BitVec.setWidth_eq]

/-- Bit `t` of byte `j` of a block is read at every offset that leaves `8 * j + t` beyond whole blocks. -/
theorem blockBit_add {j t : Nat} (hj : j < 16) (ht : t < 8) (b : Block) (n : Nat) :
    blockBit b (128 * n + 8 * j + t) = (b.toList.getD j 0).getLsbD t := by
  have hbyte : (128 * n + 8 * j + t) / 8 % 16 = j := by omega
  have hbit : (128 * n + 8 * j + t) % 8 = t := by omega
  rw [blockBit, Config.blockBytes, hbyte, hbit]

theorem ks_add {j t : Nat} (hj : j < 16) (ht : t < 8) (key : Block) (nonce c : Word32) :
    ks key nonce (128 * c.toNat + 8 * j + t) = ((ksBlock key nonce c).toList.getD j 0).getLsbD t := by
  have hcounter : counterOf (128 * c.toNat + 8 * j + t) = c := by
    rw [Nat.add_assoc]
    exact counterOf_add (by omega) c
  rw [ks, hcounter, blockBit_add hj ht]

/-- The bytes of `word4BE` are the base 256 digits of the number, most significant first. -/
theorem word4BE_toList (v : Word32) :
    (word4BE v).toList = (List.range 4).map fun j => BitVec.ofNat 8 (v.toNat / 256 ^ (3 - j)) := by
  simp [word4BE, Word4.toList, List.range_succ, BitVec.extractLsb', Nat.shiftRight_eq_div_pow]

theorem fmtIn_toList (nonce counter : Word32) :
    (fmtIn nonce counter).toList = (word4BE nonce).toList ++ (word4BE counter).toList ++ List.replicate 8 0 := rfl

end Sys2Proof.Machine

open Sys2Proof Sys2Proof.Machine

/-- Settles O29: the byte exists, and the offset gives back its block, its byte and its bit by division. -/
theorem keystreamRunsLeastSignificantBitFirst : Obligations.KeystreamRunsLeastSignificantBitFirst := by
  unfold Obligations.KeystreamRunsLeastSignificantBitFirst
  intro key nonce c j t hj ht
  have hlen : j < (ksBlock key nonce c).toList.length := by rwa [Block.length_toList]
  rw [ks_add hj ht, List.getElem?_eq_getElem hlen, List.getD_eq_getElem _ _ hlen, Option.map_some]

/-- Settles O60: the default layout is `fmtIn`, whose words stand as their base 256 digits; `ksBlock` is the configured
cipher of the configured layout by its definition. -/
theorem cipherInputHasTheConfiguredLayout : Obligations.CipherInputHasTheConfiguredLayout := by
  unfold Obligations.CipherInputHasTheConfiguredLayout
  refine ⟨fun nonce counter => ?_, fun key nonce counter => rfl⟩
  rw [← word4BE_toList, ← word4BE_toList]
  exact fmtIn_toList nonce counter

end

section
/-! The opcode table of 30_encoding R94 held against the decoder: each row's mask and match field by field, the row a word
satisfies, the operands of a word that satisfies a row, and the illegal word of R95. -/

namespace Sys2Proof

open Sys2Proof.Laws

variable {cw : CmdWord} {o o' : Opcode} {i : Instr}

/-! ### Mask and match, field by field -/

/-- The bits of `mod` that a row fixes. -/
def Opcode.modMask : Opcode → Byte
  | .wrReg | .rdReg => 0
  | .bcSeek | .cmSeek => 0xFC
  | .kgXorBit | .bcWriteBit | .cmWriteBit => 0xFE
  | .kgInit | .kgSeek | .kgBitAt | .ppGen | .ppPoint | .bcInit | .bcReadBit | .bcTell | .cmReadBit => 0xFF

/-- The bits of `opd` that a row fixes: all or none. -/
def Opcode.opdMask : Opcode → Word64
  | .wrReg | .kgSeek | .kgBitAt | .ppPoint | .bcSeek | .bcTell | .cmSeek => 0
  | .rdReg | .kgInit | .kgXorBit | .ppGen | .bcInit | .bcReadBit | .bcWriteBit | .cmReadBit | .cmWriteBit =>
    BitVec.allOnes 64

theorem Opcode.mask_eq (o : Opcode) : o.mask = cwOf 0xFF o.modMask o.opdMask := by cases o <;> decide

theorem Opcode.pattern_eq (o : Opcode) : o.pattern = cwOf o.code 0 0 := by cases o <;> decide

theorem cwOf_inj {a b c d : Byte} {v w : Word64} : cwOf a b v = cwOf c d w ↔ a = c ∧ b = d ∧ v = w := by
  refine ⟨fun h => ⟨?_, ?_, ?_⟩, ?_⟩
  · simpa using congrArg cwOpcode h
  · simpa using congrArg cwMod h
  · simpa using congrArg cwOpd h
  · rintro ⟨rfl, rfl, rfl⟩
    rfl

/-- A row's mask and match ask for its opcode and for zeros at the fixed bits of `mod` and `opd`. -/
theorem Opcode.masked_iff :
    cw &&& o.mask = o.pattern ↔ cwOpcode cw = o.code ∧ cwMod cw &&& o.modMask = 0 ∧ cwOpd cw &&& o.opdMask = 0 := by
  have hall : cwOpcode cw &&& 0xFF#8 = cwOpcode cw := BitVec.and_allOnes
  rw [← cwOf_fields cw, o.mask_eq, o.pattern_eq, MatchesRow.cwOf_and, cwOf_inj]
  simp [hall]

theorem Opcode.code_inj : o.code = o'.code ↔ o = o' := by
  refine ⟨fun h => ?_, congrArg Opcode.code⟩
  have hsome : some o = some o' := by rw [← Opcode.ofCode_code o, h, Opcode.ofCode_code]
  exact Option.some.inj hsome

theorem Opcode.eq_of_masked (h : cw &&& o.mask = o.pattern) (h' : cw &&& o'.mask = o'.pattern) : o = o' :=
  Opcode.code_inj.mp ((Opcode.masked_iff.mp h).1.symm.trans (Opcode.masked_iff.mp h').1)

theorem Opcode.mem_all (o : Opcode) : o ∈ Opcode.all := by cases o <;> decide

/-- The table's row of a word is the one row it satisfies. -/
theorem tableRow_eq_some_iff : tableRow cw = some o ↔ cw &&& o.mask = o.pattern ∧ o.further cw = true := by
  constructor
  · intro h
    simpa using List.find?_some h
  · rintro ⟨hmask, hfurther⟩
    cases hrow : tableRow cw with
    | none =>
      have hno := List.find?_eq_none.mp hrow o o.mem_all
      simp [hmask, hfurther] at hno
    | some o' =>
      have hrow' : cw &&& o'.mask = o'.pattern ∧ o'.further cw = true := by simpa using List.find?_some hrow
      rw [Opcode.eq_of_masked hrow'.1 hmask]

/-! ### An accepted word satisfies the row of its command -/

/-- An accepted word is the encoding of a well-formed command. -/
theorem encode_of_decode (h : decode cw = .ok i) : WellFormed i = true ∧ encode i = cw := by
  obtain ⟨o, hcode, hread⟩ := decode_ok h
  obtain ⟨hwf, hopcode, hmod, hopd⟩ := Opcode.read_ok hread
  refine ⟨hwf, ?_⟩
  rw [encode, hopcode, hmod, hopd, Opcode.code_of_ofCode hcode, cwOf_fields]

/-- The word of every well-formed command satisfies its row. -/
theorem matchesRow (i : Instr) : MatchesRow.Statement i := by
  cases i with
  | wrReg r v => exact MatchesRow.wrReg r v
  | rdReg r => exact MatchesRow.rdReg r
  | kgInit => exact MatchesRow.kgInit
  | kgSeek off => exact MatchesRow.kgSeek off
  | kgBitAt off => exact MatchesRow.kgBitAt off
  | kgXorBit bit => exact MatchesRow.kgXorBit bit
  | ppGen => exact MatchesRow.ppGen
  | ppPoint k => exact MatchesRow.ppPoint k
  | bcInit => exact MatchesRow.bcInit
  | bcSeek n mode => exact MatchesRow.bcSeek n mode
  | bcReadBit => exact MatchesRow.bcReadBit
  | bcWriteBit bit => exact MatchesRow.bcWriteBit bit
  | bcTell p => exact MatchesRow.bcTell p
  | cmSeek n mode => exact MatchesRow.cmSeek n mode
  | cmReadBit => exact MatchesRow.cmReadBit
  | cmWriteBit bit => exact MatchesRow.cmWriteBit bit

theorem tableRow_of_decode (h : decode cw = .ok i) : tableRow cw = some i.opcode := by
  obtain ⟨hwf, rfl⟩ := encode_of_decode h
  exact tableRow_eq_some_iff.mpr (matchesRow i hwf)

/-! ### The operands of a word that satisfies a row can be read -/

/-- A `mod` byte with `mod[7:1] = 0` is a data bit. -/
theorem exists_bitMod {m : Byte} (hm : m &&& 0xFE = 0) : ∃ b, bitMod b = m := by
  revert m
  decide

/-- A `mod` byte with `mod[7:2] = 0` and `mod[1:0] ≠ 3` is a seek mode. -/
theorem SeekMode.exists_code {m : Byte} (hm : m &&& 0xFC = 0) (h3 : (m.extractLsb' 0 2).toNat ≠ 3) :
    ∃ mode : SeekMode, mode.code = m := by
  have hcode : m = 0 ∨ m = 1 ∨ m = 2 := by
    revert m
    decide
  rcases hcode with rfl | rfl | rfl
  · exact ⟨.fromStart, rfl⟩
  · exact ⟨.fromCurrent, rfl⟩
  · exact ⟨.fromEnd, rfl⟩

/-- The indices of the register map are the two ranges of R94's further condition. -/
theorem Reg.exists_index {m : Byte} (h : m.toNat ≤ 0x06 ∨ 0x10 ≤ m.toNat ∧ m.toNat ≤ 0x16) : ∃ r : Reg, r.index = m := by
  have hsome : (Reg.ofIndex m).isSome = true := by
    revert m
    decide
  obtain ⟨r, hr⟩ := Option.isSome_iff_exists.mp hsome
  exact ⟨r, Reg.index_of_ofIndex hr⟩

theorem Reg.writable_iff (r : Reg) : r.writable = true ↔ r.index.toNat ≤ 0x06 := by cases r <;> decide

theorem readW_index {r : Reg} (h : r.writable = true) (v : Word64) : readW r.index v = .ok (.wrReg r v) := by
  simp [readW, Reg.ofIndex_index, h]

theorem readQ_index (r : Reg) : readQ r.index 0 = .ok (.rdReg r) := by
  simp [readQ, Reg.ofIndex_index]

/-- Fields that a row's mask, match and further condition admit are operands of a command. -/
theorem Opcode.read_of_masked {a m : Byte} {v : Word64} (hm : m &&& o.modMask = 0) (hv : v &&& o.opdMask = 0)
    (hf : o.further (cwOf a m v) = true) : ∃ i, o.read m v = .ok i := by
  cases o with
  | wrReg =>
    have hle : m.toNat ≤ 0x06 := by simpa [further, MatchesRow.mod_cwOf] using hf
    obtain ⟨r, rfl⟩ := Reg.exists_index (.inl hle)
    exact ⟨_, readW_index (r.writable_iff.mpr hle) v⟩
  | rdReg =>
    have hindex : m.toNat ≤ 0x06 ∨ 0x10 ≤ m.toNat ∧ m.toNat ≤ 0x16 := by simpa [further, MatchesRow.mod_cwOf] using hf
    obtain ⟨r, rfl⟩ := Reg.exists_index hindex
    obtain rfl : v = 0 := BitVec.and_allOnes.symm.trans hv
    exact ⟨_, readQ_index r⟩
  | bcSeek | cmSeek =>
    obtain ⟨mode, rfl⟩ := SeekMode.exists_code hm (by simpa [further, MatchesRow.mode_cwOf] using hf)
    exact ⟨_, readS_code _ mode v⟩
  | kgXorBit | bcWriteBit | cmWriteBit =>
    obtain ⟨b, rfl⟩ := exists_bitMod hm
    obtain rfl : v = 0 := BitVec.and_allOnes.symm.trans hv
    exact ⟨_, readD_bitMod _ b⟩
  | kgSeek | kgBitAt | ppPoint | bcTell =>
    obtain rfl : m = 0 := BitVec.and_allOnes.symm.trans hm
    exact ⟨_, rfl⟩
  | kgInit | ppGen | bcInit | bcReadBit | cmReadBit =>
    obtain rfl : m = 0 := BitVec.and_allOnes.symm.trans hm
    obtain rfl : v = 0 := BitVec.and_allOnes.symm.trans hv
    exact ⟨_, rfl⟩

theorem decode_of_tableRow (h : tableRow cw = some o) : ∃ i, decode cw = .ok i ∧ i.opcode = o := by
  obtain ⟨hmask, hfurther⟩ := tableRow_eq_some_iff.mp h
  obtain ⟨hcode, hm, hv⟩ := Opcode.masked_iff.mp hmask
  rw [← cwOf_fields cw] at hfurther
  obtain ⟨i, hread⟩ := Opcode.read_of_masked hm hv hfurther
  obtain ⟨-, hopcode, -, -⟩ := Opcode.read_ok hread
  have hdecode : decode cw = o.read (cwMod cw) (cwOpd cw) := by simp [decode, hcode, Opcode.ofCode_code]
  exact ⟨i, hdecode.trans hread, hopcode⟩

/-- A word that satisfies no row is rejected. -/
theorem decode_of_tableRow_eq_none (h : tableRow cw = none) : ∃ e, decode cw = .error e := by
  cases hd : decode cw with
  | error e => exact ⟨e, rfl⟩
  | ok i => simp [tableRow_of_decode hd] at h

end Sys2Proof

namespace Sys2Proof.Machine

/-- Taking an error in one equation: the response and the latch, and nothing else (60_exceptions R238). -/
theorem State.raise_eq (s : State) (e : Err) :
    s.raise e = { s with rsp := some (rspWord e.code 0 0), err := if s.err = 0 then e.code else s.err } := by
  unfold State.raise State.latchErr
  split <;> rfl

end Sys2Proof.Machine

open Sys2Proof Sys2Proof.Machine

/-- Settles O4: an accepted word is an encoding, which satisfies its own row; the fields that a row admits can be read; two
rows with one word have one opcode. -/
theorem decoderAcceptsExactlyTheTable : Obligations.DecoderAcceptsExactlyTheTable := by
  unfold Obligations.DecoderAcceptsExactlyTheTable
  exact ⟨fun _ _ => tableRow_of_decode, fun _ _ => decode_of_tableRow, fun _ _ _ => Opcode.eq_of_masked⟩

/-- Settles O6: the decoder rejects a word that satisfies no row, and the step answers the rejection with
`IllegalCommand`. -/
theorem illegalWordOnlyAnswers : Obligations.IllegalWordOnlyAnswers := by
  unfold Obligations.IllegalWordOnlyAnswers
  intro s cw rest hport hrow
  obtain ⟨e, hdecode⟩ := decode_of_tableRow_eq_none hrow
  rw [step_illegalWord hport hdecode, State.raise_eq]
  rfl

end

section
/-! SYS.RDREG (40_system_commands R121): the words that decode to it, and each register as the number that the register map
of 10_state R21 packs. -/

namespace Sys2Proof

/-- The indices of the register map lie in the two ranges of R94's further condition. -/
theorem Reg.index_bounds (r : Reg) : r.index.toNat ≤ 0x06 ∨ 0x10 ≤ r.index.toNat ∧ r.index.toNat ≤ 0x16 := by
  cases r <;> decide

/-- Under the opcode of SYS.RDREG the fields are read in format Q. -/
theorem decode_cwOf_rdReg (m : Byte) (v : Word64) : decode (cwOf 0x02 m v) = readQ m v := by
  have hcode : Opcode.ofCode 0x02 = some .rdReg := Opcode.ofCode_code .rdReg
  rw [decode, cwOpcode_cwOf, hcode, cwMod_cwOf, cwOpd_cwOf]
  rfl

/-- Format Q admits no payload and no index outside the map. -/
theorem readQ_error {m : Byte} {v : Word64} (h : v ≠ 0 ∨ 0x06 < m.toNat ∧ m.toNat < 0x10 ∨ 0x16 < m.toNat) :
    ∃ e, readQ m v = .error e := by
  cases hread : readQ m v with
  | error e => exact ⟨e, rfl⟩
  | ok i =>
    obtain ⟨r, -, rfl, rfl⟩ := readQ_ok hread
    have hindex := r.index_bounds
    rcases h with hne | hgap
    · exact absurd rfl hne
    · omega

end Sys2Proof

namespace Sys2Proof.Machine

open Sys2Proof.Claims

/-- Two packed words are the number of their eight bytes, the lowest index in bits 7:0 (20_memory R68). -/
theorem packWord4s_toNat (lo hi : Word4) : (packWord4s lo hi).toNat = leNumber (lo.toList ++ hi.toList) := by
  simp only [packWord4s, toNat_append_eq, Word4.toList, List.cons_append, List.nil_append, leNumber, List.foldr_cons,
    List.foldr_nil]
  omega

theorem State.readReg_toNat (s : State) (r : Reg) : (s.readReg r).toNat = regNumber s r := by
  cases r with
  | key0 | key1 | seed | kgOffset | bcPosition | bcCapacity => rfl
  | nonce | width | height | kgCounter | chancfg => exact BitVec.toNat_setWidth_of_le (by decide)
  | status => exact s.statusWord_toNat
  | kgBlock0 => exact packWord4s_toNat s.kgBlock.c0 s.kgBlock.c1
  | kgBlock1 => exact packWord4s_toNat s.kgBlock.c2 s.kgBlock.c3

theorem State.readReg_eq_ofNat (s : State) (r : Reg) : s.readReg r = BitVec.ofNat 64 (regNumber s r) := by
  rw [← s.readReg_toNat r, BitVec.ofNat_toNat, BitVec.setWidth_eq]

end Sys2Proof.Machine

open Sys2Proof Sys2Proof.Machine

/-- Settles O23: the word is read in format Q, and the register is the number that the map packs, so that number fits 64
bits. -/
theorem rdRegReturnsTheRegister : Obligations.RdRegReturnsTheRegister := by
  unfold Obligations.RdRegReturnsTheRegister
  refine ⟨fun r => ?_, fun m v h => ?_, fun s r => ⟨?_, ?_⟩⟩
  · rw [decode_cwOf_rdReg]
    exact readQ_index r
  · rw [decode_cwOf_rdReg]
    exact readQ_error h
  · rw [← s.readReg_eq_ofNat]
    rfl
  · rw [← s.readReg_toNat]
    exact (s.readReg r).isLt

end

section
/-! The keystream generator's commands (41_keystream_generator R130, R134 to R136): the block of an offset cached once, the
keystream bit of the internal step, and each command as its guard and its body. -/

namespace Sys2Proof.Machine

open Sys2Proof.Claims

variable {s : State}

/-! ### The internal step `KsBit` (R133) -/

/-- While the cached block is that of the counter, a refresh is an unconditional load of the offset's block. -/
theorem State.refresh_eq (hc : s.kgBlock = ksBlock s.key s.nonce s.kgCounter) (i : Nat) :
    s.refresh i = { s with kgCounter := counterOf i, kgBlock := ksBlock s.key s.nonce (counterOf i) } := by
  unfold State.refresh
  split
  · next hi =>
    have hcounter : counterOf i = s.kgCounter := by rw [counterOf, hi, BitVec.ofNat_toNat, BitVec.setWidth_eq]
    rw [hcounter, ← hc]
  · rfl

/-- In a session whose block is cached, `KsBit` returns the pure keystream bit and leaves the offset's block cached. -/
theorem ksBit_of_servable (hcached : s.kgBlock = ksBlock s.key s.nonce s.kgCounter) {v : Word64}
    (hv : Servable v.toInt) :
    ksBit (sext64 v) s = .done (ks s.key s.nonce v.toNat)
      { s with kgCounter := counterOf v.toNat, kgBlock := ksBlock s.key s.nonce (counterOf v.toNat) } := by
  obtain ⟨h0, hlimit⟩ := hv
  have hnat : (sext64 v).toNat = v.toNat := BitVec.toNat_toInt_of_sle (BitVec.sle_iff_toInt_le.mpr h0)
  rw [ksBit_ok (i := sext64 v) h0 hlimit, refresh_bit hcached, State.refresh_eq hcached, hnat]

theorem ksBit_of_not_servable {v : Word64} (hv : ¬ Servable v.toInt) (s : State) :
    ksBit (sext64 v) s = .raised .illegalOffset s := by
  apply ksBit_illegal
  simp only [Servable, sext64, Config.offsetLimit] at *
  omega

/-! ### Each command as its guard and its body -/

theorem State.needing_of_eq_true {flags : Bool} (h : flags = true) (s : State) (body : Res Reply) :
    s.needing flags body = body.finish := by
  rw [h, State.needing_true]

theorem State.needing_of_eq_false {flags : Bool} (h : flags = false) (s : State) (body : Res Reply) :
    s.needing flags body = .next (s.raise .notActive) := by
  rw [h, State.needing_false]

theorem exec_kgSeek (off : Word64) (s : State) : exec (.kgSeek off) s = s.needing s.kgActive (kgSeek off s) := rfl

theorem exec_kgBitAt (off : Word64) (s : State) : exec (.kgBitAt off) s = s.needing s.kgActive (kgBitAt off s) := rfl

theorem exec_kgXorBit (bit : Bool) (s : State) : exec (.kgXorBit bit) s = s.needing s.kgActive (kgXorBit bit s) := rfl

end Sys2Proof.Machine

open Sys2Proof Sys2Proof.Machine

/-- Settles O27: inside the range `KsBit` gives the keystream bit and loads its block, outside it the body raises, and
without a session the guard does. -/
theorem kgBitAtReturnsTheKeystreamBit : Obligations.KgBitAtReturnsTheKeystreamBit := by
  unfold Obligations.KgBitAtReturnsTheKeystreamBit
  intro s off
  refine ⟨decode_encode_eq (.kgBitAt off), fun ⟨hactive, hcached⟩ hoff => ?_, fun hactive hoff => ?_, fun hidle => ?_⟩
  · rw [exec_kgBitAt, State.needing_of_eq_true hactive, kgBitAt, ksBit_of_servable hcached hoff]
    rfl
  · rw [exec_kgBitAt, State.needing_of_eq_true hactive, kgBitAt, ksBit_of_not_servable hoff]
    rfl
  · rw [exec_kgBitAt, State.needing_of_eq_false hidle]

/-- Settles O28: as KG.BITAT, at the session's own offset, which the success advances by one. -/
theorem kgXorBitEncryptsAndAdvances : Obligations.KgXorBitEncryptsAndAdvances := by
  unfold Obligations.KgXorBitEncryptsAndAdvances
  intro s bit
  refine ⟨?_, fun ⟨hactive, hcached⟩ hoff => ?_, fun hactive hoff => ?_, fun hidle => ?_⟩
  · exact (decode_encode_eq (.kgXorBit bit)).trans (readD_bitMod _ bit)
  · rw [exec_kgXorBit, State.needing_of_eq_true hactive, kgXorBit, ksBit_of_servable hcached hoff]
    rfl
  · rw [exec_kgXorBit, State.needing_of_eq_true hactive, kgXorBit, ksBit_of_not_servable hoff]
    rfl
  · rw [exec_kgXorBit, State.needing_of_eq_false hidle]

/-- Settles O25: KG.INIT needs no flag, so its one equation is its meaning. -/
theorem kgInitStartsASession : Obligations.KgInitStartsASession := by
  unfold Obligations.KgInitStartsASession
  exact ⟨decode_encode_eq .kgInit, fun _ => rfl⟩

/-- Settles O26: the body tests the sign of the operand under the session guard. -/
theorem kgSeekSetsTheOffset : Obligations.KgSeekSetsTheOffset := by
  unfold Obligations.KgSeekSetsTheOffset
  intro s off
  refine ⟨decode_encode_eq (.kgSeek off), fun hactive hoff => ?_, fun hactive hoff => ?_, fun hidle => ?_⟩
  · rw [exec_kgSeek, State.needing_of_eq_true hactive, kgSeek, sext64, if_neg (by omega)]
    rfl
  · rw [exec_kgSeek, State.needing_of_eq_true hactive, kgSeek, sext64, if_pos hoff]
    rfl
  · rw [exec_kgSeek, State.needing_of_eq_false hidle]

end

section
/-! The pixel permutation's commands (42_pixel_permutation R151, R152, R154): the table that PP.GEN leaves, and PP.POINT as
its guard and its body. -/

namespace Sys2Proof.Machine

variable {s : State}

/-! ### PP.GEN -/

/-- The state in which PP.GEN answers a success: the generated table with its bounds, and no cursor. -/
def State.withGeneratedTable (s : State) : State :=
  { s with
    bcActive := false, ppW := s.width, ppH := s.height, ppValid := true
    ppPoints := generate Config.prng s.width.toNat s.height.toNat s.seed }

theorem exec_ppGen_of_le (h : s.width.toNat * s.height.toNat ≤ Config.pointsMax) :
    exec .ppGen s = .next (s.withGeneratedTable.respond 0 (BitVec.ofNat 64 (s.width.toNat * s.height.toNat))) := by
  have hbody : exec .ppGen s = (ppGen Config.prng s).finish := rfl
  rw [hbody, ppGen, if_neg (Nat.not_lt.mpr h)]
  rfl

/-! ### PP.POINT -/

theorem exec_ppPoint (k : Word64) (s : State) : exec (.ppPoint k) s = s.needing s.ppValid (ppPoint k s) := rfl

theorem ppPoint_of_le {k : Word64} (h : s.ppW.toNat * s.ppH.toNat ≤ k.toNat) :
    ppPoint k s = .raised .outOfBounds s := if_pos h

theorem ppPoint_of_lt {k : Word64} {p : Point} (h : k.toNat < s.ppW.toNat * s.ppH.toNat)
    (hp : s.ppPoints[k.toNat]? = some p) : ppPoint k s = .done (.ofData p.pack) s := by
  rw [ppPoint, zext64, if_neg (Nat.not_le.mpr h), hp]

/-- A valid table has an entry at every plane index (10_state R34). -/
theorem State.Inv.exists_point (hi : s.Inv) (hv : s.ppValid = true) {k : Nat} (h : k < s.ppW.toNat * s.ppH.toNat) :
    ∃ p, s.ppPoints[k]? = some p := by
  rw [← hi.table_length hv] at h
  exact ⟨_, List.getElem?_eq_getElem h⟩

/-- The packed entry is the number of R152, which therefore fits 64 bits. -/
theorem Point.pack_eq_ofNat (p : Point) : p.pack = BitVec.ofNat 64 (p.y.toNat * 2 ^ 32 + p.x.toNat) := by
  rw [← p.pack_toNat, BitVec.ofNat_toNat, BitVec.setWidth_eq]

end Sys2Proof.Machine

open Sys2Proof Sys2Proof.Machine

/-- Settles O36: the invariant gives the entry that the body reads, an index past the table fails the body's bound, and
without a table the guard raises. -/
theorem ppPointReturnsTheEntry : Obligations.PpPointReturnsTheEntry := by
  unfold Obligations.PpPointReturnsTheEntry
  refine ⟨fun k => decode_encode_eq (.ppPoint k), fun s k hinv hvalid hk => ?_, fun s k hvalid hk => ?_,
    fun s k hinvalid => ?_⟩
  · obtain ⟨p, hp⟩ := hinv.exists_point hvalid hk
    refine ⟨p, hp, ?_⟩
    rw [exec_ppPoint, State.needing_of_eq_true hvalid, ppPoint_of_lt hk hp, ← p.pack_eq_ofNat]
    rfl
  · rw [exec_ppPoint, State.needing_of_eq_true hvalid, ppPoint_of_le hk]
    rfl
  · rw [exec_ppPoint, State.needing_of_eq_false hinvalid]

/-- Settles O35: both commands complete, and the table and its bounds are functions of `WIDTH`, `HEIGHT` and `SEED`. -/
theorem equalSeedsGiveEqualTables : Obligations.EqualSeedsGiveEqualTables := by
  unfold Obligations.EqualSeedsGiveEqualTables
  intro s1 s2 hwidth hheight hseed hsize
  have hsize2 : s2.width.toNat * s2.height.toNat ≤ 2 ^ 32 := by rwa [← hwidth, ← hheight]
  refine ⟨_, _, exec_ppGen_of_le hsize, exec_ppGen_of_le hsize2, ?_, hwidth, hheight⟩
  simp [State.withGeneratedTable, hwidth, hheight, hseed]

end

section
/-! The bit cursor's commands (43_bit_cursor R160, R162, R164, R166, R168): the addressing function, the internal steps
`BcSeek` and `BcRead` by the case they are in, and each command as its guard and its body. -/

namespace Sys2Proof.Machine

open Sys2Proof.Claims

variable {s : State}

/-! ### The addressing function (R160) -/

/-- `Tell` answers a cell exactly when the table and the channel list have the entries of its formulas. -/
theorem State.tell_eq_some_iff (s : State) (p : Nat) (point : Point) (ch : Channel) (i : Nat) :
    s.tell p = some ⟨point, ch, i⟩ ↔
      s.ppPoints[p / (s.bcChans.length * s.bcBpc.toNat)]? = some point ∧
      s.bcChans[p / s.bcBpc.toNat % s.bcChans.length]? = some ch ∧ i = p % s.bcBpc.toNat := by
  unfold State.tell
  cases s.ppPoints[p / (s.bcChans.length * s.bcBpc.toNat)]? with
  | none => simp
  | some point' =>
    cases s.bcChans[p / s.bcBpc.toNat % s.bcChans.length]? with
    | none => simp
    | some ch' => simp [eq_comm (a := i)]

/-- A word that is not negative is the same position by either reading (00_scope R12). -/
theorem toNat_sext64 {v : Word64} (h : 0 ≤ v.toInt) : (sext64 v).toNat = v.toNat :=
  BitVec.toNat_toInt_of_sle (BitVec.sle_iff_toInt_le.mpr h)

/-! ### Each command as its guard and its body -/

theorem exec_bcInit (s : State) :
    exec .bcInit s = s.needing s.ppValid (.done (.ofData s.initCursor.bcCapacity) s.initCursor) := rfl

theorem exec_bcSeek (n : Word64) (mode : SeekMode) (s : State) :
    exec (.bcSeek n mode) s =
      s.needing s.bcActive ((bcSeek (sext64 n) mode s).andThen fun c s => .done (.ofData (word64OfInt c)) s) := rfl

theorem exec_bcReadBit (s : State) :
    exec .bcReadBit s = s.needing s.bcActive ((bcRead s).andThen fun b s => .done (.ofData (bitData b)) s) := rfl

theorem exec_bcTell (p : Word64) (s : State) : exec (.bcTell p) s = s.needing s.bcActive (bcTell p s) := rfl

/-! ### BC.INIT (R162) -/

/-- A plane of at most 2^32 points has few enough cells to be counted in 64 bits: the fields of `CHANCFG` hold at most 3
channels and 7 bits. -/
theorem cellCount_lt {n : Nat} (h : n ≤ 2 ^ 32) (c : BitVec 11) : n * cfgCount c * (cfgBpc c).toNat < 2 ^ 64 := by
  have hcount : cfgCount c ≤ 3 := Nat.le_of_lt_succ (c.extractLsb' 0 2).isLt
  have hbpc : (cfgBpc c).toNat ≤ 7 := Nat.le_of_lt_succ (cfgBpc c).isLt
  calc n * cfgCount c * (cfgBpc c).toNat
      ≤ 2 ^ 32 * 3 * 7 := Nat.mul_le_mul (Nat.mul_le_mul h hcount) hbpc
    _ < 2 ^ 64 := by decide

theorem State.initCursor_bcCapacity_toNat (h : s.ppW.toNat * s.ppH.toNat ≤ 2 ^ 32) :
    s.initCursor.bcCapacity.toNat = s.ppW.toNat * s.ppH.toNat * cfgCount s.chancfg * (cfgBpc s.chancfg).toNat := by
  rw [State.initCursor_bcCapacity, BitVec.toNat_ofNat, Nat.mod_eq_of_lt (cellCount_lt h s.chancfg)]

/-! ### `BcSeek` (R164) -/

theorem decode_bcSeek (n : Word64) (mode : SeekMode) : decode (cwOf 0x31 mode.code n) = .ok (.bcSeek n mode) :=
  (decode_encode_eq (.bcSeek n mode)).trans (readS_code _ mode n)

/-- The candidate of each mode, over the integers. -/
theorem State.seekCandidate_fst {n : Word64} {mode : SeekMode} {c : Int}
    (h : mode = .fromStart ∧ c = n.toInt ∨ mode = .fromCurrent ∧ c = s.bcPosition.toInt + n.toInt ∨
      mode = .fromEnd ∧ c = (s.bcCapacity.toNat : Int) + n.toInt) :
    (s.seekCandidate (sext64 n) mode).1 = c := by
  rcases h with ⟨rfl, rfl⟩ | ⟨rfl, rfl⟩ | ⟨rfl, rfl⟩ <;> rfl

/-- The two relative modes refuse a negative candidate with the same error. -/
theorem State.seekCandidate_snd_of_ne_fromStart {mode : SeekMode} (h : mode ≠ .fromStart) (s : State) (n : Int) :
    (s.seekCandidate n mode).2 = .invalidSeekArgument := by
  cases mode with
  | fromStart => exact absurd rfl h
  | fromCurrent | fromEnd => rfl

section
variable {n c : Int} {mode : SeekMode} (hc : (s.seekCandidate n mode).1 = c)
include hc

theorem bcSeek_of_neg (h : c < 0) : bcSeek n mode s = .raised (s.seekCandidate n mode).2 s := by
  subst hc
  exact if_pos h

theorem bcSeek_of_ge (h0 : 0 ≤ c) (h : (s.bcCapacity.toNat : Int) ≤ c) : bcSeek n mode s = .raised .outOfBounds s := by
  subst hc
  exact (if_neg (Int.not_lt.mpr h0)).trans (if_pos h)

theorem bcSeek_of_lt (h0 : 0 ≤ c) (h : c < (s.bcCapacity.toNat : Int)) :
    bcSeek n mode s = .done c { s with bcPosition := word64OfInt c } := by
  subst hc
  exact (if_neg (Int.not_lt.mpr h0)).trans (if_neg (Int.not_le.mpr h))

end

/-! ### `BcRead` (R166) -/

theorem State.atEnd_eq_true_of_atEnd (h : AtEnd s) : s.atEnd = true := decide_eq_true h

theorem State.atEnd_eq_false_of_onCell {c : BitCell} {px : Pixel} (h : OnCell s c px) : s.atEnd = false := by
  obtain ⟨h0, hlt, -, -⟩ := h
  exact s.atEnd_false_iff.mpr ⟨h0, hlt⟩

theorem State.fetchCell_of_onCell {c : BitCell} {px : Pixel} (h : OnCell s c px) : s.fetchCell = .done (c, px) s := by
  obtain ⟨-, -, htell, hpixel⟩ := h
  exact State.fetchCell_ok htell hpixel

theorem bcRead_of_onCell {c : BitCell} {px : Pixel} (h : OnCell s c px) :
    bcRead s = .done (px.bit c.chan c.bit) s.advanceBc := by
  rw [bcRead, State.atEnd_eq_false_of_onCell h, State.fetchCell_of_onCell h]
  rfl

theorem bcRead_of_atEnd (h : AtEnd s) : bcRead s = .raised .outOfBounds s := by
  rw [bcRead, State.atEnd_eq_true_of_atEnd h]
  rfl

/-! ### BC.TELL (R168) -/

theorem bcTell_of_outside {p : Word64} (h : p.toInt < 0 ∨ (s.bcCapacity.toNat : Int) ≤ p.toInt) :
    bcTell p s = .raised .outOfBounds s := if_pos h

theorem bcTell_of_tell {p : Word64} {c : BitCell} (h0 : 0 ≤ p.toInt) (h : p.toInt < (s.bcCapacity.toNat : Int))
    (hc : s.tell p.toNat = some c) : bcTell p s = .done ⟨c.aux, c.point.pack⟩ s := by
  have hinside : ¬ (sext64 p < 0 ∨ (zext64 s.bcCapacity : Int) ≤ sext64 p) :=
    not_or.mpr ⟨Int.not_lt.mpr h0, Int.not_le.mpr h⟩
  rw [bcTell, if_neg hinside, toNat_sext64 h0, hc]

end Sys2Proof.Machine

open Sys2Proof Sys2Proof.Machine

/-- Settles O40: on a cell `BcRead` fetches the pixel and returns its bit, at the end of the medium it raises before any
access, and without a cursor the guard does. -/
theorem bcReadBitReturnsTheCell : Obligations.BcReadBitReturnsTheCell := by
  unfold Obligations.BcReadBitReturnsTheCell
  refine ⟨decode_encode_eq .bcReadBit, fun s hidle => ?_, fun s c px hactive hcell => ?_, fun s hactive hend => ?_⟩
  · rw [exec_bcReadBit, State.needing_of_eq_false hidle]
  · rw [exec_bcReadBit, State.needing_of_eq_true hactive, bcRead_of_onCell hcell]
    rfl
  · rw [exec_bcReadBit, State.needing_of_eq_true hactive, bcRead_of_atEnd hend]
    rfl

/-- Settles O42: the invariant gives the cell of a position below the capacity, any other fails the body's bounds, and
without a cursor the guard raises. -/
theorem bcTellReturnsTheCell : Obligations.BcTellReturnsTheCell := by
  unfold Obligations.BcTellReturnsTheCell
  refine ⟨fun p => decode_encode_eq (.bcTell p), fun s p hidle => ?_, fun s p hinv hactive h0 hlt => ?_,
    fun s p hactive hout => ?_⟩
  · rw [exec_bcTell, State.needing_of_eq_false hidle]
  · have hnat : p.toInt.toNat = p.toNat := toNat_sext64 h0
    have hbelow : p.toNat < s.bcCapacity.toNat := by omega
    obtain ⟨point, chan, -, -, hcell⟩ := hinv.tell_isSome hactive hbelow
    refine ⟨_, hcell, ?_⟩
    rw [exec_bcTell, State.needing_of_eq_true hactive, bcTell_of_tell h0 hlt hcell, ← Point.pack_eq_ofNat]
    rfl
  · rw [exec_bcTell, State.needing_of_eq_true hactive, bcTell_of_outside hout]
    rfl

/-- Settles O37: the formulas are those of `Tell`. -/
theorem tellFollowsTheAddressingFormulas : Obligations.TellFollowsTheAddressingFormulas := by
  unfold Obligations.TellFollowsTheAddressingFormulas
  exact State.tell_eq_some_iff

/-- Settles O38: the product fits 64 bits, so the capacity is the product; without a table the guard raises. -/
theorem bcInitCreatesTheCursor : Obligations.BcInitCreatesTheCursor := by
  unfold Obligations.BcInitCreatesTheCursor
  refine ⟨decode_encode_eq .bcInit, fun s hinvalid => ?_, fun s hvalid hsize => ?_⟩
  · rw [exec_bcInit, State.needing_of_eq_false hinvalid]
  · refine ⟨s.initCursor.bcCapacity, State.initCursor_bcCapacity_toNat hsize, ?_⟩
    rw [exec_bcInit, State.needing_of_eq_true hvalid]
    rfl

/-- Settles O39: the mode gives the candidate, and the candidate's place against 0 and the capacity gives the outcome of
`BcSeek`. -/
theorem bcSeekCommitsInRangeCandidates : Obligations.BcSeekCommitsInRangeCandidates := by
  unfold Obligations.BcSeekCommitsInRangeCandidates
  refine ⟨fun n => ⟨decode_bcSeek n .fromStart, decode_bcSeek n .fromCurrent, decode_bcSeek n .fromEnd⟩,
    fun s n mode hidle => ?_, fun s n mode c hactive hmode => ?_⟩
  · rw [exec_bcSeek, State.needing_of_eq_false hidle]
  · have hc := State.seekCandidate_fst hmode
    rw [exec_bcSeek, State.needing_of_eq_true hactive]
    refine ⟨fun hneg hstart => ?_, fun hneg hrelative => ?_, fun h0 hge => ?_, fun h0 hlt => ?_⟩
    · rw [bcSeek_of_neg hc hneg, hstart]
      rfl
    · rw [bcSeek_of_neg hc hneg, State.seekCandidate_snd_of_ne_fromStart hrelative]
      rfl
    · rw [bcSeek_of_ge hc h0 hge]
      rfl
    · rw [bcSeek_of_lt hc h0 hlt]
      rfl

end

section
/-! The cipher middleware's commands (44_cipher_middleware R181 to R183): the session guard on both flags, what the
generator's step leaves of the cursor, `BcWrite` by the case it is in, and each command as its guard and its body. -/

namespace Sys2Proof.Machine

open Sys2Proof.Claims

variable {s : State} {c : BitCell} {px : Pixel}

/-! ### The guard (R180) -/

theorem State.cmActive_of_active (hkg : s.kgActive = true) (hbc : s.bcActive = true) : s.cmActive = true := by
  rw [State.cmActive, hkg, hbc, Bool.and_self]

theorem State.cmActive_of_idle (h : s.kgActive = false ∨ s.bcActive = false) : s.cmActive = false :=
  Bool.and_eq_false_iff.mpr h

/-! ### Each command as its guard and its body -/

theorem exec_cmSeek (n : Word64) (mode : SeekMode) (s : State) :
    exec (.cmSeek n mode) s = s.needing s.cmActive ((bcSeek (sext64 n) mode s).andThen fun c s =>
      .done (.ofData (word64OfInt c)) { s with kgOffset := word64OfInt c }) := rfl

theorem exec_cmReadBit (s : State) :
    exec .cmReadBit s = s.needing s.cmActive ((bcRead s).andThen fun r s =>
      (ksBit (sext64 s.kgOffset) s).andThen fun k s => .done (.ofData (bitData (r ^^ k))) s.advanceKg) := rfl

theorem exec_cmWriteBit (bit : Bool) (s : State) :
    exec (.cmWriteBit bit) s = s.needing s.cmActive ((ksBit (sext64 s.kgOffset) s).andThen fun k s =>
      (bcWrite (bit ^^ k) s.advanceKg).andThen fun _ s => .done (.ofData 0) s) := rfl

theorem decode_cmSeek (n : Word64) (mode : SeekMode) : decode (cwOf 0x41 mode.code n) = .ok (.cmSeek n mode) :=
  (decode_encode_eq (.cmSeek n mode)).trans (readS_code _ mode n)

/-! ### `BcWrite` (43 R167) -/

theorem bcWrite_of_onCell (h : OnCell s c px) (bit : Bool) : bcWrite bit s = .done () (s.storeCell c px bit) := by
  rw [bcWrite, State.atEnd_eq_false_of_onCell h, State.fetchCell_of_onCell h]
  rfl

theorem bcWrite_of_atEnd (h : AtEnd s) (bit : Bool) : bcWrite bit s = .raised .outOfBounds s := by
  rw [bcWrite, State.atEnd_eq_true_of_atEnd h]
  rfl

/-! ### The two units do not touch each other's state -/

/-- `KsBit` and the advance of `KG.offset` leave the cursor on its cell. -/
theorem onCell_advanceKg (h : OnCell s c px) (counter : Word32) (block : Block) :
    OnCell ({ s with kgCounter := counter, kgBlock := block }).advanceKg c px := h

/-- `KsBit` and the advance of `KG.offset` leave the cursor at the end of the medium. -/
theorem atEnd_advanceKg (h : AtEnd s) (counter : Word32) (block : Block) :
    AtEnd ({ s with kgCounter := counter, kgBlock := block }).advanceKg := h

/-- The advance of `BC.position` leaves the cached block that of the counter. -/
theorem kgCached_advanceBc (h : s.kgBlock = ksBlock s.key s.nonce s.kgCounter) :
    s.advanceBc.kgBlock = ksBlock s.advanceBc.key s.advanceBc.nonce s.advanceBc.kgCounter := h

end Sys2Proof.Machine

open Sys2Proof Sys2Proof.Machine

/-- Settles O49: the read comes first, so at the end of the medium nothing has changed, and an offset out of range is
refused with the position advanced. -/
theorem cmReadBitDecrypts : Obligations.CmReadBitDecrypts := by
  unfold Obligations.CmReadBitDecrypts
  refine ⟨decode_encode_eq .cmReadBit, fun s hidle => ?_, fun s c px ⟨hkg, hcached⟩ hbc hcell hoff => ?_,
    fun s hkg hbc hend => ?_, fun s c px hkg hbc hcell hoff => ?_⟩
  · rw [exec_cmReadBit, State.needing_of_eq_false (State.cmActive_of_idle hidle)]
  · rw [exec_cmReadBit, State.needing_of_eq_true (State.cmActive_of_active hkg hbc), bcRead_of_onCell hcell,
      Res.andThen_done, ksBit_of_servable (kgCached_advanceBc hcached) (v := s.advanceBc.kgOffset) hoff]
    rfl
  · rw [exec_cmReadBit, State.needing_of_eq_true (State.cmActive_of_active hkg hbc), bcRead_of_atEnd hend]
    rfl
  · rw [exec_cmReadBit, State.needing_of_eq_true (State.cmActive_of_active hkg hbc), bcRead_of_onCell hcell,
      Res.andThen_done, ksBit_of_not_servable (v := s.advanceBc.kgOffset) hoff]
    rfl

/-- Settles O50: the encryption comes first, so an offset out of range is refused before any change, and at the end of the
medium the write is refused with the generator advanced. -/
theorem cmWriteBitEncrypts : Obligations.CmWriteBitEncrypts := by
  unfold Obligations.CmWriteBitEncrypts
  refine ⟨fun b => (decode_encode_eq (.cmWriteBit b)).trans (readD_bitMod _ b), fun s b hidle => ?_,
    fun s b c px ⟨hkg, hcached⟩ hbc hcell hoff => ?_, fun s b hkg hbc hoff => ?_,
    fun s b ⟨hkg, hcached⟩ hbc hend hoff => ?_⟩
  · rw [exec_cmWriteBit, State.needing_of_eq_false (State.cmActive_of_idle hidle)]
  · rw [exec_cmWriteBit, State.needing_of_eq_true (State.cmActive_of_active hkg hbc), ksBit_of_servable hcached hoff,
      Res.andThen_done, bcWrite_of_onCell (onCell_advanceKg hcell _ _)]
    rfl
  · rw [exec_cmWriteBit, State.needing_of_eq_true (State.cmActive_of_active hkg hbc), ksBit_of_not_servable hoff]
    rfl
  · rw [exec_cmWriteBit, State.needing_of_eq_true (State.cmActive_of_active hkg hbc), ksBit_of_servable hcached hoff,
      Res.andThen_done, bcWrite_of_atEnd (atEnd_advanceKg hend _ _)]
    rfl

/-- Settles O48: the mode gives the candidate, and `KG.offset` moves only after the inner seek has committed it. -/
theorem cmSeekMovesBothPositions : Obligations.CmSeekMovesBothPositions := by
  unfold Obligations.CmSeekMovesBothPositions
  refine ⟨fun n => ⟨decode_cmSeek n .fromStart, decode_cmSeek n .fromCurrent, decode_cmSeek n .fromEnd⟩,
    fun s n mode hidle => ?_, fun s n mode c hkg hbc hmode => ?_⟩
  · rw [exec_cmSeek, State.needing_of_eq_false (State.cmActive_of_idle hidle)]
  · have hc := State.seekCandidate_fst hmode
    rw [exec_cmSeek, State.needing_of_eq_true (State.cmActive_of_active hkg hbc)]
    refine ⟨fun hneg hstart => ?_, fun hneg hrelative => ?_, fun h0 hge => ?_, fun h0 hlt => ?_⟩
    · rw [bcSeek_of_neg hc hneg, hstart]
      rfl
    · rw [bcSeek_of_neg hc hneg, State.seekCandidate_snd_of_ne_fromStart hrelative]
      rfl
    · rw [bcSeek_of_ge hc h0 hge]
      rfl
    · rw [bcSeek_of_lt hc h0 hlt]
      rfl

end

section
/-! The key the host derives from a passphrase (45_host_byte_adapter_container R205), byte by byte and through the two key
registers. -/

namespace Sys2Proof.Machine

open Sys2Proof.Claims

/-! ### The bytes of packed words (20_memory R68) -/

/-- The word cut out of a register is the one whose number stands in those 32 bits. -/
theorem word4Of_eq_of_toNat {v : Word64} {k : Nat} {w : Word4} (h : v.toNat / 2 ^ (32 * k) % 2 ^ 32 = leNumber w.toList) :
    word4Of v k = w := by
  obtain ⟨b0, b1, b2, b3⟩ := w
  simp only [Word4.toList, leNumber, List.foldr_cons, List.foldr_nil] at h
  simp only [word4Of, Word4.mk.injEq, ← BitVec.toNat_inj, BitVec.extractLsb'_toNat,
    Nat.shiftRight_eq_div_pow, Nat.pow_add, ← Nat.div_div_eq_div_mul]
  omega

theorem word4Of_packWord4s_zero (lo hi : Word4) : word4Of (packWord4s lo hi) 0 = lo := by
  refine word4Of_eq_of_toNat ?_
  simp only [packWord4s_toNat, Word4.toList, List.cons_append, List.nil_append, leNumber, List.foldr_cons, List.foldr_nil]
  omega

theorem word4Of_packWord4s_one (lo hi : Word4) : word4Of (packWord4s lo hi) 1 = hi := by
  refine word4Of_eq_of_toNat ?_
  simp only [packWord4s_toNat, Word4.toList, List.cons_append, List.nil_append, leNumber, List.foldr_cons, List.foldr_nil]
  omega

/-- The two register values of a key give the block that key (10_state R24). -/
theorem keyOf_blockWords (k : Block) : keyOf (blockWord0 k) (blockWord1 k) = k := by
  simp only [keyOf, blockWord0, blockWord1, word4Of_packWord4s_zero, word4Of_packWord4s_one]

/-! ### The derived key (R205) -/

theorem keyByte_eq (pad : Byte) (pass : List Byte) (j : Nat) :
    keyByte pad pass j = if h : j < pass.length then pass[j] else pad := by
  split
  case isTrue hlt => exact List.getD_eq_getElem pass pad hlt
  case isFalse hge => exact List.getD_eq_default pass pad (Nat.le_of_not_lt hge)

theorem deriveKey_toList (pad : Byte) (pass : List Byte) :
    (deriveKey pad pass).toList = (List.range 16).map (keyByte pad pass) := rfl

theorem keyByte_take {j n : Nat} (hj : j < n) (pad : Byte) (pass : List Byte) :
    keyByte pad (pass.take n) j = keyByte pad pass j := by
  rw [keyByte, keyByte, List.getD_eq_getElem?_getD, List.getElem?_take_of_lt hj, List.getD_eq_getElem?_getD]

/-- Only the first sixteen bytes of the passphrase enter the key. -/
theorem deriveKey_take (pad : Byte) (pass : List Byte) : deriveKey pad (pass.take 16) = deriveKey pad pass := by
  simp (disch := decide) only [deriveKey, keyByte_take]

end Sys2Proof.Machine

open Sys2Proof Sys2Proof.Machine

/-- Settles O55: the sixteen bytes are `keyByte` of their indices, which does not look past the sixteenth, and unpacking
undoes the packing of the registers. -/
theorem keyIsThePaddedPassphrase : Obligations.KeyIsThePaddedPassphrase := by
  unfold Obligations.KeyIsThePaddedPassphrase
  refine ⟨rfl, fun pad pass j hj => ?_, fun pad pass pass' _ _ htake => ?_, keyOf_blockWords⟩
  · rw [deriveKey_toList, List.getElem?_map, List.getElem?_range hj, Option.map_some, keyByte_eq]
  · rw [← deriveKey_take, htake, deriveKey_take]

end

section
/-! The container's length field (45_host_byte_adapter_container R198): its bytes are the base 256 digits of the length,
least significant first, and four of them hold the length modulo 2^32. -/

namespace Sys2Proof.Machine

theorem le32_length (n : Nat) : (le32 n).length = 4 := rfl

/-- Byte `t` of the field is the length shifted right by `8t`, cut to a byte. -/
theorem le32_getElem? {t : Nat} (ht : t < 4) (n : Nat) : (le32 n)[t]? = some (BitVec.ofNat 8 (n >>> (8 * t))) := by
  rw [le32, List.getElem?_map, List.getElem?_range ht, Option.map_some, Nat.shiftRight_eq_div_pow]

/-- Reading the field back gives the length modulo `2 ^ 32`. -/
theorem ofLE32_le32 (n : Nat) : ofLE32 (le32 n) = n % 2 ^ 32 := by
  have hbyte (t : Nat) (ht : t < 4) : ((le32 n).getD t 0).toNat = n / 2 ^ (8 * t) % 2 ^ 8 := by
    rw [List.getD_eq_getElem?_getD, le32_getElem? ht, Option.getD_some, BitVec.toNat_ofNat, Nat.shiftRight_eq_div_pow]
  rw [ofLE32, hbyte 0 (by decide), hbyte 1 (by decide), hbyte 2 (by decide), hbyte 3 (by decide)]
  omega

end Sys2Proof.Machine

open Sys2Proof Sys2Proof.Machine

/-- Settles O56: the field holds the length modulo `2 ^ 32`, which is the length below that bound; the printed cells of 5
are evaluated. -/
theorem lengthFieldIsLittleEndian : Obligations.LengthFieldIsLittleEndian := by
  unfold Obligations.LengthFieldIsLittleEndian
  exact ⟨fun n t ht => le32_getElem? ht n, le32_length, fun n hn => (ofLE32_le32 n).trans (Nat.mod_eq_of_lt hn), by decide⟩

end

section
/-! The errors (60_exceptions R230, R234, R238): what every command answers, said once, with the state that a failure leaves
and the statuses that a command may raise. -/

namespace Sys2Proof.Machine

open Sys2Proof.Claims

variable {i : Instr} {e : Err} {st : Byte} {s t u : State} {data : Word64}

/-! ### The state that a failure leaves (R238) -/

/-- None of the three partial effects touches the surface or the latch. -/
theorem afterFailure_frame (i : Instr) (st : Byte) (s : State) :
    (afterFailure i st s).surface = s.surface ∧ (afterFailure i st s).err = s.err := by
  cases i with
  | cmWriteBit | cmReadBit =>
    simp only [afterFailure]
    split
    · simp
    · exact ⟨rfl, rfl⟩
  | wrReg | rdReg | kgInit | kgSeek | kgBitAt | kgXorBit | ppGen | ppPoint | bcInit | bcSeek | bcReadBit | bcWriteBit
  | bcTell | cmSeek => exact ⟨rfl, rfl⟩

/-! ### What a command answers -/

/-- `t` is an answer of command `i` begun in `s` that the spec lists: an error of its own, or `IllegalCommand` where `i` is
no command, raised in the state that R238 gives; or a success, with `aux` filled by BC.TELL alone. -/
inductive AnswersAsListed (i : Instr) (s : State) : (t : State) → Prop
  | failure {e : Err} (hlisted : e.code ∈ mayRaise i ∨ WellFormed i = false ∧ e = .illegalCommand) :
      AnswersAsListed i s ((afterFailure i e.code s).raise e)
  | success {u : State} {aux : Byte} {data : Word64} (haux : aux ≠ 0 → ∃ p, i = .bcTell p) :
      AnswersAsListed i s (u.respond aux data)

/-- A failure with an error that the table lists; that it does is looked up in the table. -/
theorem AnswersAsListed.raise (hstate : afterFailure i e.code s = u)
    (hlisted : e.code ∈ mayRaise i := by simp [mayRaise, Err.code]) : AnswersAsListed i s (u.raise e) := by
  subst hstate
  exact .failure (.inl hlisted)

theorem AnswersAsListed.respond : AnswersAsListed i s (u.respond 0 data) := .success fun h => absurd rfl h

/-- Every command that completes answers as the spec lists. -/
theorem exec_answersAsListed (h : exec i s = .next t) : AnswersAsListed i s t := by
  cases i with
  | wrReg r v =>
    rcases execWrReg_next h with ⟨hro, rfl⟩ | ⟨-, -, rfl⟩ | ⟨-, -, rfl⟩
    · exact .failure (.inr ⟨hro, rfl⟩)
    · exact .raise rfl
    · exact .respond
  | rdReg r =>
    obtain rfl := execRdReg_next h
    exact .respond
  | kgInit =>
    obtain rfl := execKgInit_next h
    exact .respond
  | kgSeek off =>
    rcases execKgSeek_next h with ⟨-, rfl⟩ | ⟨-, -, rfl⟩ | ⟨-, -, rfl⟩
    · exact .raise rfl
    · exact .raise rfl
    · exact .respond
  | kgBitAt off =>
    rcases execKgBitAt_next h with ⟨-, rfl⟩ | ⟨-, rfl⟩ | ⟨-, -, -, rfl⟩
    · exact .raise rfl
    · exact .raise rfl
    · exact .respond
  | kgXorBit bit =>
    rcases execKgXorBit_next h with ⟨-, rfl⟩ | ⟨-, rfl⟩ | ⟨-, -, -, rfl⟩
    · exact .raise rfl
    · exact .raise rfl
    · exact .respond
  | ppGen =>
    rcases execPpGen_next h with ⟨-, rfl⟩ | ⟨-, rfl⟩
    · exact .raise rfl
    · exact .respond
  | ppPoint k =>
    rcases execPpPoint_next h with ⟨-, rfl⟩ | ⟨-, rfl⟩ | ⟨-, p, -, rfl⟩
    · exact .raise rfl
    · exact .raise rfl
    · exact .respond
  | bcInit =>
    rcases execBcInit_next h with ⟨-, rfl⟩ | ⟨-, rfl⟩
    · exact .raise rfl
    · exact .respond
  | bcSeek n mode =>
    rcases execBcSeek_next h with ⟨-, rfl⟩ | ⟨-, rfl | rfl⟩ | ⟨-, c, -, -, -, rfl⟩
    · exact .raise rfl
    · exact .raise rfl
    · exact .raise rfl
    · exact .respond
  | bcReadBit =>
    rcases execBcReadBit_next h with ⟨-, rfl⟩ | ⟨-, -, rfl⟩ | ⟨-, -, c, px, -, -, rfl⟩
    · exact .raise rfl
    · exact .raise rfl
    · exact .respond
  | bcWriteBit bit =>
    rcases execBcWriteBit_next h with ⟨-, rfl⟩ | ⟨-, -, rfl⟩ | ⟨-, -, c, px, -, -, rfl⟩
    · exact .raise rfl
    · exact .raise rfl
    · exact .respond
  | bcTell p =>
    rcases execBcTell_next h with ⟨-, rfl⟩ | ⟨-, rfl⟩ | ⟨-, c, -, rfl⟩
    · exact .raise rfl
    · exact .raise rfl
    · exact .success fun _ => ⟨p, rfl⟩
  | cmSeek n mode =>
    rcases execCmSeek_next h with ⟨-, rfl⟩ | ⟨-, rfl | rfl⟩ | ⟨-, c, -, -, -, rfl⟩
    · exact .raise rfl
    · exact .raise rfl
    · exact .raise rfl
    · exact .respond
  | cmReadBit =>
    rcases execCmReadBit_next h with ⟨-, rfl⟩ | ⟨-, -, rfl⟩ | ⟨-, -, rfl⟩ | ⟨-, -, -, -, c, px, -, -, rfl⟩
    · exact .raise rfl
    · exact .raise rfl
    · exact .raise rfl
    · exact .respond
  | cmWriteBit bit =>
    rcases execCmWriteBit_next h with ⟨-, rfl⟩ | ⟨-, rfl⟩ | ⟨-, -, -, ⟨-, rfl⟩ | ⟨-, c, px, -, -, rfl⟩⟩
    · exact .raise rfl
    · exact .raise rfl
    · exact .raise rfl
    · exact .respond

/-! ### The response of a listed answer -/

/-- The status of an answer is OK, one that the table lists, or `IllegalCommand` for a term that is no command. -/
theorem AnswersAsListed.status_listed (h : AnswersAsListed i s t) (hst : t.status = some st) :
    st = 0 ∨ st ∈ mayRaise i ∨ WellFormed i = false ∧ st = 0x04 := by
  cases h with
  | @failure e hlisted =>
    obtain rfl : e.code = st := by simpa using hst
    rcases hlisted with hmem | ⟨hwf, rfl⟩
    · exact .inr (.inl hmem)
    · exact .inr (.inr ⟨hwf, rfl⟩)
  | success =>
    obtain rfl : 0 = st := by simpa using hst
    exact .inl rfl

/-- The four commands that no session flag guards are not listed for `NotActive`. -/
theorem notActive_not_mem_mayRaise
    (hi : (∃ r v, i = .wrReg r v) ∨ (∃ r, i = .rdReg r) ∨ i = .kgInit ∨ i = .ppGen) : 0x06 ∉ mayRaise i := by
  rcases hi with ⟨r, v, rfl⟩ | ⟨r, rfl⟩ | rfl | rfl <;> simp [mayRaise]

theorem exec_bcWriteBit (bit : Bool) (s : State) :
    exec (.bcWriteBit bit) s = s.needing s.bcActive ((bcWrite bit s).andThen fun _ s => .done (.ofData 0) s) := rfl

end Sys2Proof.Machine

open Sys2Proof Sys2Proof.Machine Sys2Proof.Claims

/-- Settles O14: a failure is raised in the state that R238 gives, which has the latch and the surface of the state before
the command; a success answers OK. -/
theorem failedCommandLeavesOnlyListedEffects : Obligations.FailedCommandLeavesOnlyListedEffects := by
  unfold Obligations.FailedCommandLeavesOnlyListedEffects
  intro i s t st h hst hfail
  cases exec_answersAsListed h with
  | @failure e =>
    obtain rfl : e.code = st := by simpa using hst
    obtain ⟨hsurface, herr⟩ := afterFailure_frame i e.code s
    rw [State.raise_eq, herr]
    exact ⟨rfl, hsurface⟩
  | success =>
    obtain rfl : 0 = st := by simpa using hst
    exact absurd rfl hfail

/-- Settles O15: a failure of a command carries a listed code and nothing else, a success carries `aux` for BC.TELL alone,
and the step answers a word that is no command with `IllegalCommand`. -/
theorem responsesCarryListedStatuses : Obligations.ResponsesCarryListedStatuses := by
  unfold Obligations.ResponsesCarryListedStatuses
  refine ⟨fun i s t hwf h => ?_, fun s cw rest e hport hdecode => ⟨_, step_illegalWord hport hdecode, rfl⟩⟩
  cases exec_answersAsListed h with
  | @failure e hlisted =>
    have hmem : e.code ∈ mayRaise i := hlisted.resolve_right fun ⟨hill, _⟩ => by simp [hwf] at hill
    exact ⟨_, rfl, by simp [hmem], by simpa using e.code_le, by simp, by simp⟩
  | success haux => exact ⟨_, rfl, by simp, by simp, by simp, by simpa using haux⟩

/-- Settles O12: each guarded command is its body under its flags, the other four are not listed for `NotActive`, and the
implication is a part of the invariant. -/
theorem missingSessionGivesNotActive : Obligations.MissingSessionGivesNotActive := by
  unfold Obligations.MissingSessionGivesNotActive
  refine ⟨fun s off n k p b m => ⟨fun hkg => ⟨?_, ?_, ?_⟩, fun hpp => ⟨?_, ?_⟩, fun hbc => ⟨?_, ?_, ?_, ?_⟩,
    fun hidle => ⟨?_, ?_, ?_⟩⟩, fun s t i hi h hst => ?_, fun s hinv => hinv.bcNeedsPp⟩
  · rw [exec_kgSeek, State.needing_of_eq_false hkg]
  · rw [exec_kgBitAt, State.needing_of_eq_false hkg]
  · rw [exec_kgXorBit, State.needing_of_eq_false hkg]
  · rw [exec_ppPoint, State.needing_of_eq_false hpp]
  · rw [exec_bcInit, State.needing_of_eq_false hpp]
  · rw [exec_bcSeek, State.needing_of_eq_false hbc]
  · rw [exec_bcReadBit, State.needing_of_eq_false hbc]
  · rw [exec_bcWriteBit, State.needing_of_eq_false hbc]
  · rw [exec_bcTell, State.needing_of_eq_false hbc]
  · rw [exec_cmSeek, State.needing_of_eq_false (State.cmActive_of_idle hidle)]
  · rw [exec_cmReadBit, State.needing_of_eq_false (State.cmActive_of_idle hidle)]
  · rw [exec_cmWriteBit, State.needing_of_eq_false (State.cmActive_of_idle hidle)]
  · rcases (exec_answersAsListed h).status_listed hst with hok | hmem | ⟨-, hill⟩
    · exact absurd hok (by decide)
    · exact notActive_not_mem_mayRaise hi hmem
    · exact absurd hill (by decide)

end

section
/-! The encoding of commands (30_encoding R90 to R99): decoding the word of a well-formed command, the encoding of an
accepted word, and the ten bytes of the transport. -/

namespace Sys2Proof

/-- The fields of a well-formed command are operands that its own format admits. -/
theorem decode_encode {i : Instr} (hwf : WellFormed i = true) : decode (encode i) = .ok i := by
  rw [decode_encode_eq]
  cases i with
  | wrReg r v => exact readW_index hwf v
  | rdReg r => exact readQ_index r
  | bcSeek n mode | cmSeek n mode => exact readS_code _ mode n
  | kgXorBit b | bcWriteBit b | cmWriteBit b => exact readD_bitMod _ b
  | kgSeek | kgBitAt | ppPoint | bcTell => rfl
  | kgInit | ppGen | bcInit | bcReadBit | cmReadBit => rfl

theorem wordBytes_length (w : BitVec 80) : (wordBytes w).length = 10 := rfl

theorem wordBytes_head? (w : BitVec 80) : (wordBytes w).head? = some (cwOpcode w) := rfl

theorem decodeBytes_wordBytes {cw : CmdWord} {i : Instr} (h : decode cw = .ok i) (rest : List Byte) :
    decodeBytes (wordBytes cw ++ rest) = .ok (i, rest) := by
  simp only [decodeBytes, wordOfBytes_wordBytes, h]

end Sys2Proof

open Sys2Proof Sys2Proof.Machine

/-- Settles O2: the fields of the word are those of the command, and each format reads back what it admits. -/
theorem decodeOfEncodeIsTheCommand : Obligations.DecodeOfEncodeIsTheCommand := by
  unfold Obligations.DecodeOfEncodeIsTheCommand
  exact fun _ => decode_encode

/-- Settles O3: the operands read under an opcode determine the fields, and the fields are the whole word. -/
theorem acceptedWordIsItsEncoding : Obligations.AcceptedWordIsItsEncoding := by
  unfold Obligations.AcceptedWordIsItsEncoding
  exact fun _ _ => encode_of_decode

/-- Settles O5: the first byte is the opcode field, and the transport gives the word back, which decodes to the
command. -/
theorem byteTransportRoundTrips : Obligations.ByteTransportRoundTrips := by
  unfold Obligations.ByteTransportRoundTrips
  intro i rest hwf
  refine ⟨wordBytes_length _, ?_, decodeBytes_wordBytes (decode_encode hwf) rest⟩
  rw [encodeBytes, wordBytes_head?, encode, cwOpcode_cwOf]

/-- Settles O1: each printed word is decoded by evaluation. -/
theorem specWordsDecodeToTheirCommands : Obligations.SpecWordsDecodeToTheirCommands := by
  unfold Obligations.SpecWordsDecodeToTheirCommands
  decide

end

section
/-! The invariant of the block (10_state R30 to R36): it holds after reset, each update that a command makes keeps it,
so every command does, and so every step does. -/

namespace Sys2Proof.Machine

variable {i : Instr} {s t : State}

theorem sext64_zero_nonneg : 0 ≤ sext64 0 := by decide

/-! ### Updates that end or begin a session (10_state R41) -/

/-- New key registers with no KG session. -/
theorem State.Inv.endKg (h : s.Inv) (key0 key1 : Word64) (nonce : Word32) :
    ({ s with key0 := key0, key1 := key1, nonce := nonce, kgActive := false } : State).Inv :=
  { h with kgCached := nofun }

/-- New table registers with no table and no cursor. -/
theorem State.Inv.endTable (h : s.Inv) (seed : Word64) (width height : Word32) :
    ({ s with seed := seed, width := width, height := height, ppValid := false, bcActive := false } : State).Inv :=
  { h with
    ppBounds := nofun, ppSize := nofun, ppTable := nofun
    bcNeedsPp := nofun, bcConfig := nofun, bcCapacity := nofun, bcPosition := nofun }

/-- A new legal channel configuration with no cursor. -/
theorem State.Inv.endCursor (h : s.Inv) {c : BitVec 11} (hc : cfgLegal c = true) :
    ({ s with chancfg := c, bcActive := false } : State).Inv :=
  { h with cfg := hc, bcNeedsPp := nofun, bcConfig := nofun, bcCapacity := nofun, bcPosition := nofun }

/-- A legal register write (40 R120). -/
theorem State.Inv.writeReg (h : s.Inv) {r : Reg} {v : Word64} (hlegal : regLegal r v = true) :
    ((s.writeReg r v).endSessions r).Inv := by
  cases r with
  | key0 => exact h.endKg v s.key1 s.nonce
  | key1 => exact h.endKg s.key0 v s.nonce
  | nonce => exact h.endKg s.key0 s.key1 _
  | seed => exact h.endTable v s.width s.height
  | width => exact h.endTable s.seed _ s.height
  | height => exact h.endTable s.seed s.width _
  | chancfg =>
    obtain ⟨-, hcfg⟩ := Bool.and_eq_true_iff.mp hlegal
    exact h.endCursor hcfg
  | status | kgOffset | kgCounter | kgBlock0 | kgBlock1 | bcPosition | bcCapacity => exact h

/-- KG.INIT's state (41 R130). -/
def State.initKg (s : State) : State :=
  { s with kgOffset := 0, kgCounter := 0, kgBlock := ksBlock s.key s.nonce 0, kgActive := true }

theorem exec_kgInit (s : State) : exec .kgInit s = .next (s.initKg.respond 0 0) := rfl

/-- KG.INIT. -/
theorem State.Inv.initKg (h : s.Inv) : s.initKg.Inv :=
  { h with kgOffset := sext64_zero_nonneg, kgCached := fun _ => rfl }

/-- PP.GEN (42 R151). -/
theorem State.Inv.withGeneratedTable (h : s.Inv) (hsize : s.width.toNat * s.height.toNat ≤ Config.pointsMax) :
    s.withGeneratedTable.Inv :=
  { h with
    ppBounds := fun _ => ⟨rfl, rfl⟩, ppSize := fun _ => hsize, ppTable := fun _ => rfl
    bcNeedsPp := nofun, bcConfig := nofun, bcCapacity := nofun, bcPosition := nofun }

/-- BC.INIT (43 R162): the product fits 64 bits. -/
theorem State.Inv.initCursor (h : s.Inv) (hvalid : s.ppValid = true) : s.initCursor.Inv :=
  { h with
    bcNeedsPp := fun _ => hvalid, bcConfig := fun _ => ⟨rfl, rfl⟩
    bcCapacity := fun _ => by
      obtain ⟨-, -, -, -, -, hcount⟩ := cfgLegal_shape h.cfg
      rw [State.initCursor_bcCapacity_toNat (h.ppSize hvalid), hcount]
      rfl
    bcPosition := fun _ => ⟨sext64_zero_nonneg, Int.natCast_nonneg _⟩ }

/-- The reset values with any surface in its canonical form (10_state R42). -/
theorem State.takeReset_inv (hsurface : s.surface.wf) : s.takeReset.Inv where
  surfaceWf := hsurface
  cfg := (by decide : cfgLegal 0x101 = true)
  kgOffset := sext64_zero_nonneg
  kgCached := nofun
  ppBounds := nofun
  ppSize := nofun
  ppTable := nofun
  bcNeedsPp := nofun
  bcConfig := nofun
  bcCapacity := nofun
  bcPosition := nofun
  errCode := Nat.zero_le 6

/-! ### Every command, every input -/

theorem State.cmActive_iff (s : State) : s.cmActive = true ↔ s.kgActive = true ∧ s.bcActive = true := by
  simp [State.cmActive]

/-- A committed CM seek is a committed cursor seek to a position that is no negative offset (44 R181). -/
theorem State.Inv.cmSeek (h : s.Inv) (hactive : s.bcActive = true) {c : Int} (h0 : 0 ≤ c)
    (hlt : c < (zext64 s.bcCapacity : Int)) :
    ({ s with bcPosition := word64OfInt c, kgOffset := word64OfInt c } : State).Inv := by
  have hseek := h.seek c h0 hlt
  exact hseek.setOffset _ (hseek.bcPosition hactive).1

/-- Every command that completes keeps the invariant. -/
theorem exec_inv (hinv : s.Inv) (h : exec i s = .next t) : t.Inv := by
  cases i with
  | wrReg r v =>
    rcases execWrReg_next h with ⟨-, rfl⟩ | ⟨-, -, rfl⟩ | ⟨-, hlegal, rfl⟩
    · exact hinv.raise _
    · exact hinv.raise _
    · exact (hinv.writeReg hlegal).respond _ _
  | rdReg r =>
    obtain rfl := execRdReg_next h
    exact hinv.respond _ _
  | kgInit =>
    obtain rfl := execKgInit_next h
    exact hinv.initKg.respond _ _
  | kgSeek off =>
    rcases execKgSeek_next h with ⟨-, rfl⟩ | ⟨-, -, rfl⟩ | ⟨-, h0, rfl⟩
    · exact hinv.raise _
    · exact hinv.raise _
    · exact (hinv.setOffset off h0).respond _ _
  | kgBitAt off =>
    rcases execKgBitAt_next h with ⟨-, rfl⟩ | ⟨-, rfl⟩ | ⟨hkg, -, -, rfl⟩
    · exact hinv.raise _
    · exact hinv.raise _
    · exact (hinv.refresh hkg _).respond _ _
  | kgXorBit bit =>
    rcases execKgXorBit_next h with ⟨-, rfl⟩ | ⟨-, rfl⟩ | ⟨hkg, h0, hlt, rfl⟩
    · exact hinv.raise _
    · exact hinv.raise _
    · exact ((hinv.refresh hkg _).advanceKg (by simpa using h0) (by simpa using hlt)).respond _ _
  | ppGen =>
    rcases execPpGen_next h with ⟨-, rfl⟩ | ⟨hsize, rfl⟩
    · exact (hinv.endTable s.seed s.width s.height).raise _
    · exact (hinv.withGeneratedTable hsize).respond _ _
  | ppPoint k =>
    rcases execPpPoint_next h with ⟨-, rfl⟩ | ⟨-, rfl⟩ | ⟨-, p, -, rfl⟩
    · exact hinv.raise _
    · exact hinv.raise _
    · exact hinv.respond _ _
  | bcInit =>
    rcases execBcInit_next h with ⟨-, rfl⟩ | ⟨hvalid, rfl⟩
    · exact hinv.raise _
    · exact (hinv.initCursor hvalid).respond _ _
  | bcSeek n mode =>
    rcases execBcSeek_next h with ⟨-, rfl⟩ | ⟨-, rfl | rfl⟩ | ⟨-, c, -, h0, hlt, rfl⟩
    · exact hinv.raise _
    · exact hinv.raise _
    · exact hinv.raise _
    · exact (hinv.seek c h0 hlt).respond _ _
  | bcReadBit =>
    rcases execBcReadBit_next h with ⟨-, rfl⟩ | ⟨-, -, rfl⟩ | ⟨-, hend, c, px, -, -, rfl⟩
    · exact hinv.raise _
    · exact hinv.raise _
    · exact (hinv.advanceBc hend).respond _ _
  | bcWriteBit bit =>
    rcases execBcWriteBit_next h with ⟨-, rfl⟩ | ⟨-, -, rfl⟩ | ⟨-, hend, c, px, -, -, rfl⟩
    · exact hinv.raise _
    · exact hinv.raise _
    · exact (hinv.storeCell hend c px bit).respond _ _
  | bcTell p =>
    rcases execBcTell_next h with ⟨-, rfl⟩ | ⟨-, rfl⟩ | ⟨-, c, -, rfl⟩
    · exact hinv.raise _
    · exact hinv.raise _
    · exact hinv.respond _ _
  | cmSeek n mode =>
    rcases execCmSeek_next h with ⟨-, rfl⟩ | ⟨-, rfl | rfl⟩ | ⟨hcm, c, -, h0, hlt, rfl⟩
    · exact hinv.raise _
    · exact hinv.raise _
    · exact hinv.raise _
    · exact (hinv.cmSeek (s.cmActive_iff.mp hcm).2 h0 hlt).respond _ _
  | cmReadBit =>
    rcases execCmReadBit_next h with
      ⟨-, rfl⟩ | ⟨-, -, rfl⟩ | ⟨-, hend, rfl⟩ | ⟨hcm, hend, h0, hlt, c, px, -, -, rfl⟩
    · exact hinv.raise _
    · exact hinv.raise _
    · exact (hinv.advanceBc hend).raise _
    · have hread := (hinv.advanceBc hend).refresh (s.cmActive_iff.mp hcm).1 (sext64 s.kgOffset).toNat
      exact (hread.advanceKg (by simpa using h0) (by simpa using hlt)).respond _ _
  | cmWriteBit bit =>
    rcases execCmWriteBit_next h with ⟨-, rfl⟩ | ⟨-, rfl⟩ | ⟨hcm, h0, hlt, hcases⟩
    · exact hinv.raise _
    · exact hinv.raise _
    · have hbit := (hinv.refresh (s.cmActive_iff.mp hcm).1 (sext64 s.kgOffset).toNat).advanceKg (by simpa using h0)
        (by simpa using hlt)
      rcases hcases with ⟨-, rfl⟩ | ⟨hend, c, px, -, -, rfl⟩
      · exact hbit.raise _
      · exact (hbit.storeCell (by simpa [State.atEnd] using hend) c px _).respond _ _

theorem runWord_inv {cw : CmdWord} (hinv : s.Inv) (h : runWord cw s = .next t) : t.Inv := by
  rcases runWord_next h with ⟨i, -, hexec⟩ | ⟨e, -, rfl⟩
  · exact exec_inv hinv hexec
  · exact hinv.raise _

theorem takeInput_inv {x : PortInput} (hinv : s.Inv) (h : takeInput x s = .next t) : t.Inv := by
  rcases takeInput_next h with ⟨cw, -, hrun⟩ | ⟨-, rfl⟩ | ⟨cw, u, -, hrun, rfl⟩ | ⟨pixels, -, -, rfl⟩
  · exact runWord_inv hinv hrun
  · exact State.takeReset_inv hinv.surfaceWf
  · exact State.takeReset_inv (runWord_inv hinv hrun).surfaceWf
  · exact hinv.setSurface _ (Memory.ofPixels_wf pixels)

theorem step_inv (hinv : s.Inv) (h : step s = .next t) : t.Inv := by
  rcases step_next h with ⟨-, rfl⟩ | ⟨x, rest, -, htake⟩
  · exact hinv
  · exact takeInput_inv (hinv.setPort rest) htake

end Sys2Proof.Machine

open Sys2Proof Sys2Proof.Machine

/-- Settles O53: the reset values are those of a reset input taken with no surface attached. -/
theorem resetMeetsTheInvariant : Obligations.ResetMeetsTheInvariant := by
  unfold Obligations.ResetMeetsTheInvariant
  exact State.takeReset_inv State.reset_surface_wf

/-- Settles O54: a step takes no input or the first, and each input is a command, a reset or an attached surface, all of
which keep the invariant. -/
theorem everyStepKeepsTheInvariant : Obligations.EveryStepKeepsTheInvariant := by
  unfold Obligations.EveryStepKeepsTheInvariant
  exact fun _ _ => step_inv

end

section
/-! Frames (10_state R21, R30 to R36; 20_memory R60 to R71): what each command may change, said once for all sixteen,
and what a bit write leaves of the surface. -/

namespace Sys2Proof.Machine

open Sys2Proof.Claims

variable {i : Instr} {s t u : State}

/-! ### What a command leaves unchanged -/

/-- In `t` everything that the spec does not list as written by command `i` is as in `s`. -/
structure FrameAsListed (i : Instr) (s t : State) : Prop where
  surface : writesSurface i = false → t.surface = s.surface
  config : (∀ r v, i ≠ .wrReg r v) → t.key0 = s.key0 ∧ t.key1 = s.key1 ∧ t.nonce = s.nonce ∧ t.seed = s.seed ∧
    t.width = s.width ∧ t.height = s.height ∧ t.chancfg = s.chancfg
  kgOffset : writesKgOffset i = false → t.kgOffset = s.kgOffset
  kgBlock : writesKgBlock i = false → t.kgCounter = s.kgCounter ∧ t.kgBlock = s.kgBlock
  table : i ≠ .ppGen → t.ppPoints = s.ppPoints ∧ t.ppW = s.ppW ∧ t.ppH = s.ppH
  bcPosition : writesBcPosition i = false → t.bcPosition = s.bcPosition
  cursor : i ≠ .bcInit → t.bcCapacity = s.bcCapacity ∧ t.bcChans = s.bcChans ∧ t.bcBpc = s.bcBpc
  port : t.port = s.port

theorem FrameAsListed.refl (i : Instr) (s : State) : FrameAsListed i s s where
  surface _ := rfl
  config _ := ⟨rfl, rfl, rfl, rfl, rfl, rfl, rfl⟩
  kgOffset _ := rfl
  kgBlock _ := ⟨rfl, rfl⟩
  table _ := ⟨rfl, rfl, rfl⟩
  bcPosition _ := rfl
  cursor _ := ⟨rfl, rfl, rfl⟩
  port := rfl

/-- Answering touches the response alone. -/
theorem FrameAsListed.respond (h : FrameAsListed i s u) (aux : Byte) (data : Word64) :
    FrameAsListed i s (u.respond aux data) := { h with }

/-- Taking an error touches the response and the latch alone. -/
theorem FrameAsListed.raise (h : FrameAsListed i s u) (e : Err) : FrameAsListed i s (u.raise e) := by
  rw [State.raise_eq]
  exact { h with }

theorem frameAsListed_wrReg (r : Reg) (v : Word64) (s : State) :
    FrameAsListed (.wrReg r v) s ((s.writeReg r v).endSessions r) := by
  cases r <;> exact { FrameAsListed.refl (.wrReg _ v) s with config := fun h => absurd rfl (h _ _) }

/-- A command that computes keystream bits may load another block. -/
theorem FrameAsListed.refresh (h : FrameAsListed i s u) (hk : writesKgBlock i = true) (n : Nat) :
    FrameAsListed i s (u.refresh n) where
  surface := by simpa using h.surface
  config := by simpa using h.config
  kgOffset := by simpa using h.kgOffset
  kgBlock := by simp [hk]
  table := by simpa using h.table
  bcPosition := by simpa using h.bcPosition
  cursor := by simpa using h.cursor
  port := by simpa using h.port

/-- A command that computes keystream bits and moves `KG.offset`. -/
theorem FrameAsListed.advanceKg (h : FrameAsListed i s u) (hk : writesKgOffset i = true) :
    FrameAsListed i s u.advanceKg := { h with kgOffset := fun hno => by simp [hk] at hno }

/-- A command that moves `BC.position`. -/
theorem FrameAsListed.advanceBc (h : FrameAsListed i s u) (hb : writesBcPosition i = true) :
    FrameAsListed i s u.advanceBc := { h with bcPosition := fun hno => by simp [hb] at hno }

/-- A command that stores a cell and moves `BC.position`. -/
theorem FrameAsListed.storeCell (h : FrameAsListed i s u) (hm : writesSurface i = true) (hb : writesBcPosition i = true)
    (c : BitCell) (px : Pixel) (b : Bool) : FrameAsListed i s (u.storeCell c px b) :=
  { h with
    surface := fun hno => by simp [hm] at hno
    bcPosition := fun hno => by simp [hb] at hno }

/-- Every command that completes changes only what the spec lists for it. -/
theorem exec_frameAsListed (h : exec i s = .next t) : FrameAsListed i s t := by
  have hrefl := FrameAsListed.refl i s
  cases i with
  | wrReg r v =>
    rcases execWrReg_next h with ⟨-, rfl⟩ | ⟨-, -, rfl⟩ | ⟨-, -, rfl⟩
    · exact hrefl.raise _
    · exact hrefl.raise _
    · exact (frameAsListed_wrReg r v s).respond _ _
  | rdReg r =>
    obtain rfl := execRdReg_next h
    exact hrefl.respond _ _
  | kgInit =>
    obtain rfl := execKgInit_next h
    exact { hrefl with kgOffset := nofun, kgBlock := nofun }
  | kgSeek off =>
    rcases execKgSeek_next h with ⟨-, rfl⟩ | ⟨-, -, rfl⟩ | ⟨-, -, rfl⟩
    · exact hrefl.raise _
    · exact hrefl.raise _
    · exact { hrefl with kgOffset := nofun }
  | kgBitAt off =>
    rcases execKgBitAt_next h with ⟨-, rfl⟩ | ⟨-, rfl⟩ | ⟨-, -, -, rfl⟩
    · exact hrefl.raise _
    · exact hrefl.raise _
    · exact (hrefl.refresh rfl _).respond _ _
  | kgXorBit bit =>
    rcases execKgXorBit_next h with ⟨-, rfl⟩ | ⟨-, rfl⟩ | ⟨-, -, -, rfl⟩
    · exact hrefl.raise _
    · exact hrefl.raise _
    · exact ((hrefl.refresh rfl _).advanceKg rfl).respond _ _
  | ppGen =>
    rcases execPpGen_next h with ⟨-, rfl⟩ | ⟨-, rfl⟩
    · have hflags : FrameAsListed .ppGen s { s with bcActive := false, ppValid := false } := { hrefl with }
      exact hflags.raise _
    · exact { hrefl with table := fun hno => absurd rfl hno }
  | ppPoint k =>
    rcases execPpPoint_next h with ⟨-, rfl⟩ | ⟨-, rfl⟩ | ⟨-, p, -, rfl⟩
    · exact hrefl.raise _
    · exact hrefl.raise _
    · exact hrefl.respond _ _
  | bcInit =>
    rcases execBcInit_next h with ⟨-, rfl⟩ | ⟨-, rfl⟩
    · exact hrefl.raise _
    · exact { hrefl with bcPosition := nofun, cursor := fun hno => absurd rfl hno }
  | bcSeek n mode =>
    rcases execBcSeek_next h with ⟨-, rfl⟩ | ⟨-, rfl | rfl⟩ | ⟨-, c, -, -, -, rfl⟩
    · exact hrefl.raise _
    · exact hrefl.raise _
    · exact hrefl.raise _
    · exact { hrefl with bcPosition := nofun }
  | bcReadBit =>
    rcases execBcReadBit_next h with ⟨-, rfl⟩ | ⟨-, -, rfl⟩ | ⟨-, -, c, px, -, -, rfl⟩
    · exact hrefl.raise _
    · exact hrefl.raise _
    · exact (hrefl.advanceBc rfl).respond _ _
  | bcWriteBit bit =>
    rcases execBcWriteBit_next h with ⟨-, rfl⟩ | ⟨-, -, rfl⟩ | ⟨-, -, c, px, -, -, rfl⟩
    · exact hrefl.raise _
    · exact hrefl.raise _
    · exact (hrefl.storeCell rfl rfl c px _).respond _ _
  | bcTell p =>
    rcases execBcTell_next h with ⟨-, rfl⟩ | ⟨-, rfl⟩ | ⟨-, c, -, rfl⟩
    · exact hrefl.raise _
    · exact hrefl.raise _
    · exact hrefl.respond _ _
  | cmSeek n mode =>
    rcases execCmSeek_next h with ⟨-, rfl⟩ | ⟨-, rfl | rfl⟩ | ⟨-, c, -, -, -, rfl⟩
    · exact hrefl.raise _
    · exact hrefl.raise _
    · exact hrefl.raise _
    · exact { hrefl with kgOffset := nofun, bcPosition := nofun }
  | cmReadBit =>
    rcases execCmReadBit_next h with ⟨-, rfl⟩ | ⟨-, -, rfl⟩ | ⟨-, -, rfl⟩ | ⟨-, -, -, -, c, px, -, -, rfl⟩
    · exact hrefl.raise _
    · exact hrefl.raise _
    · exact (hrefl.advanceBc rfl).raise _
    · exact (((hrefl.advanceBc rfl).refresh rfl _).advanceKg rfl).respond _ _
  | cmWriteBit bit =>
    rcases execCmWriteBit_next h with ⟨-, rfl⟩ | ⟨-, rfl⟩ | ⟨-, -, -, ⟨-, rfl⟩ | ⟨-, c, px, -, -, rfl⟩⟩
    · exact hrefl.raise _
    · exact hrefl.raise _
    · exact ((hrefl.refresh rfl _).advanceKg rfl).raise _
    · exact (((hrefl.refresh rfl _).advanceKg rfl).storeCell rfl rfl c px _).respond _ _

/-! ### The surface after a bit write (43 R167, 44 R183) -/

/-- A bit write that completes leaves the surface as it was, or writes back the pixel of the position's cell with the
cell's bit set. -/
theorem exec_writeBit_surface {b : Bool} (hi : i = .bcWriteBit b ∨ i = .cmWriteBit b) (h : exec i s = .next t) :
    t.surface = s.surface ∨ ∃ c px b', s.tell s.bcPosition.toInt.toNat = some c ∧ s.surface.pixel c.point = some px ∧
      t.surface = s.surface.setPixel c.point (px.setBit c.chan c.bit b') := by
  rcases hi with rfl | rfl
  · rcases execBcWriteBit_next h with ⟨-, rfl⟩ | ⟨-, -, rfl⟩ | ⟨-, -, c, px, htell, hpixel, rfl⟩
    · exact .inl (by simp)
    · exact .inl (by simp)
    · exact .inr ⟨c, px, _, htell, hpixel, rfl⟩
  · rcases execCmWriteBit_next h with ⟨-, rfl⟩ | ⟨-, rfl⟩ | ⟨-, -, -, ⟨-, rfl⟩ | ⟨-, c, px, htell, hpixel, rfl⟩⟩
    · exact .inl (by simp)
    · exact .inl (by simp)
    · exact .inl (by simp)
    · exact .inr ⟨c, px, _, htell, hpixel, by
        rw [State.respond_surface, State.storeCell_surface, State.advanceKg_surface, State.refresh_surface]⟩

end Sys2Proof.Machine

open Sys2Proof Sys2Proof.Machine

/-- Settles O17: the surface is in the frame of every command that performs no write. -/
theorem onlyBitWritesChangeTheSurface : Obligations.OnlyBitWritesChangeTheSurface := by
  unfold Obligations.OnlyBitWritesChangeTheSurface
  intro i s t hi h a
  rw [(exec_frameAsListed h).surface hi]

/-- Settles O19: the configuration is in the frame of every command but SYS.WRREG. -/
theorem onlyWrRegChangesConfiguration : Obligations.OnlyWrRegChangesConfiguration := by
  unfold Obligations.OnlyWrRegChangesConfiguration
  exact fun i s t hi h => (exec_frameAsListed h).config hi

/-- Settles O20: each unit's session state is in the frame of the commands that its rule does not list. -/
theorem sessionStateWrittenOnlyAsListed : Obligations.SessionStateWrittenOnlyAsListed := by
  unfold Obligations.SessionStateWrittenOnlyAsListed
  intro i s t h
  obtain ⟨-, -, hoffset, hblock, htable, hposition, hcursor, hport⟩ := exec_frameAsListed h
  exact ⟨hoffset, hblock, htable, hposition, hcursor, hport⟩

/-- Settles O18: the surface is as it was, or one pixel is written back, which leaves every other cell, its `a` sample
and every bit but the addressed one. -/
theorem bitWriteStoresOnlyItsPixel : Obligations.BitWriteStoresOnlyItsPixel := by
  unfold Obligations.BitWriteStoresOnlyItsPixel
  intro i b s t hi h
  rcases exec_writeBit_surface hi h with hsame | ⟨c, px, b', htell, hpixel, hstore⟩
  · rw [hsame]
    exact ⟨fun c _ => ⟨fun _ _ => rfl, fun px hpx => ⟨px, hpx, rfl, fun _ _ _ _ => rfl⟩⟩, fun _ _ => rfl⟩
  · rw [htell, hstore]
    refine ⟨fun c' hc' => ?_, nofun⟩
    obtain rfl := Option.some.inj hc'
    refine ⟨fun a ha => Memory.read_setPixel_other _ _ _ a ha, fun px' hpx' => ?_⟩
    obtain rfl := Option.some.inj (hpixel.symm.trans hpx')
    exact ⟨_, Memory.pixel_setPixel_same _ _ _, Pixel.setBit_a _ _ _ _,
      fun hbit ch j hother => Pixel.bit_setBit_other px c.chan ch c.bit j b' hbit hother⟩

end

section
/-! The step on each input of the host (30_encoding R100, R101; 70_reset R260 to R263), the reset values (10_state R42),
and taking an error (60_exceptions R238). -/

namespace Sys2Proof.Machine

open Sys2Proof.Claims

variable {s t : State} {cw : CmdWord} {rest : List PortInput}

/-! ### The step (30_encoding R100) -/

theorem step_of_port_eq_cons {x : PortInput} (hport : s.port = x :: rest) :
    step s = takeInput x { s with port := rest } := by
  rw [step, hport]

theorem runWord_of_decode {i : Instr} (hdecode : decode cw = .ok i) (s : State) : runWord cw s = exec i s := by
  rw [runWord, hdecode]

/-- No command word takes a later input of the host. -/
theorem runWord_port (h : runWord cw s = .next t) : t.port = s.port := by
  rcases runWord_next h with ⟨i, -, hexec⟩ | ⟨e, -, rfl⟩
  · exact (exec_frameAsListed hexec).port
  · exact State.raise_port s _

/-! ### Reset (70_reset R260) -/

theorem resetValues_reset : ResetValues State.reset := by
  unfold ResetValues
  decide

/-- The reset input gives every element its value, whatever stands on the surface and at the port. -/
theorem resetValues_takeReset (s : State) : ResetValues s.takeReset := resetValues_reset

theorem abandonWord_issued_of_next (h : runWord cw s = .next t) : abandonWord cw true s = .next t.takeReset := by
  rw [abandonWord, if_pos rfl, h]

theorem abandonWord_issued_of_fault {f : Fault} (h : runWord cw s = .fault f) : abandonWord cw true s = .fault f := by
  rw [abandonWord, if_pos rfl, h]

/-- In a state with the reset values every command that needs a session raises `NotActive`. -/
theorem exec_of_resetValues {i : Instr} (hreset : ResetValues s) (hwr : ∀ r v, i ≠ .wrReg r v) (hrd : ∀ r, i ≠ .rdReg r)
    (hkg : i ≠ .kgInit) (hpp : i ≠ .ppGen) : exec i s = .next (s.raise .notActive) := by
  obtain ⟨-, -, -, -, -, -, -, -, hnokg, hnopp, hnobc, -⟩ := hreset
  cases i with
  | wrReg r v => exact absurd rfl (hwr r v)
  | rdReg r => exact absurd rfl (hrd r)
  | kgInit => exact absurd rfl hkg
  | ppGen => exact absurd rfl hpp
  | kgSeek | kgBitAt | kgXorBit => exact State.needing_of_eq_false hnokg s _
  | ppPoint | bcInit => exact State.needing_of_eq_false hnopp s _
  | bcSeek | bcReadBit | bcWriteBit | bcTell => exact State.needing_of_eq_false hnobc s _
  | cmSeek | cmReadBit | cmWriteBit => exact State.needing_of_eq_false (State.cmActive_of_idle (.inl hnokg)) s _

theorem generate_eq_nil (g : Prng) (w h : Nat) (seed : Word64) (hzero : w * h = 0) : generate g w h seed = [] :=
  List.eq_nil_of_length_eq_zero ((generate_length g w h seed).trans hzero)

/-- BC.INIT in a session with a table (43 R162). -/
theorem exec_bcInit_of_valid (hvalid : s.ppValid = true) :
    exec .bcInit s = .next (s.initCursor.respond 0 s.initCursor.bcCapacity) := State.needing_of_eq_true hvalid s _

end Sys2Proof.Machine

open Sys2Proof Sys2Proof.Machine

/-- Settles O7: the step hands the word to its decoded command. -/
theorem stepRunsTheDecodedCommand : Obligations.StepRunsTheDecodedCommand := by
  unfold Obligations.StepRunsTheDecodedCommand
  intro s cw rest i hport hdecode
  exact (step_of_port_eq_cons hport).trans (runWord_of_decode hdecode _)

/-- Settles O8: an empty port leaves the step no input. -/
theorem idleStepKeepsAllState : Obligations.IdleStepKeepsAllState := by
  unfold Obligations.IdleStepKeepsAllState
  intro s hport
  rw [step, hport]

/-- Settles O9: each of the resets ends in `takeReset` of the state before or after the command, which keeps the port
and the surface of that state and has the reset values elsewhere. -/
theorem resetGivesTheListedValues : Obligations.ResetGivesTheListedValues := by
  unfold Obligations.ResetGivesTheListedValues
  refine ⟨resetValues_reset, fun s rest hport => ?_, fun s cw rest hport => ?_, fun s cw rest hport => ?_⟩
  · exact ⟨_, step_reset hport, resetValues_takeReset _, rfl, rfl⟩
  · exact ⟨_, step_of_port_eq_cons hport, resetValues_takeReset _, rfl, rfl, rfl⟩
  · have hcommand : step { s with port := .command cw :: rest } = runWord cw { s with port := rest } := rfl
    rw [hcommand, step_of_port_eq_cons hport]
    refine ⟨fun u hu => ?_, fun f hf => abandonWord_issued_of_fault hf⟩
    exact ⟨_, abandonWord_issued_of_next hu, resetValues_takeReset u, rfl, runWord_port hu, rfl⟩

/-- Settles O10: the twelve other commands find their flags clear; with `WIDTH = HEIGHT = 0` the table is empty and the
capacity is a product with 0. -/
theorem afterResetOnlyFourCommandsSucceed : Obligations.AfterResetOnlyFourCommandsSucceed := by
  unfold Obligations.AfterResetOnlyFourCommandsSucceed
  refine ⟨fun s i hreset hwr hrd hkg hpp => exec_of_resetValues hreset hwr hrd hkg hpp, fun s hreset => ?_⟩
  obtain ⟨-, -, -, -, hwidth, hheight, -⟩ := hreset
  have hsize : s.width.toNat * s.height.toNat = 0 := by simp [hwidth]
  refine ⟨_, _, _, rfl, by simp, exec_ppGen_of_le ?_, by simp, ?_, exec_bcInit_of_valid rfl, by simp, ?_⟩
  · exact (Nat.le_of_eq hsize).trans (Nat.zero_le _)
  · exact generate_eq_nil _ _ _ _ hsize
  · simp [State.withGeneratedTable, hwidth]

/-- Settles O11: outside a session the surface becomes the one made of the listed pixels, which has exactly those. -/
theorem attachReplacesTheSurfaceBetweenSessions : Obligations.AttachReplacesTheSurfaceBetweenSessions := by
  unfold Obligations.AttachReplacesTheSurfaceBetweenSessions
  intro s pixels rest hport
  rw [step_of_port_eq_cons hport]
  refine ⟨fun hactive => if_pos hactive, fun hidle => ⟨Memory.ofPixels pixels, ?_, Memory.ofPixels_wf pixels, ?_⟩⟩
  · exact if_neg (by simp [hidle])
  · exact fun p px hnodup => (Memory.pixel_ofPixels hnodup p px).symm

/-- Settles O13: the equation of `raise`, and the code table row by row. -/
theorem raiseAnswersAndLatches : Obligations.RaiseAnswersAndLatches := by
  unfold Obligations.RaiseAnswersAndLatches
  exact ⟨State.raise_eq, rfl, rfl, rfl, rfl, rfl, rfl⟩

end

section
/-! The registers (10_state R24, R28; 40_system_commands R120): SYS.WRREG by the register it names, the packing of
`CHANCFG` read as a number, and the key registers' bytes. -/

namespace Sys2Proof

/-- Under the opcode of SYS.WRREG the fields are read in format W. -/
theorem decode_cwOf_wrReg (m : Byte) (v : Word64) : decode (cwOf 0x01 m v) = readW m v := by
  have hcode : Opcode.ofCode 0x01 = some .wrReg := Opcode.ofCode_code .wrReg
  rw [decode, cwOpcode_cwOf, hcode, cwMod_cwOf, cwOpd_cwOf]
  rfl

/-- Format W admits no index past the writable registers. -/
theorem readW_error {m : Byte} (h : 0x06 < m.toNat) (v : Word64) : ∃ e, readW m v = .error e := by
  cases hread : readW m v with
  | error e => exact ⟨e, rfl⟩
  | ok i =>
    obtain ⟨r, -, rfl, hwritable⟩ := readW_ok hread
    exact absurd (r.writable_iff.mp hwritable) (Nat.not_le.mpr h)

end Sys2Proof

namespace Sys2Proof.Machine

open Sys2Proof.Claims

variable {r : Reg} {v : Word64}

/-! ### SYS.WRREG (40 R120) -/

theorem exec_wrReg_of_not_writable (h : r.writable = false) (v : Word64) (s : State) :
    exec (.wrReg r v) s = .next (s.raise .illegalCommand) := if_pos (by simp [h])

theorem exec_wrReg_of_not_legal (hw : r.writable = true) (hl : regLegal r v = false) (s : State) :
    exec (.wrReg r v) s = .next (s.raise .configInvalid) := by
  refine (if_neg ?_).trans (if_pos ?_)
  · simp [hw]
  · simp [hl]

theorem exec_wrReg_of_legal (hw : r.writable = true) (hl : regLegal r v = true) (s : State) :
    exec (.wrReg r v) s = .next (((s.writeReg r v).endSessions r).respond 0 0) := by
  refine (if_neg ?_).trans (if_neg ?_)
  · simp [hw]
  · simp [hl]

/-- The registers of 32 bits. -/
theorem regLegal_word32_iff (h : r = .nonce ∨ r = .width ∨ r = .height) : regLegal r v = true ↔ v.toNat < 2 ^ 32 := by
  rcases h with rfl | rfl | rfl <;> exact decide_eq_true_iff

theorem regLegal_setWidth_of_word32 (h : r = .nonce ∨ r = .width ∨ r = .height) (v : Word32) :
    regLegal r (v.setWidth 64) = true := by
  rw [regLegal_word32_iff h, BitVec.toNat_setWidth_of_le (by decide)]
  exact v.isLt

/-- A narrow value written through the 64-bit operand arrives unchanged. -/
theorem setWidth_setWidth_64 {n : Nat} (hn : n ≤ 64) (v : BitVec n) : (v.setWidth 64).setWidth n = v := by
  rw [BitVec.setWidth_setWidth_of_le _ hn, BitVec.setWidth_eq]

theorem regLegal_chancfg_iff : regLegal .chancfg v = true ↔ ∃ c : BitVec 11, cfgLegal c = true ∧ v = c.setWidth 64 := by
  constructor
  · intro h
    obtain ⟨hlt, hcfg⟩ := Bool.and_eq_true_iff.mp h
    have hsmall : v.toNat < 2 ^ 11 := of_decide_eq_true hlt
    refine ⟨v.setWidth 11, hcfg, BitVec.eq_of_toNat_eq ?_⟩
    rw [BitVec.toNat_setWidth_of_le (by decide), BitVec.toNat_setWidth, Nat.mod_eq_of_lt hsmall]
  · rintro ⟨c, hcfg, rfl⟩
    have hsmall : (c.setWidth 64).toNat < 2 ^ 11 := by
      rw [BitVec.toNat_setWidth_of_le (by decide)]
      exact c.isLt
    refine Bool.and_eq_true_iff.mpr ⟨decide_eq_true hsmall, ?_⟩
    rwa [setWidth_setWidth_64 (by decide)]

theorem regLegal_chancfg_setWidth {c : BitVec 11} (h : cfgLegal c = true) : regLegal .chancfg (c.setWidth 64) = true :=
  regLegal_chancfg_iff.mpr ⟨c, h, rfl⟩

/-! ### A legal write to each register (10_state R41) -/

section
variable (s : State)

theorem exec_wrReg_key0 (v : Word64) :
    exec (.wrReg .key0 v) s = .next (({ s with key0 := v, kgActive := false } : State).respond 0 0) := rfl

theorem exec_wrReg_key1 (v : Word64) :
    exec (.wrReg .key1 v) s = .next (({ s with key1 := v, kgActive := false } : State).respond 0 0) := rfl

theorem exec_wrReg_seed (v : Word64) : exec (.wrReg .seed v) s =
    .next (({ s with seed := v, ppValid := false, bcActive := false } : State).respond 0 0) := rfl

theorem exec_wrReg_nonce (v : Word32) : exec (.wrReg .nonce (v.setWidth 64)) s =
    .next (({ s with nonce := v, kgActive := false } : State).respond 0 0) := by
  rw [exec_wrReg_of_legal rfl (regLegal_setWidth_of_word32 (.inl rfl) v), State.writeReg,
    setWidth_setWidth_64 (by decide)]
  rfl

theorem exec_wrReg_width (v : Word32) : exec (.wrReg .width (v.setWidth 64)) s =
    .next (({ s with width := v, ppValid := false, bcActive := false } : State).respond 0 0) := by
  rw [exec_wrReg_of_legal rfl (regLegal_setWidth_of_word32 (.inr (.inl rfl)) v), State.writeReg,
    setWidth_setWidth_64 (by decide)]
  rfl

theorem exec_wrReg_height (v : Word32) : exec (.wrReg .height (v.setWidth 64)) s =
    .next (({ s with height := v, ppValid := false, bcActive := false } : State).respond 0 0) := by
  rw [exec_wrReg_of_legal rfl (regLegal_setWidth_of_word32 (.inr (.inr rfl)) v), State.writeReg,
    setWidth_setWidth_64 (by decide)]
  rfl

theorem exec_wrReg_chancfg {c : BitVec 11} (hc : cfgLegal c = true) : exec (.wrReg .chancfg (c.setWidth 64)) s =
    .next (({ s with chancfg := c, bcActive := false } : State).respond 0 0) := by
  rw [exec_wrReg_of_legal rfl (regLegal_chancfg_setWidth hc), State.writeReg, setWidth_setWidth_64 (by decide)]
  rfl

end

/-! ### The packing of `CHANCFG` (10_state R28) -/

theorem Channel.code_ne_three (ch : Channel) : ch.code ≠ 3#2 := by cases ch <;> decide

theorem Channel.ofCode_code (ch : Channel) : Channel.ofCode ch.code = some ch := by cases ch <;> rfl

theorem Channel.code_injective : Function.Injective Channel.code := by
  intro a b h
  exact Option.some.inj (by rw [← a.ofCode_code, h, b.ofCode_code])

/-- A packed number is its count, its three slots and its depth as digits: the codes fill the first slots, zeros the
others. -/
theorem cfgNumber_digits {chans : List Channel} (h3 : chans.length ≤ 3) (depth : Nat) :
    ∃ x y z : BitVec 2, chans.map Channel.code ++ List.replicate (3 - chans.length) 0 = [x, y, z] ∧
      cfgNumber chans depth = chans.length + 4 * (x.toNat + 4 * (y.toNat + 4 * z.toNat)) + 256 * depth := by
  match chans, h3 with
  | [], _ => exact ⟨0, 0, 0, rfl, rfl⟩
  | [a], _ => exact ⟨a.code, 0, 0, rfl, rfl⟩
  | [a, b], _ => exact ⟨a.code, b.code, 0, rfl, rfl⟩
  | [a, b, d], _ => exact ⟨a.code, b.code, d.code, rfl, rfl⟩

/-- What the packed number says of the fields: the count, the depth and the slots. -/
theorem cfgFields_of_number {c : BitVec 11} {chans : List Channel} {depth : Nat} (h3 : chans.length ≤ 3)
    (hc : c.toNat = cfgNumber chans depth) :
    cfgCount c = chans.length ∧ (cfgBpc c).toNat = depth ∧
      cfgSlots c = chans.map Channel.code ++ List.replicate (3 - chans.length) 0 := by
  obtain ⟨x, y, z, hslots, hnumber⟩ := cfgNumber_digits h3 depth
  have hx := x.isLt
  have hy := y.isLt
  have hz := z.isLt
  have hlt := c.isLt
  rw [hnumber] at hc
  simp only [hslots, cfgCount, cfgBpc, cfgSlots, List.cons.injEq, ← BitVec.toNat_inj, BitVec.extractLsb'_toNat,
    Nat.shiftRight_eq_div_pow, and_true]
  omega

/-- The used slots of a packed value are the codes of its channels, so the list is read back. -/
theorem cfgChannels_of_fields {c : BitVec 11} {chans : List Channel} (hcount : cfgCount c = chans.length)
    (hslots : cfgSlots c = chans.map Channel.code ++ List.replicate (3 - chans.length) 0) :
    cfgUsed c = chans.map Channel.code ∧ cfgChannels c = chans := by
  have hused : cfgUsed c = chans.map Channel.code := by
    rw [cfgUsed, hslots, hcount]
    exact List.take_left' (List.length_map _)
  refine ⟨hused, ?_⟩
  rw [cfgChannels, hused, List.filterMap_map]
  simp [Channel.ofCode_code]

/-- A packed value of distinct channels is legal. -/
theorem cfgLegal_of_number {c : BitVec 11} {chans : List Channel} {depth : Nat} (h1 : 1 ≤ chans.length)
    (h3 : chans.length ≤ 3) (hnodup : chans.Nodup) (hdepth : 1 ≤ depth)
    (hc : c.toNat = cfgNumber chans depth) : cfgLegal c = true := by
  obtain ⟨hcount, hbpc, hslots⟩ := cfgFields_of_number h3 hc
  obtain ⟨hused, -⟩ := cfgChannels_of_fields hcount hslots
  have hunused : (cfgSlots c).drop (cfgCount c) = List.replicate (3 - chans.length) 0 := by
    rw [hslots, hcount]
    exact List.drop_left' (List.length_map _)
  have hbpc0 : cfgBpc c ≠ 0#3 := by
    intro h0
    rw [h0] at hbpc
    exact absurd hbpc.symm (Nat.ne_of_gt hdepth)
  have hcount0 : cfgCount c ≠ 0 := by omega
  simp [cfgLegal, hused, hunused, hbpc0, hcount0, Channel.code_ne_three, hnodup.map Channel.code_injective]

/-- A legal value is the packing of its own fields. -/
theorem toNat_of_cfgLegal {c : BitVec 11} (h : cfgLegal c = true) :
    c.toNat = cfgNumber (cfgChannels c) (cfgBpc c).toNat := by
  revert c
  decide +kernel

theorem cfgNumber_lt {chans : List Channel} {depth : Nat} (h3 : chans.length ≤ 3) (hdepth : depth ≤ 7) :
    cfgNumber chans depth < 2 ^ 11 := by
  obtain ⟨x, y, z, -, hnumber⟩ := cfgNumber_digits h3 depth
  have hx := x.isLt
  have hy := y.isLt
  have hz := z.isLt
  omega

end Sys2Proof.Machine

open Sys2Proof Sys2Proof.Machine Sys2Proof.Claims

/-- Settles O21: format W admits the seven writable indices; the command tests the register and then the value; a legal
write is `writeReg` and the end of the register's sessions. -/
theorem wrRegWritesAndEndsSessions : Obligations.WrRegWritesAndEndsSessions := by
  unfold Obligations.WrRegWritesAndEndsSessions
  refine ⟨fun r v hw => ?_, fun idx v hidx => ?_, fun s r v hro => exec_wrReg_of_not_writable hro v s,
    fun s r v hw hl => exec_wrReg_of_not_legal hw hl s, fun v => ⟨rfl, rfl, rfl⟩, fun r v => regLegal_word32_iff,
    fun v => regLegal_chancfg_iff,
    fun s v => ⟨exec_wrReg_key0 s v, exec_wrReg_key1 s v, exec_wrReg_seed s v⟩,
    fun s v => ⟨exec_wrReg_nonce s v, exec_wrReg_width s v, exec_wrReg_height s v⟩,
    fun s v hv => exec_wrReg_chancfg s hv⟩
  · rw [decode_cwOf_wrReg]
    exact readW_index hw v
  · rw [decode_cwOf_wrReg]
    exact readW_error hidx v

/-- Settles O22: a legal value is the packing of its own fields, and a packed number of distinct channels has legal
fields, which give the list and the depth back. -/
theorem chanCfgHoldsOrderedChannelSets : Obligations.ChanCfgHoldsOrderedChannelSets := by
  unfold Obligations.ChanCfgHoldsOrderedChannelSets
  refine ⟨fun v => regLegal_chancfg_iff.trans ⟨?_, ?_⟩, fun c chans depth h1 h3 _ _ hc => ?_, by decide⟩
  · rintro ⟨c, hlegal, rfl⟩
    obtain ⟨h1, h3, hnodup, hd1, hd7, -⟩ := cfgLegal_shape hlegal
    refine ⟨cfgChannels c, (cfgBpc c).toNat, h1, h3, hnodup, hd1, hd7, ?_⟩
    rw [BitVec.toNat_setWidth_of_le (by decide), toNat_of_cfgLegal hlegal]
  · rintro ⟨chans, depth, h1, h3, hnodup, hd1, hd7, hv⟩
    have hc : (BitVec.ofNat 11 v.toNat).toNat = v.toNat := by
      rw [BitVec.toNat_ofNat, Nat.mod_eq_of_lt (hv ▸ cfgNumber_lt h3 hd7)]
    refine ⟨_, cfgLegal_of_number h1 h3 hnodup hd1 (hc.trans hv), BitVec.eq_of_toNat_eq ?_⟩
    rw [BitVec.toNat_setWidth_of_le (by decide), hc]
  · obtain ⟨hcount, hbpc, hslots⟩ := cfgFields_of_number h3 hc
    obtain ⟨-, hchannels⟩ := cfgChannels_of_fields hcount hslots
    exact ⟨hchannels, hbpc, hcount⟩

/-- Settles O24: the sixteen bytes of the key are cut out of the two registers in order. -/
theorem keyBytesArePackedLittleEndian : Obligations.KeyBytesArePackedLittleEndian := by
  unfold Obligations.KeyBytesArePackedLittleEndian
  intro s j hj
  interval_cases j <;> exact ⟨rfl, rfl⟩

end

section
/-! The keystream across sessions (41_keystream_generator R137, R138) and the S-box (46_block_cipher_aes128 R218). -/

namespace Sys2Proof.Machine

open Sys2Proof.Claims

variable {s : State}

theorem bitData_eq (b : Bool) : bitData b = if b then 1 else 0 := rfl

/-- KG.BITAT in range, in a session whose block is cached. -/
theorem exec_kgBitAt_of_servable (hready : KgReady s) {off : Word64} (hoff : Servable off.toInt) :
    ∃ t, exec (.kgBitAt off) s = .next t ∧ t.rsp = some (rspWord 0 0 (bitData (ks s.key s.nonce off.toNat))) :=
  have ⟨_, hbit, _, _⟩ := kgBitAtReturnsTheKeystreamBit s off
  ⟨_, hbit hready hoff, rfl⟩

/-- KG.BITAT out of range. -/
theorem exec_kgBitAt_of_not_servable (hactive : s.kgActive = true) {off : Word64} (hoff : ¬ Servable off.toInt) :
    exec (.kgBitAt off) s = .next (s.raise .illegalOffset) :=
  have ⟨_, _, hillegal, _⟩ := kgBitAtReturnsTheKeystreamBit s off
  hillegal hactive hoff

/-- KG.XORBIT in range, in a session whose block is cached. -/
theorem exec_kgXorBit_of_servable (hready : KgReady s) (hoff : Servable s.kgOffset.toInt) (b : Bool) :
    ∃ t, exec (.kgXorBit b) s = .next t ∧
      t.rsp = some (rspWord 0 0 (bitData (b ^^ ks s.key s.nonce s.kgOffset.toNat))) :=
  have ⟨_, hbit, _, _⟩ := kgXorBitEncryptsAndAdvances s b
  ⟨_, hbit hready hoff, rfl⟩

/-- KG.XORBIT out of range. -/
theorem exec_kgXorBit_of_not_servable (hactive : s.kgActive = true) (hoff : ¬ Servable s.kgOffset.toInt) (b : Bool) :
    exec (.kgXorBit b) s = .next (s.raise .illegalOffset) :=
  have ⟨_, _, hillegal, _⟩ := kgXorBitEncryptsAndAdvances s b
  hillegal hactive hoff

/-! ### The S-box (46 R218) -/

/-- `b` with its four left rotations and the constant: the affine map of R218. -/
def sboxAffine (b : Byte) : Byte :=
  b ^^^ b.rotateLeft 1 ^^^ b.rotateLeft 2 ^^^ b.rotateLeft 3 ^^^ b.rotateLeft 4 ^^^ 0x63

/-- The byte that the affine map of R218 takes to `y`. -/
def sboxAffineInverse (y : Byte) : Byte := y.rotateLeft 1 ^^^ y.rotateLeft 3 ^^^ y.rotateLeft 6 ^^^ 0x05

/-- The affine map undone on the table gives 0 for 0 and the multiplicative inverse for every other byte: the table checked
byte by byte. -/
theorem sbox_affine_inverse : ∀ a : Byte, (a = 0 → sboxAffineInverse (sbox a) = 0) ∧
    (a ≠ 0 → gfMul a (sboxAffineInverse (sbox a)) = 1) ∧ sbox a = sboxAffine (sboxAffineInverse (sbox a)) := by
  decide +kernel

end Sys2Proof.Machine

open Sys2Proof Sys2Proof.Machine Sys2Proof.Claims

/-- Settles O30: inside the range the response is a function of key, nonce and offset, outside it the error. -/
theorem keystreamIgnoresHistory : Obligations.KeystreamIgnoresHistory := by
  unfold Obligations.KeystreamIgnoresHistory
  intro s1 s2 off b hready1 hready2 hkey hnonce
  obtain ⟨hactive1, -⟩ := id hready1
  obtain ⟨hactive2, -⟩ := id hready2
  refine ⟨?_, fun hoffset => ?_⟩
  · by_cases hoff : Servable off.toInt
    · obtain ⟨t1, h1, hrsp1⟩ := exec_kgBitAt_of_servable hready1 hoff
      obtain ⟨t2, h2, hrsp2⟩ := exec_kgBitAt_of_servable hready2 hoff
      exact ⟨t1, t2, h1, h2, by rw [hrsp1, hrsp2, hkey, hnonce]⟩
    · exact ⟨_, _, exec_kgBitAt_of_not_servable hactive1 hoff, exec_kgBitAt_of_not_servable hactive2 hoff, rfl⟩
  · by_cases hoff : Servable s1.kgOffset.toInt
    · obtain ⟨t1, h1, hrsp1⟩ := exec_kgXorBit_of_servable hready1 hoff b
      obtain ⟨t2, h2, hrsp2⟩ := exec_kgXorBit_of_servable hready2 (hoffset ▸ hoff) b
      exact ⟨t1, t2, h1, h2, by rw [hrsp1, hrsp2, hkey, hnonce, hoffset]⟩
    · exact ⟨_, _, exec_kgXorBit_of_not_servable hactive1 hoff b,
        exec_kgXorBit_of_not_servable hactive2 (hoffset ▸ hoff) b, rfl⟩

/-- Settles O31: both sessions XOR the one keystream bit of key, nonce and offset, which cancels. -/
theorem xorBitTwiceGivesTheBitBack : Obligations.XorBitTwiceGivesTheBitBack := by
  unfold Obligations.XorBitTwiceGivesTheBitBack
  intro s1 s2 b hready1 hready2 hkey hnonce hoffset hoff
  obtain ⟨t1, h1, hrsp1⟩ := exec_kgXorBit_of_servable hready1 hoff b
  obtain ⟨t2, h2, hrsp2⟩ :=
    exec_kgXorBit_of_servable hready2 (hoffset ▸ hoff) (b ^^ ks s1.key s1.nonce s1.kgOffset.toNat)
  refine ⟨_, t1, t2, h1, hrsp1, h2, ?_⟩
  rw [hrsp2, hkey, hnonce, hoffset, Bool.xor_assoc, Bool.xor_self, Bool.xor_false, bitData_eq]

/-- Settles O32: the byte that the affine map takes to the table's entry is the inverse. -/
theorem sboxIsTheAffineInverse : Obligations.SboxIsTheAffineInverse := by
  unfold Obligations.SboxIsTheAffineInverse
  exact fun a => ⟨sboxAffineInverse (sbox a), sbox_affine_inverse a⟩

end

section
/-! PP.GEN (42_pixel_permutation R151) and the table as a bijection onto the coordinates (42 R153). -/

namespace Sys2Proof.Machine

theorem exec_ppGen_of_gt {s : State} (h : Config.pointsMax < s.width.toNat * s.height.toNat) :
    exec .ppGen s = .next (({ s with bcActive := false, ppValid := false } : State).raise .configInvalid) := by
  have hbody : exec .ppGen s = (ppGen Config.prng s).finish := rfl
  rw [hbody, ppGen, if_pos h]
  rfl

section
variable (g : Prng) (w h : Word32) (seed : Word64)

/-- An entry of the table is a coordinate inside the bounds. -/
theorem generate_getElem?_bounds {k : Nat} {p : Point} (hk : (generate g w.toNat h.toNat seed)[k]? = some p) :
    p.x.toNat < w.toNat ∧ p.y.toNat < h.toNat :=
  (mem_generate g seed w.isLt h.isLt p).mp (List.mem_of_getElem? hk)

/-- A coordinate inside the bounds stands at one index, and the table has no second. -/
theorem generate_existsUnique_index {p : Point} (hx : p.x.toNat < w.toNat) (hy : p.y.toNat < h.toNat) :
    ∃ k, k < w.toNat * h.toNat ∧ (generate g w.toNat h.toNat seed)[k]? = some p ∧
      ∀ k', (generate g w.toNat h.toNat seed)[k']? = some p → k' = k := by
  have hmem := (mem_generate g seed w.isLt h.isLt p).mpr ⟨hx, hy⟩
  obtain ⟨k, hlt, hk⟩ := List.mem_iff_getElem.mp hmem
  have hk? : (generate g w.toNat h.toNat seed)[k]? = some p := by rw [List.getElem?_eq_getElem hlt, hk]
  refine ⟨k, generate_length g _ _ seed ▸ hlt, hk?, fun k' hk' => ?_⟩
  exact ((List.getElem?_inj hlt (generate_nodup g seed w.isLt h.isLt)).mp (hk?.trans hk'.symm)).symm

end

end Sys2Proof.Machine

open Sys2Proof Sys2Proof.Machine

/-- Settles O33: the body tests the number of points against the limit. -/
theorem ppGenBuildsTheTable : Obligations.PpGenBuildsTheTable := by
  unfold Obligations.PpGenBuildsTheTable
  exact ⟨decode_encode_eq .ppGen, fun s => ⟨exec_ppGen_of_le, exec_ppGen_of_gt⟩⟩

/-- Settles O34: a success of PP.GEN leaves the generated table, which rearranges the row-major list of the coordinates
without repetition. -/
theorem generatedTableIsABijection : Obligations.GeneratedTableIsABijection := by
  unfold Obligations.GeneratedTableIsABijection
  refine ⟨fun s t h hok => ?_, fun g w h seed => ⟨generate_length g _ _ seed, fun k p => ?_, fun p => ?_⟩⟩
  · rcases execPpGen_next h with ⟨-, rfl⟩ | ⟨-, rfl⟩
    · simp at hok
    · exact ⟨rfl, rfl, rfl⟩
  · exact generate_getElem?_bounds g w h seed
  · exact generate_existsUnique_index g w h seed

end

section
/-! BC.WRITEBIT as its guard and its body (43_bit_cursor R167), and the stops of the model at a cell that is not there
(20_memory R73). -/

namespace Sys2Proof.Machine

open Sys2Proof.Claims

variable {s : State} {f : Fault}

/-- The bits of a pixel after one of them is set. -/
theorem Pixel.bit_setBit (px : Pixel) (ch ch' : Channel) {i : Nat} (j : Nat) (b : Bool) (hi : i < 8) :
    (px.setBit ch i b).bit ch' j = if ch' = ch ∧ j = i then b else px.bit ch' j := by
  split
  · next heq =>
    obtain ⟨rfl, rfl⟩ := heq
    exact px.bit_setBit_same ch' j b hi
  · next hne => exact px.bit_setBit_other ch ch' i j b hi (not_and_or.mp hne)

/-- The position has no cell, or its cell's pixel is not on the surface; the stop of each. -/
def MissingCell (s : State) (f : Fault) : Prop :=
  (∃ c, s.tell s.bcPosition.toInt.toNat = some c ∧ s.surface.pixel c.point = none) ∧ f = .pixelAbsent ∨
    s.tell s.bcPosition.toInt.toNat = none ∧ f = .cellUndefined

theorem MissingCell.fetchCell (h : MissingCell s f) : s.fetchCell = .stuck f := by
  rcases h with ⟨⟨c, hsome, hpixel⟩, rfl⟩ | ⟨hnone, rfl⟩
  · simp only [State.fetchCell, sext64, hsome, hpixel]
  · simp only [State.fetchCell, sext64, hnone]

theorem atEnd_eq_false_of_not_atEnd (h : ¬ AtEnd s) : s.atEnd = false := decide_eq_false h

theorem MissingCell.bcRead (h : MissingCell s f) (hrange : ¬ AtEnd s) : bcRead s = .stuck f := by
  rw [Machine.bcRead, atEnd_eq_false_of_not_atEnd hrange, h.fetchCell]
  rfl

theorem MissingCell.bcWrite (h : MissingCell s f) (hrange : ¬ AtEnd s) (b : Bool) : bcWrite b s = .stuck f := by
  rw [Machine.bcWrite, atEnd_eq_false_of_not_atEnd hrange, h.fetchCell]
  rfl

/-- `KsBit` and the advance of `KG.offset` leave the cursor at its missing cell. -/
theorem MissingCell.refresh_advanceKg (h : MissingCell s f) (n : Nat) : MissingCell (s.refresh n).advanceKg f := by
  have htell : ∀ p, (s.refresh n).advanceKg.tell p = s.tell p := State.tell_congr (by simp) (by simp) (by simp)
  simpa [MissingCell, htell] using h

end Sys2Proof.Machine

open Sys2Proof Sys2Proof.Machine Sys2Proof.Claims

/-- Settles O41: on a cell `BcWrite` stores the pixel with the one bit set, at the end of the medium it raises before
any access, and without a cursor the guard does. -/
theorem bcWriteBitStoresTheCell : Obligations.BcWriteBitStoresTheCell := by
  unfold Obligations.BcWriteBitStoresTheCell
  refine ⟨fun b => (decode_encode_eq (.bcWriteBit b)).trans (readD_bitMod _ b), fun s b hidle => ?_,
    fun s b c px hactive hcell => ?_, fun s b hactive hend => ?_⟩
  · rw [exec_bcWriteBit, State.needing_of_eq_false hidle]
  · refine ⟨px.setBit c.chan c.bit b, px.setBit_a _ _ _, fun hbit ch j => px.bit_setBit c.chan ch j b hbit, ?_⟩
    rw [exec_bcWriteBit, State.needing_of_eq_true hactive, bcWrite_of_onCell hcell]
    rfl
  · rw [exec_bcWriteBit, State.needing_of_eq_true hactive, bcWrite_of_atEnd hend]
    rfl

/-- Settles O43: the fetch of the cell stops the two cursor steps, and with them the four bit commands; PP.POINT and
BC.TELL stop at the entry they look up. -/
theorem absentPixelStopsTheMachine : Obligations.AbsentPixelStopsTheMachine := by
  unfold Obligations.AbsentPixelStopsTheMachine
  refine ⟨fun s k hvalid hk hnone => ?_, fun s p hactive h0 hlt hnone => ?_, fun s b f hactive hrange hmissing => ?_⟩
  · rw [exec_ppPoint, State.needing_of_eq_true hvalid, ppPoint, zext64, if_neg (Nat.not_le.mpr hk), hnone]
    rfl
  · have hinside : ¬ (sext64 p < 0 ∨ (zext64 s.bcCapacity : Int) ≤ sext64 p) :=
      not_or.mpr ⟨Int.not_lt.mpr h0, Int.not_le.mpr hlt⟩
    rw [exec_bcTell, State.needing_of_eq_true hactive, bcTell, if_neg hinside, sext64, hnone]
    rfl
  · have hcell : MissingCell s f := hmissing
    refine ⟨?_, ?_, fun hkg => ?_, fun hkg ⟨hoff0, hofflt⟩ => ?_⟩
    · rw [exec_bcReadBit, State.needing_of_eq_true hactive, hcell.bcRead hrange]
      rfl
    · rw [exec_bcWriteBit, State.needing_of_eq_true hactive, hcell.bcWrite hrange]
      rfl
    · rw [exec_cmReadBit, State.needing_of_eq_true (State.cmActive_of_active hkg hactive), hcell.bcRead hrange]
      rfl
    · rw [exec_cmWriteBit, State.needing_of_eq_true (State.cmActive_of_active hkg hactive), 
        ksBit_ok (i := sext64 s.kgOffset) hoff0 hofflt, Res.andThen_done,
        (hcell.refresh_advanceKg _).bcWrite (by simpa [AtEnd] using hrange)]
      rfl

end

section
/-! The bit cells as a medium (43_bit_cursor R160, R161; 44_cipher_middleware): `Tell` numbers the cells one to one, a
stored bit is in its cell and in no other, and one bit command of either cursor, raw or ciphered, works on the cell of
its position. -/

namespace Sys2Proof.Machine

open Sys2Proof.Claims

variable {s t u : State}

/-! ### `Tell` one to one and onto (43 R161) -/

/-- Two positions with one cell are one: the cell determines the three digits of the position. -/
theorem State.Inv.tell_injective (hinv : s.Inv) (hactive : s.bcActive = true) {p q : Nat} {c : BitCell}
    (htp : s.tell p = some c) (htq : s.tell q = some c) : p = q := by
  obtain ⟨point, ch, i⟩ := c
  obtain ⟨hpoint, hchan, hbit⟩ := (s.tell_eq_some_iff p point ch i).mp htp
  obtain ⟨hpoint', hchan', hbit'⟩ := (s.tell_eq_some_iff q point ch i).mp htq
  obtain ⟨-, -, hnodup, -, -⟩ := hinv.cursor_shape hactive
  have htable := hinv.table_nodup (hinv.bcNeedsPp hactive)
  have hplane : p / (s.bcChans.length * s.bcBpc.toNat) = q / (s.bcChans.length * s.bcBpc.toNat) :=
    (List.getElem?_inj (List.getElem?_eq_some_iff.mp hpoint).1 htable).mp (hpoint.trans hpoint'.symm)
  have hdigit : p / s.bcBpc.toNat % s.bcChans.length = q / s.bcBpc.toNat % s.bcChans.length :=
    (List.getElem?_inj (List.getElem?_eq_some_iff.mp hchan).1 hnodup).mp (hchan.trans hchan'.symm)
  have hquot : p / s.bcBpc.toNat = q / s.bcBpc.toNat := by
    rw [Nat.mul_comm, ← Nat.div_div_eq_div_mul, ← Nat.div_div_eq_div_mul] at hplane
    rw [← Nat.div_add_mod (p / s.bcBpc.toNat) s.bcChans.length, hplane, hdigit, Nat.div_add_mod]
  rw [← Nat.div_add_mod p s.bcBpc.toNat, hquot, ← hbit, hbit', Nat.div_add_mod]

/-- The position of the cell with point index `k`, channel index `j` and bit `i`. -/
theorem State.tell_of_digits {k j i : Nat} {point : Point} {ch : Channel} (hk : s.ppPoints[k]? = some point)
    (hj : s.bcChans[j]? = some ch) (hi : i < s.bcBpc.toNat) :
    s.tell ((k * s.bcChans.length + j) * s.bcBpc.toNat + i) = some ⟨point, ch, i⟩ := by
  have hjlt : j < s.bcChans.length := (List.getElem?_eq_some_iff.mp hj).1
  have hquot : ((k * s.bcChans.length + j) * s.bcBpc.toNat + i) / s.bcBpc.toNat = k * s.bcChans.length + j := by
    rw [Nat.mul_comm, Nat.mul_add_div (by omega), Nat.div_eq_of_lt hi, Nat.add_zero]
  refine (s.tell_eq_some_iff _ _ _ _).mpr ⟨?_, ?_, ?_⟩
  · rw [Nat.mul_comm s.bcChans.length, ← Nat.div_div_eq_div_mul, hquot, Nat.mul_comm, Nat.mul_add_div (by omega),
      Nat.div_eq_of_lt hjlt, Nat.add_zero, hk]
  · rw [hquot, Nat.mul_comm, Nat.mul_add_mod, Nat.mod_eq_of_lt hjlt, hj]
  · rw [Nat.mul_comm, Nat.mul_add_mod, Nat.mod_eq_of_lt hi]

/-- Every cell inside the bounds, the channels and the depth has a position below the capacity. -/
theorem State.Inv.exists_position (hinv : s.Inv) (hactive : s.bcActive = true) {c : BitCell}
    (hx : c.point.x.toNat < s.ppW.toNat) (hy : c.point.y.toNat < s.ppH.toNat) (hchan : c.chan ∈ s.bcChans)
    (hbit : c.bit < s.bcBpc.toNat) : ∃ p, p < s.bcCapacity.toNat ∧ s.tell p = some c := by
  have hmem : c.point ∈ s.ppPoints := by
    rw [hinv.ppTable (hinv.bcNeedsPp hactive)]
    exact (mem_generate _ _ s.ppW.isLt s.ppH.isLt _).mpr ⟨hx, hy⟩
  obtain ⟨k, hk⟩ := List.mem_iff_getElem?.mp hmem
  obtain ⟨j, hj⟩ := List.mem_iff_getElem?.mp hchan
  refine ⟨_, ?_, State.tell_of_digits hk hj hbit⟩
  have hklt : k < s.ppPoints.length := (List.getElem?_eq_some_iff.mp hk).1
  have hjlt : j < s.bcChans.length := (List.getElem?_eq_some_iff.mp hj).1
  rw [(hinv.capacity_eq hactive).1, ← Nat.mul_assoc]
  calc (k * s.bcChans.length + j) * s.bcBpc.toNat + c.bit
      < (k * s.bcChans.length + j + 1) * s.bcBpc.toNat := by rw [Nat.succ_mul]; omega
    _ ≤ (k + 1) * s.bcChans.length * s.bcBpc.toNat := Nat.mul_le_mul_right _ (by rw [Nat.succ_mul]; omega)
    _ ≤ s.ppPoints.length * s.bcChans.length * s.bcBpc.toNat :=
      Nat.mul_le_mul_right _ (Nat.mul_le_mul_right _ hklt)

/-! ### What a cell holds -/

theorem State.cellBit_eq_some_iff {p : Nat} {v : Bool} :
    s.cellBit p = some v ↔
      ∃ c px, s.tell p = some c ∧ s.surface.pixel c.point = some px ∧ px.bit c.chan c.bit = v := by
  unfold State.cellBit
  cases s.tell p with
  | none => simp
  | some c =>
    cases hpixel : s.surface.pixel c.point with
    | none => simp [hpixel]
    | some px => simp [hpixel]

/-- What a cell holds depends on the cell and on the pixels alone. -/
theorem State.cellBit_congr {p : Nat} (htell : t.tell p = s.tell p)
    (hpixels : ∀ q, t.surface.pixel q = s.surface.pixel q) : t.cellBit p = s.cellBit p := by
  simp only [State.cellBit, htell, hpixels]

/-- On a surface with all pixels every cell below the capacity holds a bit (43 R161, 20_memory R73). -/
theorem State.Inv.exists_cellBit (hinv : s.Inv) (hactive : s.bcActive = true)
    (hcovers : s.surface.Covers s.ppW.toNat s.ppH.toNat) {p : Nat} (hp : p < s.bcCapacity.toNat) :
    ∃ v, s.cellBit p = some v := by
  obtain ⟨point, ch, -, -, htell⟩ := hinv.tell_isSome hactive hp
  obtain ⟨hx, hy, -, -⟩ := hinv.tell_in_range hactive htell
  obtain ⟨px, hpixel⟩ := hcovers point hx hy
  exact ⟨_, State.cellBit_eq_some_iff.mpr ⟨_, px, htell, hpixel, rfl⟩⟩

/-- In `t` the cells and the keystream are those of `s`: the same table, cursor configuration, key and nonce. -/
structure SameMedium (s t : State) : Prop where
  ppPoints : t.ppPoints = s.ppPoints
  bcChans : t.bcChans = s.bcChans
  bcBpc : t.bcBpc = s.bcBpc
  bcCapacity : t.bcCapacity = s.bcCapacity
  key : t.key = s.key
  nonce : t.nonce = s.nonce

theorem SameMedium.refl (s : State) : SameMedium s s := ⟨rfl, rfl, rfl, rfl, rfl, rfl⟩

theorem SameMedium.symm (h : SameMedium s t) : SameMedium t s :=
  ⟨h.ppPoints.symm, h.bcChans.symm, h.bcBpc.symm, h.bcCapacity.symm, h.key.symm, h.nonce.symm⟩

theorem SameMedium.trans (h : SameMedium s t) (h' : SameMedium t u) : SameMedium s u where
  ppPoints := h'.ppPoints.trans h.ppPoints
  bcChans := h'.bcChans.trans h.bcChans
  bcBpc := h'.bcBpc.trans h.bcBpc
  bcCapacity := h'.bcCapacity.trans h.bcCapacity
  key := h'.key.trans h.key
  nonce := h'.nonce.trans h.nonce

theorem SameMedium.tell (h : SameMedium s t) (p : Nat) : t.tell p = s.tell p :=
  State.tell_congr h.ppPoints h.bcChans h.bcBpc p

theorem SameMedium.cellBit (h : SameMedium s t) (hsurface : t.surface = s.surface) (p : Nat) :
    t.cellBit p = s.cellBit p := State.cellBit_congr (h.tell p) fun q => by rw [hsurface]

/-- The addressed bit of a pixel written back is in its cell, and every other cell holds what it held. -/
theorem SameMedium.cellBit_setPixel (h : SameMedium s t) {n : Nat} {c : BitCell} {px : Pixel} {b : Bool}
    (hcell : s.tell n = some c) (hpixel : s.surface.pixel c.point = some px) (hbit : c.bit < 8)
    (hsurface : t.surface = s.surface.setPixel c.point (px.setBit c.chan c.bit b)) :
    t.cellBit n = some b ∧ ∀ p, s.tell p ≠ some c → t.cellBit p = s.cellBit p := by
  constructor
  · refine State.cellBit_eq_some_iff.mpr ⟨c, _, (h.tell n).trans hcell, ?_, px.bit_setBit_same _ _ b hbit⟩
    rw [hsurface, Memory.pixel_setPixel_same]
  · intro p hp
    unfold State.cellBit
    rw [h.tell p, hsurface]
    cases htell : s.tell p with
    | none => rfl
    | some c' =>
      by_cases hpoint : c'.point = c.point
      · have hother : c'.chan ≠ c.chan ∨ c'.bit ≠ c.bit := by
          by_contra hsame
          simp only [ne_eq, not_or, not_not] at hsame
          apply hp
          rw [htell]
          cases c
          cases c'
          simp_all
        simp only [hpoint, Memory.pixel_setPixel_same, hpixel, px.bit_setBit_other _ _ _ _ b hbit hother]
      · simp only [Memory.pixel_setPixel_other _ _ hpoint]

/-! ### A cursor in session -/

/-- The keystream bit that a cursor adds to cell `p`: none for the raw cursor. -/
def cipherBit (c : BitCursor) (s : State) (p : Nat) : Bool := decide (c = .ciphered) && ks s.key s.nonce p

theorem cipherBit_raw (s : State) (p : Nat) : cipherBit .raw s p = false := rfl

theorem cipherBit_ciphered (s : State) (p : Nat) : cipherBit .ciphered s p = ks s.key s.nonce p := rfl

theorem SameMedium.cipherBit (h : SameMedium s t) (c : BitCursor) (p : Nat) : cipherBit c t p = cipherBit c s p := by
  simp only [Machine.cipherBit, h.key, h.nonce]

/-- Cursor `c` is in session in `s` at position `n`, with both positions equal when it is the ciphered one (44 R184). -/
structure Session (c : BitCursor) (s : State) (n : Nat) : Prop where
  inv : s.Inv
  ready : CursorReady c s
  position : s.bcPosition.toNat = n
  synced : c = .ciphered → s.Synced

/-- `t` is `s` after one bit command of cursor `c`, apart from the surface. -/
structure Advances (c : BitCursor) (s t : State) : Prop where
  medium : SameMedium s t
  kgActive : t.kgActive = s.kgActive
  bcActive : t.bcActive = s.bcActive
  bcPosition : t.bcPosition = s.bcPosition + 1
  kgOffset : c = .ciphered → t.kgOffset = s.kgOffset + 1

section
variable {c : BitCursor} {n : Nat} {cell : BitCell} {px : Pixel}

theorem Session.bcActive (h : Session c s n) : s.bcActive = true := h.ready.1

theorem Session.kgActive (h : Session .ciphered s n) : s.kgActive = true := h.ready.2 rfl

/-- The command took the session one position on. -/
theorem Session.advance (h : Session c s n) (hlt : n < s.bcCapacity.toNat) (hadv : Advances c s t) (hinv : t.Inv) :
    Session c t (n + 1) where
  inv := hinv
  ready := ⟨hadv.bcActive.trans h.bcActive, fun hc => hadv.kgActive.trans (h.ready.2 hc)⟩
  position := by
    obtain ⟨-, hcap⟩ := h.inv.capacity_eq h.bcActive
    have hpos := h.position
    rw [hadv.bcPosition, BitVec.toNat_add, show (1 : Word64).toNat = 1 from rfl]
    omega
  synced hc := by
    have heq : s.kgOffset = s.bcPosition := h.synced hc
    rw [State.Synced, hadv.kgOffset hc, hadv.bcPosition, heq]

/-- A position is the same number read as a signed word (C7). -/
theorem Session.toInt_position (h : Session c s n) : s.bcPosition.toInt = n := by
  rw [← h.position]
  exact (h.inv.position h.bcActive).1

/-- A cell that holds a bit is a cell the cursor can stand on. -/
theorem Session.onCell (h : Session c s n) (hlt : n < s.bcCapacity.toNat) {v : Bool} (hv : s.cellBit n = some v) :
    ∃ cell px, OnCell s cell px ∧ s.tell n = some cell ∧ cell.bit < 8 ∧ px.bit cell.chan cell.bit = v := by
  obtain ⟨cell, px, htell, hpixel, hbit⟩ := State.cellBit_eq_some_iff.mp hv
  obtain ⟨-, -, -, hdepth⟩ := h.inv.tell_in_range h.bcActive htell
  obtain ⟨-, -, -, -, hbpc⟩ := h.inv.cursor_shape h.bcActive
  have hpos := h.toInt_position
  refine ⟨cell, px, ⟨by omega, by omega, ?_, hpixel⟩, htell, by omega, hbit⟩
  rw [hpos, Int.toNat_natCast, htell]

/-- The generator serves every position of the ciphered cursor: the capacity is far below the offset limit. -/
theorem Session.keystream (h : Session .ciphered s n) :
    KgReady s ∧ Servable s.kgOffset.toInt ∧ s.kgOffset.toNat = n := by
  have hactive := h.kgActive
  have heq : s.kgOffset = s.bcPosition := h.synced rfl
  obtain ⟨-, hle⟩ := h.inv.position h.bcActive
  obtain ⟨-, hcap⟩ := h.inv.capacity_eq h.bcActive
  have hpos := h.position
  refine ⟨⟨hactive, h.inv.kgCached hactive⟩, ?_, by rw [heq, hpos]⟩
  rw [heq, h.toInt_position]
  exact ⟨by omega, by omega⟩

/-! ### One bit command of either cursor -/

/-- A write stores the bit, enciphered when the cursor is, and advances. -/
theorem Session.exec_writeBit (h : Session c s n) (hcell : OnCell s cell px) (b : Bool) :
    ∃ t, exec (c.writeBit b) s = .next t ∧ t.rsp = some (rspWord 0 0 0) ∧ Advances c s t ∧
      t.surface = s.surface.setPixel cell.point (px.setBit cell.chan cell.bit (b ^^ cipherBit c s n)) := by
  cases c with
  | raw =>
    refine ⟨(s.storeCell cell px b).respond 0 0, ?_, rfl, ⟨⟨rfl, rfl, rfl, rfl, rfl, rfl⟩, rfl, rfl, rfl, nofun⟩, ?_⟩
    · rw [BitCursor.writeBit, exec_bcWriteBit, State.needing_of_eq_true h.bcActive, bcWrite_of_onCell hcell]
      rfl
    · rw [cipherBit_raw, Bool.xor_false]
      rfl
  | ciphered =>
    obtain ⟨hready, hoff, hn⟩ := h.keystream
    obtain ⟨-, -, hwrite, -, -⟩ := cmWriteBitEncrypts
    refine ⟨_, hwrite s b cell px hready h.bcActive hcell hoff, rfl,
      ⟨⟨rfl, rfl, rfl, rfl, rfl, rfl⟩, rfl, rfl, rfl, fun _ => rfl⟩, ?_⟩
    rw [cipherBit_ciphered, ← hn]
    rfl

/-- A read answers the bit, deciphered when the cursor is, and advances. -/
theorem Session.exec_readBit (h : Session c s n) (hcell : OnCell s cell px) :
    ∃ t, exec c.readBit s = .next t ∧
      t.rsp = some (rspWord 0 0 (bitData (px.bit cell.chan cell.bit ^^ cipherBit c s n))) ∧ Advances c s t ∧
      t.surface = s.surface := by
  cases c with
  | raw =>
    refine ⟨s.advanceBc.respond 0 (bitData (px.bit cell.chan cell.bit)), ?_, ?_,
      ⟨⟨rfl, rfl, rfl, rfl, rfl, rfl⟩, rfl, rfl, rfl, nofun⟩, rfl⟩
    · rw [BitCursor.readBit, exec_bcReadBit, State.needing_of_eq_true h.bcActive, bcRead_of_onCell hcell]
      rfl
    · rw [cipherBit_raw, Bool.xor_false]
      rfl
  | ciphered =>
    obtain ⟨hready, hoff, hn⟩ := h.keystream
    obtain ⟨-, -, hread, -, -⟩ := cmReadBitDecrypts
    refine ⟨_, hread s cell px hready h.bcActive hcell hoff, ?_,
      ⟨⟨rfl, rfl, rfl, rfl, rfl, rfl⟩, rfl, rfl, rfl, fun _ => rfl⟩, rfl⟩
    rw [cipherBit_ciphered, ← hn]
    rfl

/-- A seek from the start to a position below the capacity begins the session there (43 R164, 44 R181). -/
theorem exec_seek_fromStart (hinv : s.Inv) (hready : CursorReady c s) {k : Word64}
    (hlt : k.toNat < s.bcCapacity.toNat) :
    ∃ t, exec (c.seek k .fromStart) s = .next t ∧ t.rsp = some (rspWord 0 0 k) ∧ SameMedium s t ∧
      t.surface = s.surface ∧ Session c t k.toNat := by
  obtain ⟨hbc, hkg⟩ := id hready
  obtain ⟨-, hcap⟩ := hinv.capacity_eq hbc
  have hint : k.toInt = k.toNat := toInt_small k (by omega)
  have h0 : 0 ≤ k.toInt := by omega
  have hltInt : k.toInt < (s.bcCapacity.toNat : Int) := by omega
  cases c with
  | raw =>
    obtain ⟨-, -, hseek⟩ := bcSeekCommitsInRangeCandidates
    obtain ⟨-, -, -, hcommit⟩ := hseek s k .fromStart k.toInt hbc (.inl ⟨rfl, rfl⟩)
    have hexec := hcommit h0 hltInt
    rw [BitVec.ofInt_toInt] at hexec
    exact ⟨_, hexec, rfl, ⟨rfl, rfl, rfl, rfl, rfl, rfl⟩, rfl, exec_inv hinv hexec, hready, rfl, nofun⟩
  | ciphered =>
    obtain ⟨-, -, hseek⟩ := cmSeekMovesBothPositions
    obtain ⟨-, -, -, hcommit⟩ := hseek s k .fromStart k.toInt (hkg rfl) hbc (.inl ⟨rfl, rfl⟩)
    have hexec := hcommit h0 hltInt
    rw [BitVec.ofInt_toInt] at hexec
    exact ⟨_, hexec, rfl, ⟨rfl, rfl, rfl, rfl, rfl, rfl⟩, rfl, exec_inv hinv hexec, hready, rfl, fun _ => rfl⟩

/-- A read of a cell below the capacity answers what the cell holds and goes on to the next. -/
theorem Session.read (h : Session c s n) (hlt : n < s.bcCapacity.toNat) {v : Bool} (hv : s.cellBit n = some v) :
    ∃ t, exec c.readBit s = .next t ∧ t.rsp = some (rspWord 0 0 (bitData (v ^^ cipherBit c s n))) ∧ SameMedium s t ∧
      t.surface = s.surface ∧ Session c t (n + 1) := by
  obtain ⟨cell, px, hcell, -, -, rfl⟩ := h.onCell hlt hv
  obtain ⟨t, hexec, hrsp, hadv, hsurface⟩ := h.exec_readBit hcell
  exact ⟨t, hexec, hrsp, hadv.medium, hsurface, h.advance hlt hadv (exec_inv h.inv hexec)⟩

end

end Sys2Proof.Machine
end

section
/-! What the cells hold after bits are written through a cursor (43_bit_cursor R167, R169; 44_cipher_middleware R183 to
R185): one bit, bits one after the other, and what a later session reads. -/

namespace Sys2Proof.Machine

open Sys2Proof.Claims

variable {s t u : State}

/-! ### Bits written one after the other -/

/-- From position `n` on the cells hold the bits, enciphered when the cursor is. -/
def HoldsBits (c : BitCursor) (s : State) (n : Nat) (bits : List Bool) : Prop :=
  ∀ i b, bits[i]? = some b → s.cellBit (n + i) = some (b ^^ cipherBit c s (n + i))

/-- Every cell below the capacity holds a bit. -/
def Full (s : State) : Prop := ∀ p, p < s.bcCapacity.toNat → ∃ v, s.cellBit p = some v

/-- `t` is `s` after the bits were written through cursor `c` from position `n` on. -/
structure Wrote (c : BitCursor) (n : Nat) (bits : List Bool) (s t : State) : Prop where
  medium : SameMedium s t
  session : Session c t (n + bits.length)
  holds : HoldsBits c t n bits
  others : ∀ p, p < s.bcCapacity.toNat → p < n ∨ n + bits.length ≤ p → t.cellBit p = s.cellBit p

section
variable {c : BitCursor} {n : Nat} {bits bits' : List Bool}

/-- Bits in cells that are not written over stay. -/
theorem HoldsBits.of_cellBit_eq (h : HoldsBits c s n bits) (hm : SameMedium s t)
    (hcells : ∀ p, n ≤ p → p < n + bits.length → t.cellBit p = s.cellBit p) : HoldsBits c t n bits := by
  intro i b hb
  have hi : i < bits.length := (List.getElem?_eq_some_iff.mp hb).1
  rw [hcells (n + i) (by omega) (by omega), hm.cipherBit, h i b hb]

theorem holdsBits_append :
    HoldsBits c s n (bits ++ bits') ↔ HoldsBits c s n bits ∧ HoldsBits c s (n + bits.length) bits' := by
  constructor
  · refine fun h => ⟨fun i b hb => h i b ?_, fun i b hb => ?_⟩
    · rw [List.getElem?_append_left (List.getElem?_eq_some_iff.mp hb).1, hb]
    · rw [Nat.add_assoc]
      refine h _ b ?_
      rw [List.getElem?_append_right (Nat.le_add_right _ _), Nat.add_sub_cancel_left, hb]
  · rintro ⟨h, h'⟩ i b hb
    by_cases hi : i < bits.length
    · rw [List.getElem?_append_left hi] at hb
      exact h i b hb
    · rw [List.getElem?_append_right (Nat.le_of_not_lt hi)] at hb
      have hsplit : n + bits.length + (i - bits.length) = n + i := by omega
      rw [← hsplit]
      exact h' _ b hb

theorem Wrote.refl (h : Session c s n) : Wrote c n [] s s :=
  ⟨SameMedium.refl s, h, nofun, fun _ _ _ => rfl⟩

theorem Wrote.append (h : Wrote c n bits s t) (h' : Wrote c (n + bits.length) bits' t u)
    (hfit : n + bits.length ≤ s.bcCapacity.toNat) : Wrote c n (bits ++ bits') s u where
  medium := h.medium.trans h'.medium
  session := by
    rw [List.length_append, ← Nat.add_assoc]
    exact h'.session
  holds := by
    refine holdsBits_append.mpr ⟨h.holds.of_cellBit_eq h'.medium fun p _ hp => ?_, h'.holds⟩
    exact h'.others p (by rw [h.medium.bcCapacity]; omega) (.inl hp)
  others p hp hout := by
    rw [List.length_append] at hout
    rw [h'.others p (by rwa [h.medium.bcCapacity]) (by omega), h.others p hp (by omega)]

/-- Every cell still holds a bit. -/
theorem Wrote.full (h : Wrote c n bits s t) (hfull : Full s) : Full t := by
  intro p hp
  rw [h.medium.bcCapacity] at hp
  by_cases hin : n ≤ p ∧ p < n + bits.length
  · obtain ⟨hge, hlt⟩ := hin
    have hbit : bits[p - n]? = some bits[p - n] := List.getElem?_eq_getElem (by omega)
    have hcell := h.holds _ _ hbit
    rw [Nat.add_sub_cancel' hge] at hcell
    exact ⟨_, hcell⟩
  · rw [h.others p hp (by omega)]
    exact hfull p hp

/-- A write to a cell below the capacity. -/
theorem Session.write (h : Session c s n) (hlt : n < s.bcCapacity.toNat) {v : Bool} (hv : s.cellBit n = some v)
    (b : Bool) : ∃ t, exec (c.writeBit b) s = .next t ∧ t.rsp = some (rspWord 0 0 0) ∧ Wrote c n [b] s t := by
  obtain ⟨cell, px, hcell, htell, hbit, -⟩ := h.onCell hlt hv
  obtain ⟨-, -, -, hpixel⟩ := id hcell
  obtain ⟨t, hexec, hrsp, hadv, hsurface⟩ := h.exec_writeBit hcell b
  obtain ⟨hstored, hothers⟩ := hadv.medium.cellBit_setPixel htell hpixel hbit hsurface
  refine ⟨t, hexec, hrsp, hadv.medium, h.advance hlt hadv (exec_inv h.inv hexec), fun i b' hb' => ?_, fun p _ hp => ?_⟩
  · obtain ⟨hi, rfl⟩ := List.getElem?_eq_some_iff.mp hb'
    obtain rfl : i = 0 := Nat.lt_one_iff.mp hi
    rw [Nat.add_zero, hadv.medium.cipherBit]
    exact hstored
  · refine hothers p fun htell' => ?_
    obtain rfl := h.inv.tell_injective h.bcActive htell' htell
    simp at hp

theorem State.status_of_rsp {w : RspWord} (h : s.rsp = some w) : s.status = some (rspStatus w) := by
  rw [State.status, h]

theorem okRun_cons_of_next {i : Instr} {is : List Instr} {w : RspWord} (h : exec i s = .next t) (hrsp : t.rsp = some w)
    (hok : rspStatus w = 0) : okRun (i :: is) s = okRun is t := by
  rw [okRun, h]
  simp only [State.status_of_rsp hrsp, hok, if_true]

/-- Bits that fit are written one after the other. -/
theorem Session.okRun_writeBits (bits : List Bool) (h : Session c s n) (hfull : Full s)
    (hfit : n + bits.length ≤ s.bcCapacity.toNat) :
    ∃ t, okRun (bits.map c.writeBit) s = some t ∧ Wrote c n bits s t := by
  induction bits generalizing s n with
  | nil => exact ⟨s, rfl, .refl h⟩
  | cons b bits ih =>
    rw [List.length_cons] at hfit
    obtain ⟨v, hv⟩ := hfull n (by omega)
    obtain ⟨t, hexec, hrsp, hwrote⟩ := h.write (by omega) hv b
    obtain ⟨u, hrun, hrest⟩ := ih hwrote.session (hwrote.full hfull)
      (by rw [hwrote.medium.bcCapacity, List.length_singleton]; omega)
    refine ⟨u, ?_, hwrote.append hrest (by rw [List.length_singleton]; omega)⟩
    rw [List.map_cons, okRun_cons_of_next hexec hrsp (rspStatus_rspWord _ _ _), hrun]

end

/-! ### What a success says -/

/-- A write that answers OK found its cell below the capacity. -/
theorem exists_cellBit_of_writeBit {c : BitCursor} {n : Nat} {b : Bool} (h : Session c s n)
    (hexec : exec (c.writeBit b) s = .next t) (hok : t.status = some 0) :
    n < s.bcCapacity.toNat ∧ ∃ v, s.cellBit n = some v := by
  have hfound : s.atEnd = false ∧ ∃ cell px, s.tell (sext64 s.bcPosition).toNat = some cell ∧
      s.surface.pixel cell.point = some px := by
    cases c with
    | raw =>
      rcases execBcWriteBit_next hexec with ⟨-, rfl⟩ | ⟨-, -, rfl⟩ | ⟨-, hend, cell, px, htell, hpixel, -⟩
      · simp at hok
      · simp at hok
      · exact ⟨hend, cell, px, htell, hpixel⟩
    | ciphered =>
      rcases execCmWriteBit_next hexec with
        ⟨-, rfl⟩ | ⟨-, rfl⟩ | ⟨-, -, -, ⟨-, rfl⟩ | ⟨hend, cell, px, htell, hpixel, -⟩⟩
      · simp at hok
      · simp at hok
      · simp at hok
      · exact ⟨hend, cell, px, htell, hpixel⟩
  obtain ⟨hend, cell, px, htell, hpixel⟩ := hfound
  have hlt := h.inv.below_capacity h.bcActive hend
  rw [h.position] at hlt
  have hn : (sext64 s.bcPosition).toNat = n := by rw [sext64, h.toInt_position, Int.toNat_natCast]
  exact ⟨hlt, _, State.cellBit_eq_some_iff.mpr ⟨cell, px, hn ▸ htell, hpixel, rfl⟩⟩

/-- A write that answers OK has written its bit. -/
theorem Session.wrote_of_writeBit {c : BitCursor} {n : Nat} {b : Bool} (h : Session c s n)
    (hexec : exec (c.writeBit b) s = .next t) (hok : t.status = some 0) :
    n < s.bcCapacity.toNat ∧ Wrote c n [b] s t := by
  obtain ⟨hlt, v, hv⟩ := exists_cellBit_of_writeBit h hexec hok
  obtain ⟨t', hexec', -, hwrote⟩ := h.write hlt hv b
  obtain rfl : t = t' := by simpa [hexec] using hexec'
  exact ⟨hlt, hwrote⟩

theorem Wrote.cellBit_singleton {c : BitCursor} {n : Nat} {b : Bool} (h : Wrote c n [b] s t) :
    t.cellBit n = some (b ^^ cipherBit c s n) := by
  rw [← h.medium.cipherBit]
  exact h.holds 0 b rfl

/-- A cursor in session on the cell of its position. -/
theorem State.Inv.rawSession (hinv : s.Inv) (hactive : s.bcActive = true) : Session .raw s s.bcPosition.toNat :=
  ⟨hinv, ⟨hactive, nofun⟩, rfl, nofun⟩

theorem okRun_cons {i : Instr} {is : List Instr} (h : okRun (i :: is) s = some t) :
    ∃ u, exec i s = .next u ∧ u.status = some 0 ∧ okRun is u = some t := by
  rw [okRun] at h
  split at h
  · next u hu =>
    split at h
    · next hok => exact ⟨u, hu, hok, h⟩
    · cases h
  · cases h
  · cases h

/-- A seek from the start that answers OK was to a position below the capacity. -/
theorem lt_capacity_of_cmSeek {k : Word64} (hexec : exec (.cmSeek k .fromStart) s = .next t) (hok : t.status = some 0) :
    k.toNat < s.bcCapacity.toNat := by
  rcases execCmSeek_next hexec with ⟨-, rfl⟩ | ⟨-, rfl | rfl⟩ | ⟨-, c, rfl, h0, hlt, -⟩
  · simp at hok
  · simp at hok
  · simp at hok
  · have hnat : (sext64 k).toNat = k.toNat := toNat_sext64 h0
    simp only [State.seekCandidate, zext64] at h0 hlt
    omega

/-- The capacity of an active cursor is a function of the bounds and the channel configuration. -/
theorem State.Inv.bcCapacity_eq (hs : s.Inv) (hsa : s.bcActive = true) (ht : t.Inv) (hta : t.bcActive = true)
    (hwidth : s.width = t.width) (hheight : s.height = t.height) (hcfg : s.chancfg = t.chancfg) :
    s.bcCapacity = t.bcCapacity := by
  have hcells (u : State) (hu : u.Inv) (hua : u.bcActive = true) : u.bcCapacity.toNat =
      u.width.toNat * u.height.toNat * (cfgChannels u.chancfg).length * (cfgBpc u.chancfg).toNat := by
    obtain ⟨hw, hh⟩ := hu.ppBounds (hu.bcNeedsPp hua)
    obtain ⟨hchans, hbpc⟩ := hu.bcConfig hua
    rw [hu.bcCapacity hua, hw, hh, hchans, hbpc]
  apply BitVec.eq_of_toNat_eq
  rw [hcells s hs hsa, hcells t ht hta, hwidth, hheight, hcfg]

end Sys2Proof.Machine

open Sys2Proof Sys2Proof.Machine Sys2Proof.Claims

/-- Settles O44: the capacity counts the cells, and a position is its cell's point index, channel index and bit as
digits. -/
theorem tellNumbersTheBitCells : Obligations.TellNumbersTheBitCells := by
  unfold Obligations.TellNumbersTheBitCells
  intro s hinv hactive
  refine ⟨hinv.bcCapacity hactive, fun p hp => ?_, fun p q c _ _ htp htq => hinv.tell_injective hactive htp htq,
    fun c => hinv.exists_position hactive⟩
  obtain ⟨point, ch, -, -, htell⟩ := hinv.tell_isSome hactive hp
  exact ⟨_, htell, hinv.tell_in_range hactive htell⟩

/-- Settles O46: a write that succeeds has stored its bit in the cell of the position, which no other position shares.
-/
theorem writeChangesNoOtherCell : Obligations.WriteChangesNoOtherCell := by
  unfold Obligations.WriteChangesNoOtherCell
  intro s t b hinv hactive hexec hok
  obtain ⟨-, hwrote⟩ := (hinv.rawSession hactive).wrote_of_writeBit hexec hok
  refine ⟨?_, fun p hp hne => hwrote.others p hp ?_⟩
  · rw [hwrote.cellBit_singleton, cipherBit_raw, Bool.xor_false]
  · rw [List.length_singleton]
    omega

/-- Settles O45: the cell holds the bit in both states, the seek stands on it and the read answers it. -/
theorem readAfterWriteReturnsTheBit : Obligations.ReadAfterWriteReturnsTheBit := by
  unfold Obligations.ReadAfterWriteReturnsTheBit
  intro s t u b hinv hactive hexec hok huinv huactive hcap hcell
  obtain ⟨hlt, hwrote⟩ := (hinv.rawSession hactive).wrote_of_writeBit hexec hok
  have hubelow : s.bcPosition.toNat < u.bcCapacity.toNat := by rwa [hcap, hwrote.medium.bcCapacity]
  obtain ⟨v, hseek, hvrsp, hmedium, hsurface, hsession⟩ :=
    exec_seek_fromStart (c := .raw) huinv ⟨huactive, nofun⟩ hubelow
  have hvcell : v.cellBit s.bcPosition.toNat = some b := by
    rw [hmedium.cellBit hsurface, hcell, hwrote.cellBit_singleton, cipherBit_raw, Bool.xor_false]
  obtain ⟨w, hread, hwrsp, -⟩ := hsession.read (by rwa [hmedium.bcCapacity]) hvcell
  refine ⟨v, w, hseek, ?_, hread, ?_⟩
  · rw [State.status_of_rsp hvrsp, rspStatus_rspWord]
  · rw [hwrsp, cipherBit_raw, Bool.xor_false, bitData_eq]

/-- Settles O47: the bits are written one by one up to the capacity, where the cursor is at the end of the medium. -/
theorem capacityBitsFitAndNoMore : Obligations.CapacityBitsFitAndNoMore := by
  unfold Obligations.CapacityBitsFitAndNoMore
  intro s bits hinv hactive hstart hcovers hlen
  have hsession := hinv.rawSession hactive
  rw [hstart] at hsession
  obtain ⟨t, hrun, hwrote⟩ := hsession.okRun_writeBits bits (fun p hp => hinv.exists_cellBit hactive hcovers hp)
    (by rw [hlen]; exact Nat.le_of_eq (Nat.zero_add _))
  have hend : AtEnd t := by
    right
    rw [hwrote.session.toInt_position, hwrote.medium.bcCapacity, hlen]
    simp
  obtain ⟨-, -, -, hrefused⟩ := bcWriteBitStoresTheCell
  refine ⟨t, hrun, fun b => hrefused t b hwrote.session.bcActive hend, fun p hp => ?_⟩
  have hbit : bits[p]? = some bits[p] := List.getElem?_eq_getElem (hlen ▸ hp)
  have hcell := hwrote.holds p _ hbit
  rw [cipherBit_raw, Bool.xor_false] at hcell
  rw [hbit, ← hcell]
  simp

/-- Settles O51: a success of CM.SEEK commits one candidate to both positions, the bit commands advance both by one, and
the two INIT commands set both to 0. -/
theorem cmCommandsKeepPositionsEqual : Obligations.CmCommandsKeepPositionsEqual := by
  unfold Obligations.CmCommandsKeepPositionsEqual
  refine ⟨fun s t n mode h hok => ?_, fun s t i b hi hsynced h hok => ?_, fun s t h => ?_⟩
  · rcases execCmSeek_next h with ⟨-, rfl⟩ | ⟨-, rfl | rfl⟩ | ⟨-, c, -, -, -, rfl⟩
    · simp at hok
    · simp at hok
    · simp at hok
    · rfl
  · rw [State.Synced] at hsynced
    rcases hi with rfl | rfl
    · rcases execCmReadBit_next h with ⟨-, rfl⟩ | ⟨-, -, rfl⟩ | ⟨-, -, rfl⟩ | ⟨-, -, -, -, c, px, -, -, rfl⟩
      · simp at hok
      · simp at hok
      · simp at hok
      · simp [State.Synced, hsynced]
    · rcases execCmWriteBit_next h with ⟨-, rfl⟩ | ⟨-, rfl⟩ | ⟨-, -, -, ⟨-, rfl⟩ | ⟨-, c, px, -, -, rfl⟩⟩
      · simp at hok
      · simp at hok
      · simp at hok
      · simp [State.Synced, hsynced]
  · obtain ⟨u, hkg, -, hrun⟩ := okRun_cons h
    obtain ⟨v, hbc, hok, hnil⟩ := okRun_cons hrun
    obtain rfl := execKgInit_next hkg
    obtain rfl : v = t := Option.some.inj hnil
    rcases execBcInit_next hbc with ⟨-, rfl⟩ | ⟨-, rfl⟩
    · simp at hok
    · rfl

/-- Settles O52: both sessions stand at `k` with one key and nonce, so the write adds the keystream bit that the read
takes off again. -/
theorem cmSeekReadAfterSeekWriteReturnsTheBit : Obligations.CmSeekReadAfterSeekWriteReturnsTheBit := by
  unfold Obligations.CmSeekReadAfterSeekWriteReturnsTheBit
  intro s t u k b hinv hkg hbc hrun huinv hukg hubc hkey0 hkey1 hnonce _ hwidth hheight hcfg hcell
  obtain ⟨v, hseek, hvok, hrest⟩ := okRun_cons hrun
  obtain ⟨t', hwrite, htok, hnil⟩ := okRun_cons hrest
  obtain rfl : t' = t := Option.some.inj hnil
  have hlt := lt_capacity_of_cmSeek hseek hvok
  obtain ⟨v', hseek', -, hmedium, -, hsession⟩ := exec_seek_fromStart (c := .ciphered) hinv ⟨hbc, fun _ => hkg⟩ hlt
  obtain rfl : v = v' := by simpa [BitCursor.seek, hseek] using hseek'
  obtain ⟨-, hwrote⟩ := hsession.wrote_of_writeBit hwrite htok
  have hstored : t'.cellBit k.toNat = some (b ^^ ks s.key s.nonce k.toNat) := by
    rw [hwrote.cellBit_singleton, cipherBit_ciphered, hmedium.key, hmedium.nonce]
  refine ⟨hstored, ?_⟩
  have hcap : u.bcCapacity = t'.bcCapacity :=
    huinv.bcCapacity_eq hubc hwrote.session.inv hwrote.session.bcActive hwidth hheight hcfg
  have hubelow : k.toNat < u.bcCapacity.toNat := by rwa [hcap, hwrote.medium.bcCapacity, hmedium.bcCapacity]
  obtain ⟨v, huseek, hvrsp, humedium, husurface, husession⟩ :=
    exec_seek_fromStart (c := .ciphered) huinv ⟨hubc, fun _ => hukg⟩ hubelow
  have hvcell : v.cellBit k.toNat = some (b ^^ ks s.key s.nonce k.toNat) := by
    rw [humedium.cellBit husurface, hcell, hstored]
  have hks : cipherBit .ciphered v k.toNat = ks s.key s.nonce k.toNat := by
    have hkey : u.key = t'.key := by rw [State.key, hkey0, hkey1, State.key]
    rw [cipherBit_ciphered, humedium.key, humedium.nonce, hkey, hnonce, hwrote.medium.key, hwrote.medium.nonce,
      hmedium.key, hmedium.nonce]
  obtain ⟨w, huread, hwrsp, -⟩ := husession.read (by rwa [humedium.bcCapacity]) hvcell
  refine ⟨v, w, huseek, ?_, huread, ?_⟩
  · rw [State.status_of_rsp hvrsp, rspStatus_rspWord]
  · rw [hwrsp, hks, Bool.xor_assoc, Bool.xor_self, Bool.xor_false, bitData_eq]

end

section
/-! The ByteAdapter (45_host_byte_adapter_container R190 to R194): a command issued through the port, bytes written and
read bit by bit over either cursor. -/

namespace Sys2Proof.Machine

open Sys2Proof.Claims

variable {s t u : State} {c : BitCursor} {n : Nat}

/-! ### Issuing a command (30_encoding R100) -/

/-- The host gets the response of the command it issues, and what waited at the port stays. -/
theorem issue_of_exec {i : Instr} {w : RspWord} (hwf : WellFormed i = true) (hexec : exec i s = .next t)
    (hrsp : t.rsp = some w) : issue i s = some (w, t) := by
  have hstep : step { s with port := .command (encode i) :: s.port } = .next t :=
    (stepRunsTheDecodedCommand _ _ s.port i rfl (decode_encode hwf)).trans hexec
  rw [issue, hstep]
  simp only [hrsp]

theorem BitCursor.seek_wellFormed (c : BitCursor) (k : Word64) (mode : SeekMode) :
    WellFormed (c.seek k mode) = true := by
  cases c <;> rfl

theorem BitCursor.readBit_wellFormed (c : BitCursor) : WellFormed c.readBit = true := by cases c <;> rfl

theorem BitCursor.writeBit_wellFormed (c : BitCursor) (b : Bool) : WellFormed (c.writeBit b) = true := by
  cases c <;> rfl

theorem exists_rsp_of_status {st : Byte} (h : s.status = some st) : ∃ w, s.rsp = some w ∧ rspStatus w = st := by
  unfold State.status at h
  split at h
  · next w hw => exact ⟨w, hw, Option.some.inj h⟩
  · cases h

/-! ### Bits and bytes (45 R191) -/

/-- The bits of a buffer in the order of the medium. -/
def bufBits (buf : List Byte) : List Bool := buf.flatMap byteBits

theorem byteBits_length (v : Byte) : (byteBits v).length = 8 := rfl

@[simp] theorem bufBits_length (buf : List Byte) : (bufBits buf).length = 8 * buf.length := by
  induction buf with
  | nil => rfl
  | cons v buf ih =>
    rw [bufBits, List.flatMap_cons, List.length_append, byteBits_length, ← bufBits, ih, List.length_cons]
    omega

theorem bufBits_cons (v : Byte) (buf : List Byte) : bufBits (v :: buf) = byteBits v ++ bufBits buf :=
  List.flatMap_cons

theorem bufBits_append (buf buf' : List Byte) : bufBits (buf ++ buf') = bufBits buf ++ bufBits buf' :=
  List.flatMap_append

theorem byteBits_getElem? (v : Byte) {i : Nat} (hi : i < 8) : (byteBits v)[i]? = some (v.getLsbD (7 - i)) := by
  rw [byteBits, List.getElem?_map, List.getElem?_range hi, Option.map_some]

theorem bufBits_getElem? {buf : List Byte} {m i : Nat} (hm : m < buf.length) (hi : i < 8) :
    (bufBits buf)[8 * m + i]? = some ((buf.getD m 0).getLsbD (7 - i)) := by
  induction buf generalizing m with
  | nil => cases hm
  | cons v buf ih =>
    rw [bufBits_cons]
    cases m with
    | zero =>
      rw [Nat.mul_zero, Nat.zero_add, List.getElem?_append_left (by rwa [byteBits_length]), byteBits_getElem? v hi]
      rfl
    | succ m =>
      rw [List.length_cons] at hm
      have hrest : 8 * (m + 1) + i - (byteBits v).length = 8 * m + i := by
        rw [byteBits_length]
        omega
      rw [List.getElem?_append_right (by rw [byteBits_length]; omega), hrest, ih (by omega)]
      rfl

/-! ### Writing -/

theorem okRun_append {is js : List Instr} :
    okRun (is ++ js) s = some u → ∃ t, okRun is s = some t ∧ okRun js t = some u := by
  induction is generalizing s with
  | nil => exact fun h => ⟨s, rfl, h⟩
  | cons i is ih =>
    intro h
    obtain ⟨v, hexec, hok, hrun⟩ := okRun_cons h
    obtain ⟨t, hfirst, hsecond⟩ := ih hrun
    refine ⟨t, ?_, hsecond⟩
    obtain ⟨w, hrsp, hst⟩ := exists_rsp_of_status hok
    rw [okRun_cons_of_next hexec hrsp hst, hfirst]

/-- Bits that are all written are written by the adapter. -/
theorem baWriteBits_of_okRun {bits : List Bool} (h : okRun (bits.map c.writeBit) s = some t) :
    baWriteBits c bits s = some (0, t) := by
  induction bits generalizing s with
  | nil =>
    obtain rfl : s = t := Option.some.inj h
    rfl
  | cons b bits ih =>
    obtain ⟨u, hexec, hok, hrun⟩ := okRun_cons h
    obtain ⟨w, hrsp, hst⟩ := exists_rsp_of_status hok
    rw [baWriteBits, issue_of_exec (c.writeBit_wellFormed b) hexec hrsp]
    simp only [hst, if_true]
    exact ih hrun

/-- Bytes of which every bit is written are written by the adapter. -/
theorem baWrite_of_okRun {buf : List Byte} (h : okRun ((bufBits buf).map c.writeBit) s = some t) :
    baWrite c buf s = some ((buf.length, 0), t) := by
  induction buf generalizing s with
  | nil =>
    obtain rfl : s = t := Option.some.inj h
    rfl
  | cons v buf ih =>
    rw [bufBits_cons, List.map_append] at h
    obtain ⟨u, hbyte, hrest⟩ := okRun_append h
    rw [baWrite, baWriteBits_of_okRun hbyte]
    simp only [if_true, ih hrest, List.length_cons]

/-- Bytes that fit are written whole. -/
theorem Session.baWrite (h : Session c s n) (hfull : Full s) (buf : List Byte)
    (hfit : n + 8 * buf.length ≤ s.bcCapacity.toNat) :
    ∃ t, baWrite c buf s = some ((buf.length, 0), t) ∧ Wrote c n (bufBits buf) s t := by
  obtain ⟨t, hrun, hwrote⟩ := h.okRun_writeBits (bufBits buf) hfull (by rwa [bufBits_length])
  exact ⟨t, baWrite_of_okRun hrun, hwrote⟩

/-! ### Reading -/

/-- `t` is `s` after cursor `c` moved to position `n` and wrote nothing. -/
structure MovedTo (c : BitCursor) (n : Nat) (s t : State) : Prop where
  medium : SameMedium s t
  surface : t.surface = s.surface
  session : Session c t n

theorem MovedTo.trans {m : Nat} (h : MovedTo c n s t) (h' : MovedTo c m t u) : MovedTo c m s u :=
  ⟨h.medium.trans h'.medium, h'.surface.trans h.surface, h'.session⟩

theorem MovedTo.cellBit (h : MovedTo c n s t) (p : Nat) : t.cellBit p = s.cellBit p := h.medium.cellBit h.surface p

theorem MovedTo.full (h : MovedTo c n s t) (hfull : Full s) : Full t := fun p hp => by
  rw [h.cellBit p]
  exact hfull p (by rwa [← h.medium.bcCapacity])

theorem MovedTo.holdsBits {m : Nat} {bits : List Bool} (h : MovedTo c n s t) (hbits : HoldsBits c s m bits) :
    HoldsBits c t m bits := hbits.of_cellBit_eq h.medium fun p _ _ => h.cellBit p

/-- The low `k` bits of a byte, most significant first. -/
def lowBits (v : Byte) : Nat → List Bool
  | 0 => []
  | k + 1 => v.getLsbD k :: lowBits v k

theorem lowBits_eight (v : Byte) : lowBits v 8 = byteBits v := rfl

/-- The adapter's accumulator holds the bits read so far; bit `k` is the next. -/
theorem readAccumulator_succ (v : Byte) (k : Nat) :
    ((v >>> (k + 1)) <<< (k + 1)) ||| ((if v.getLsbD k then (1 : Byte) else 0) <<< k) = (v >>> k) <<< k := by
  apply BitVec.eq_of_getLsbD_eq
  intro i hi
  rcases Nat.lt_trichotomy i k with hlt | rfl | hgt
  · cases v.getLsbD k <;> simp [hlt, Nat.lt_succ_of_lt hlt]
  · cases hv : v.getLsbD i <;> simp [hi, hv, -BitVec.getLsbD_eq_getElem]
  · have hne : i - k ≠ 0 := by omega
    have hge : k + 1 ≤ i := hgt
    cases v.getLsbD k <;> simp [hi, hge, hne, Nat.le_of_lt hgt, Nat.not_lt.mpr hge, Nat.not_lt.mpr (Nat.le_of_lt hgt)]

theorem bitData_getLsbD_zero (b : Bool) : (bitData b).getLsbD 0 = b := by cases b <;> rfl

/-- The rest of a byte, the accumulator holding the bits above. -/
theorem Session.baReadByte {v : Byte} {k : Nat} (h : Session c s n) (hfit : n + k ≤ s.bcCapacity.toNat)
    (hholds : HoldsBits c s n (lowBits v k)) :
    ∃ t, baReadByte c k ((v >>> k) <<< k) s = some (.ok v, t) ∧ MovedTo c (n + k) s t := by
  induction k generalizing s n with
  | zero => exact ⟨s, by simp [Machine.baReadByte], SameMedium.refl s, rfl, h⟩
  | succ k ih =>
    have hbit := hholds 0 _ rfl
    rw [Nat.add_zero] at hbit
    obtain ⟨t, hexec, hrsp, hmedium, hsurface, hsession⟩ := h.read (by omega) hbit
    have hmoved : MovedTo c (n + 1) s t := ⟨hmedium, hsurface, hsession⟩
    obtain ⟨-, hrest⟩ := holdsBits_append (bits := [v.getLsbD k]).mp (hmoved.holdsBits hholds)
    obtain ⟨u, hread, hmoved'⟩ := ih hsession (by rw [hmedium.bcCapacity]; omega) hrest
    refine ⟨u, ?_, by rw [Nat.add_right_comm] at hmoved'; exact hmoved.trans hmoved'⟩
    rw [Bool.xor_assoc, Bool.xor_self, Bool.xor_false] at hrsp
    rw [Machine.baReadByte, issue_of_exec c.readBit_wellFormed hexec hrsp]
    simp only [rspStatus_rspWord, rspData_rspWord, bitData_getLsbD_zero, if_true, readAccumulator_succ]
    exact hread

/-- Bytes that the cells hold are read whole. -/
theorem Session.baRead {buf : List Byte} (h : Session c s n) (hfit : n + 8 * buf.length ≤ s.bcCapacity.toNat)
    (hholds : HoldsBits c s n (bufBits buf)) :
    ∃ t, baRead c buf.length s = some ((buf, 0), t) ∧ MovedTo c (n + 8 * buf.length) s t := by
  induction buf generalizing s n with
  | nil => exact ⟨s, rfl, SameMedium.refl s, rfl, h⟩
  | cons v buf ih =>
    rw [List.length_cons] at hfit
    rw [bufBits_cons, ← lowBits_eight] at hholds
    obtain ⟨hbyte, hrest⟩ := holdsBits_append.mp hholds
    have hstart : (v >>> 8) <<< 8 = (0 : Byte) := by simp
    obtain ⟨t, hread, hmoved⟩ := h.baReadByte (by omega) hbyte
    obtain ⟨u, hreads, hmoved'⟩ := ih hmoved.session (by rw [hmoved.medium.bcCapacity]; omega) (hmoved.holdsBits hrest)
    refine ⟨u, ?_, ?_⟩
    · rw [hstart] at hread
      rw [List.length_cons, Machine.baRead, hread]
      simp only [hreads]
    · rw [List.length_cons, Nat.mul_succ, Nat.add_comm (8 * buf.length), ← Nat.add_assoc]
      exact hmoved.trans hmoved'

/-! ### Seeking (45 R193) -/

theorem word64OfInt_natCast_toNat {k : Nat} (hk : k < 2 ^ 64) : (word64OfInt k).toNat = k := by
  rw [word64OfInt, BitVec.ofInt_natCast, BitVec.toNat_ofNat, Nat.mod_eq_of_lt hk]

/-- A byte offset below the capacity is a bit offset the cursor can seek to. -/
theorem baSeek_fromStart (hinv : s.Inv) (hready : CursorReady c s) {off : Nat} (hlt : 8 * off < s.bcCapacity.toNat) :
    ∃ t, baSeek c off .fromStart s = some (0, t) ∧ MovedTo c (8 * off) s t := by
  obtain ⟨hbc, -⟩ := id hready
  obtain ⟨-, hcap⟩ := hinv.capacity_eq hbc
  have hnat : (word64OfInt (8 * (off : Int))).toNat = 8 * off := by
    have hcast : 8 * (off : Int) = ((8 * off : Nat) : Int) := by push_cast; rfl
    rw [hcast, word64OfInt_natCast_toNat (by omega)]
  obtain ⟨t, hexec, hrsp, hmedium, hsurface, hsession⟩ := exec_seek_fromStart hinv hready (by rwa [hnat])
  rw [hnat] at hsession
  refine ⟨t, ?_, hmedium, hsurface, hsession⟩
  rw [baSeek, if_pos (by rw [Int.natAbs_natCast]; omega),
    issue_of_exec (c.seek_wellFormed _ _) hexec hrsp]
  simp only [rspStatus_rspWord]

end Sys2Proof.Machine

open Sys2Proof Sys2Proof.Machine Sys2Proof.Claims

/-- Settles O57: the bytes are written bit by bit into the cells from the offset on, and the read takes them from
there. -/
theorem byteAdapterReadsBackWhatItWrote : Obligations.ByteAdapterReadsBackWhatItWrote := by
  unfold Obligations.ByteAdapterReadsBackWhatItWrote
  intro c s off buf hinv hready hcovers hfit hlt
  obtain ⟨hbc, -⟩ := id hready
  have hfull : Full s := fun p hp => hinv.exists_cellBit hbc hcovers hp
  obtain ⟨s1, hseek1, hmoved1⟩ := baSeek_fromStart hinv hready hlt
  obtain ⟨s2, hwrite, hwrote⟩ := hmoved1.session.baWrite (hmoved1.full hfull) buf
    (by rw [hmoved1.medium.bcCapacity]; omega)
  have hmedium : SameMedium s s2 := hmoved1.medium.trans hwrote.medium
  obtain ⟨s3, hseek3, hmoved3⟩ := baSeek_fromStart hwrote.session.inv hwrote.session.ready
    (by rwa [hmedium.bcCapacity])
  obtain ⟨s4, hread, hmoved4⟩ := hmoved3.session.baRead
    (by rw [hmoved3.medium.bcCapacity, hmedium.bcCapacity]; omega) (hmoved3.holdsBits hwrote.holds)
  refine ⟨s1, s2, s3, s4, hseek1, hwrite, hseek3, hread, ?_, fun m i hm hi => ?_⟩
  · rw [hmoved4.session.position]
    omega
  · have hcell := hwrote.holds _ _ (bufBits_getElem? hm hi)
    rw [hmedium.cipherBit, ← Nat.add_assoc, ← Nat.mul_add] at hcell
    exact hcell

end

section
/-! Encode and decode (45_host_byte_adapter_container R199 to R207): the state that the set-up commands leave, the frame
written and read back over a cursor, and a payload through two blocks. -/

namespace Sys2Proof.Machine

open Sys2Proof.Claims

variable {s t u : State} {p : HostParams} {pass payload : List Byte}

/-! ### The set-up commands (R203) -/

/-- The configuration registers written, every session ended. -/
def configured (p : HostParams) (pass : List Byte) (s : State) : State :=
  { s with
    key0 := blockWord0 (deriveKey p.pad pass), key1 := blockWord1 (deriveKey p.pad pass), nonce := p.nonce
    seed := deriveSeed p.seedHash pass, width := p.width, height := p.height, chancfg := p.chancfg
    kgActive := false, ppValid := false, bcActive := false }

/-- The state that the ten set-up commands leave, apart from the response. -/
def setupState (p : HostParams) (pass : List Byte) (s : State) : State :=
  (configured p pass s).initKg.withGeneratedTable.initCursor

theorem issueAll_cons_of_exec {i j : Instr} {is : List Instr} (hwf : WellFormed i = true) {aux : Byte} {data : Word64}
    (hexec : exec i s = .next (u.respond aux data)) :
    issueAll (i :: j :: is) s = issueAll (j :: is) (u.respond aux data) := by
  rw [issueAll, issue_of_exec hwf hexec rfl]
  · simp only [rspStatus_rspWord, if_true]
  · exact nofun

/-- With a legal configuration all ten commands succeed, and the last answers the capacity. -/
theorem issueAll_setupCommands (hcfg : cfgLegal p.chancfg = true) (hsize : p.width.toNat * p.height.toNat ≤ 2 ^ 32)
    (pass : List Byte) (s : State) :
    issueAll (setupCommands p pass) s = some (rspWord 0 0 (setupState p pass s).bcCapacity,
      (setupState p pass s).respond 0 (setupState p pass s).bcCapacity) := by
  rw [setupCommands, issueAll_cons_of_exec rfl (exec_wrReg_key0 _ _), issueAll_cons_of_exec rfl (exec_wrReg_key1 _ _),
    issueAll_cons_of_exec rfl (exec_wrReg_nonce _ _), issueAll_cons_of_exec rfl (exec_wrReg_seed _ _),
    issueAll_cons_of_exec rfl (exec_wrReg_width _ _), issueAll_cons_of_exec rfl (exec_wrReg_height _ _),
    issueAll_cons_of_exec rfl (exec_wrReg_chancfg _ hcfg), issueAll_cons_of_exec rfl (exec_kgInit _),
    issueAll_cons_of_exec rfl (exec_ppGen_of_le hsize)]
  exact issue_of_exec rfl (exec_bcInit_of_valid rfl) rfl

/-- The capacity of the set-up cursor (43 R162). -/
theorem setupState_capacity (hcfg : cfgLegal p.chancfg = true) (hsize : p.width.toNat * p.height.toNat ≤ 2 ^ 32)
    (pass : List Byte) (s : State) : (setupState p pass s).bcCapacity.toNat =
      p.width.toNat * p.height.toNat * (cfgChannels p.chancfg).length * (cfgBpc p.chancfg).toNat := by
  obtain ⟨-, -, -, -, -, hcount⟩ := cfgLegal_shape hcfg
  rw [← hcount]
  exact State.initCursor_bcCapacity_toNat hsize

/-- The set-up begins a session of the ciphered cursor at position 0. -/
theorem setupState_session (hcfg : cfgLegal p.chancfg = true) (hsize : p.width.toNat * p.height.toNat ≤ 2 ^ 32)
    (pass : List Byte) (hinv : s.Inv) (aux : Byte) (data : Word64) :
    Session .ciphered ((setupState p pass s).respond aux data) 0 where
  inv := by
    have hconf : (configured p pass s).Inv := ((hinv.endKg _ _ _).endTable _ _ _).endCursor hcfg
    have htable : (configured p pass s).initKg.withGeneratedTable.Inv := hconf.initKg.withGeneratedTable hsize
    exact (htable.initCursor rfl).respond _ _
  ready := ⟨rfl, fun _ => rfl⟩
  position := rfl
  synced _ := rfl

/-- Every block set up with one configuration and passphrase has the same cells under the same keystream. -/
theorem setupState_medium (p : HostParams) (pass : List Byte) (s s' : State) (aux : Byte) (data : Word64) :
    SameMedium ((setupState p pass s).respond aux data) ((setupState p pass s').respond aux data) :=
  ⟨rfl, rfl, rfl, rfl, rfl, rfl⟩

/-! ### The frame (R196 to R200) -/

/-- Length, payload, digest. -/
def frameBytes (h : FrameHash) (payload : List Byte) : List Byte :=
  le32 payload.length ++ (payload ++ (h.digest payload).toList)

section
variable {c : BitCursor} {h : FrameHash}

/-- A frame of a payload that fits is written whole. -/
theorem ctWritePayload_ok (hinv : s.Inv) (hready : CursorReady c s) (hfull : Full s)
    (hfit : 8 * (4 + payload.length + h.ds) ≤ s.bcCapacity.toNat) (hcap : 32 < s.bcCapacity.toNat)
    (hlen : payload.length < 2 ^ 32) :
    ∃ t, ctWritePayload h c [payload] s = some (.ok (), t) ∧ SameMedium s t ∧
      HoldsBits c t 0 (bufBits (frameBytes h payload)) := by
  have hds : (h.digest payload).toList.length = h.ds := Vector.length_toList
  obtain ⟨s1, hseek1, hmoved1⟩ := baSeek_fromStart (off := 4) hinv hready (by omega)
  have hcap1 := hmoved1.medium.bcCapacity
  obtain ⟨s2, hpayload, hwrote2⟩ := hmoved1.session.baWrite (hmoved1.full hfull) payload (by rw [hcap1]; omega)
  have hcap2 := hwrote2.medium.bcCapacity
  obtain ⟨s3, hdigest, hwrote3⟩ := hwrote2.session.baWrite (hwrote2.full (hmoved1.full hfull)) (h.digest payload).toList
    (by rw [hcap2, hcap1, hds, bufBits_length]; omega)
  have hdata := hwrote2.append hwrote3 (by rw [hcap1, bufBits_length]; omega)
  have hcap3 := hdata.medium.bcCapacity
  obtain ⟨s4, hseek4, hmoved4⟩ := baSeek_fromStart (off := 0) hdata.session.inv hdata.session.ready
    (by rw [hcap3, hcap1]; omega)
  have hcap4 := hmoved4.medium.bcCapacity
  obtain ⟨s5, hlength, hwrote5⟩ := hmoved4.session.baWrite (hmoved4.full (hdata.full (hmoved1.full hfull)))
    (le32 payload.length) (by rw [hcap4, hcap3, hcap1, le32_length]; omega)
  have hstream : ctStream c [payload] [] s1 = some (.ok payload, s2) := by
    simp only [ctStream, hpayload, if_true, List.nil_append]
  have hseek4' : baSeek c 0 .fromStart s3 = some (0, s4) := hseek4
  have hfinish : ctFinish h c payload s2 = some (.ok (), s5) := by
    simp only [ctFinish, hdigest, hseek4', hlength, ne_eq, not_true_eq_false, false_or, Nat.not_le.mpr hlen, if_false,
      if_true]
  have hseek1' : baSeek c 4 .fromStart s = some (0, s1) := hseek1
  refine ⟨s5, ?_, ((hmoved1.medium.trans hdata.medium).trans hmoved4.medium).trans hwrote5.medium, ?_⟩
  · simp only [ctWritePayload, hseek1', hstream, hfinish, ne_eq, not_true_eq_false, if_false]
  · rw [frameBytes, bufBits_append, holdsBits_append]
    refine ⟨hwrote5.holds, ?_⟩
    have hkept : HoldsBits c s5 32 (bufBits payload ++ bufBits (h.digest payload).toList) := by
      refine (hmoved4.holdsBits hdata.holds).of_cellBit_eq hwrote5.medium fun p hp hlt => ?_
      rw [List.length_append, bufBits_length, bufBits_length, hds] at hlt
      refine hwrote5.others p (by rw [hcap4, hcap3, hcap1]; omega) (.inr ?_)
      rw [bufBits_length, le32_length]
      omega
    rw [bufBits_append]
    exact hkept

/-- A frame that the cells hold from position 0 on is read back. -/
theorem ctReadPayload_ok (hsession : Session c s 0) (hfit : 8 * (4 + payload.length + h.ds) ≤ s.bcCapacity.toNat)
    (hlen : payload.length < 2 ^ 32) (hholds : HoldsBits c s 0 (bufBits (frameBytes h payload))) :
    ∃ t, ctReadPayload h c s = some (.ok payload, t) := by
  have hds : (h.digest payload).toList.length = h.ds := Vector.length_toList
  rw [frameBytes, bufBits_append, holdsBits_append, bufBits_append, holdsBits_append] at hholds
  obtain ⟨hlength, hpayload, hdigest⟩ := hholds
  obtain ⟨s1, hread1, hmoved1⟩ := hsession.baRead (by rw [le32_length]; omega) hlength
  have hcap1 := hmoved1.medium.bcCapacity
  obtain ⟨s2, hread2, hmoved2⟩ := hmoved1.session.baRead (buf := payload) (by rw [hcap1, le32_length]; omega)
    (hmoved1.holdsBits (by rwa [bufBits_length] at hpayload))
  have hcap2 := hmoved2.medium.bcCapacity
  obtain ⟨s3, hread3, -⟩ := hmoved2.session.baRead (buf := (h.digest payload).toList)
    (by rw [hcap2, hcap1, le32_length, hds]; omega)
    (hmoved2.holdsBits (hmoved1.holdsBits (by rwa [bufBits_length, bufBits_length] at hdigest)))
  have hnumber : ofLE32 (le32 payload.length) = payload.length := (ofLE32_le32 _).trans (Nat.mod_eq_of_lt hlen)
  rw [le32_length] at hread1
  rw [hds] at hread3
  refine ⟨s3, ?_⟩
  simp only [ctReadPayload, hread1, le32_length, hnumber, hread2, hread3, hds, Nat.lt_irrefl, if_false, if_true]

end

/-! ### Encode and decode, the surface being attached -/

/-- The pre-flight check refuses a frame of more bits than the capacity, right after the set-up (R202). -/
theorem encodePayload_refused (hcfg : cfgLegal p.chancfg = true) (hsize : p.width.toNat * p.height.toNat ≤ 2 ^ 32)
    (hbig : p.width.toNat * p.height.toNat * (cfgChannels p.chancfg).length * (cfgBpc p.chancfg).toNat <
      8 * (4 + payload.length + p.frameHash.ds)) (pass : List Byte) (s : State) :
    ∃ t, encodePayload p pass payload s = some (.error .capacityExceeded, t) ∧ t.surface = s.surface := by
  have hover : (setupState p pass s).bcCapacity.toNat < frameBits p.frameHash payload.length := by
    rw [setupState_capacity hcfg hsize]
    exact hbig
  refine ⟨(setupState p pass s).respond 0 (setupState p pass s).bcCapacity, ?_, rfl⟩
  simp only [encodePayload, issueAll_setupCommands hcfg hsize, rspStatus_rspWord, rspData_rspWord, ne_eq,
    not_true_eq_false, if_false, hover, if_true]

/-- A payload that fits is encoded, and its frame stands in the cells of the set-up cursor. -/
theorem encodePayload_ok (hfits : FrameFits p payload.length) (hinv : s.Inv)
    (hcovers : s.surface.Covers p.width.toNat p.height.toNat) :
    ∃ t, encodePayload p pass payload s = some (.ok (), t) ∧
      SameMedium ((setupState p pass s).respond 0 (setupState p pass s).bcCapacity) t ∧
      HoldsBits .ciphered t 0 (bufBits (frameBytes p.frameHash payload)) := by
  obtain ⟨hcfg, hsize, hfit, hcap, hlen⟩ := hfits
  have hcapacity := setupState_capacity hcfg hsize pass s
  have hsession := setupState_session hcfg hsize pass hinv 0 (setupState p pass s).bcCapacity
  rw [← hcapacity] at hfit hcap
  obtain ⟨t, hwrite, hmedium, hholds⟩ := ctWritePayload_ok hsession.inv hsession.ready
    (fun q hq => hsession.inv.exists_cellBit rfl hcovers hq) hfit hcap hlen
  refine ⟨t, ?_, hmedium, hholds⟩
  simp only [encodePayload, issueAll_setupCommands hcfg hsize, rspStatus_rspWord, rspData_rspWord, ne_eq,
    not_true_eq_false, if_false, frameBits, Nat.not_lt.mpr hfit]
  exact hwrite

/-- A block whose set-up cursor has the frame in its cells decodes the payload. -/
theorem decodePayload_ok (hfits : FrameFits p payload.length) (hinv : s.Inv)
    (hholds : HoldsBits .ciphered ((setupState p pass s).respond 0 (setupState p pass s).bcCapacity) 0
      (bufBits (frameBytes p.frameHash payload))) : ∃ t, decodePayload p pass s = some (.ok payload, t) := by
  obtain ⟨hcfg, hsize, hfit, -, hlen⟩ := hfits
  rw [← setupState_capacity hcfg hsize pass s] at hfit
  obtain ⟨t, hread⟩ := ctReadPayload_ok (setupState_session hcfg hsize pass hinv 0 _) hfit hlen hholds
  refine ⟨t, ?_⟩
  simp only [decodePayload, issueAll_setupCommands hcfg hsize, rspStatus_rspWord, if_true]
  exact hread

/-- What one block encodes every other decodes from a surface with the same pixels (R207). -/
theorem decode_of_encode (hfits : FrameFits p payload.length) (hinv : s.Inv)
    (hcovers : s.surface.Covers p.width.toNat p.height.toNat) :
    ∃ t, encodePayload p pass payload s = some (.ok (), t) ∧
      ∀ s' : State, s'.Inv → (∀ q, s'.surface.pixel q = t.surface.pixel q) →
        ∃ t', decodePayload p pass s' = some (.ok payload, t') := by
  obtain ⟨t, hencode, hmedium, hholds⟩ := encodePayload_ok hfits hinv hcovers
  refine ⟨t, hencode, fun s' hinv' hpixels => decodePayload_ok hfits hinv' ?_⟩
  have hback : SameMedium t ((setupState p pass s').respond 0 (setupState p pass s').bcCapacity) :=
    hmedium.symm.trans (setupState_medium p pass s s' 0 _)
  exact hholds.of_cellBit_eq hback fun q _ _ => State.cellBit_congr (hback.tell q) hpixels

/-! ### With the surface attached by the call (R203, 70_reset R263) -/

/-- The state in which a call begins once its surface is attached. -/
def lentState (surface : List (Point × Pixel)) (s : State) : State :=
  { (if s.bcActive then s.takeReset else s) with surface := Memory.ofPixels surface }

theorem lendSurface_eq_lentState (surface : List (Point × Pixel)) (s : State) :
    lendSurface surface s = some (lentState surface s) := lendSurface_eq surface s

theorem lentState_inv (hinv : s.Inv) (surface : List (Point × Pixel)) : (lentState surface s).Inv := by
  refine State.Inv.setSurface ?_ _ (Memory.ofPixels_wf surface)
  split
  · exact State.takeReset_inv hinv.surfaceWf
  · exact hinv

theorem hostEncode_eq (p : HostParams) (surface : List (Point × Pixel)) (pass payload : List Byte) (s : State) :
    hostEncode p surface pass payload s = encodePayload p pass payload (lentState surface s) := by
  simp only [hostEncode, lendSurface_eq_lentState]

theorem hostDecode_eq (p : HostParams) (surface : List (Point × Pixel)) (pass : List Byte) (s : State) :
    hostDecode p surface pass s = decodePayload p pass (lentState surface s) := by
  simp only [hostDecode, lendSurface_eq_lentState]

end Sys2Proof.Machine

open Sys2Proof Sys2Proof.Machine

/-- Settles O58: the set-up succeeds in every state and touches no pixel, and the check comes right after it; the
attached surface is the one of the call. -/
theorem preflightRefusesBeforeAnyWrite : Obligations.PreflightRefusesBeforeAnyWrite := by
  unfold Obligations.PreflightRefusesBeforeAnyWrite
  intro p pass payload surface s hcfg hsize hbig
  refine ⟨encodePayload_refused hcfg hsize hbig pass s, ?_⟩
  rw [hostEncode_eq]
  exact encodePayload_refused hcfg hsize hbig pass (lentState surface s)

/-- Settles O59: the frame stands enciphered in the cells of the cursor, which every block set up alike shares, so it is
read back; a call that attaches its surface begins in such a state. -/
theorem decodeOfEncodeIsThePayload : Obligations.DecodeOfEncodeIsThePayload := by
  unfold Obligations.DecodeOfEncodeIsThePayload
  refine ⟨fun p pass payload s hfits hinv hcovers => decode_of_encode hfits hinv hcovers,
    fun p pass payload surface s hfits hinv hcovers => ?_⟩
  obtain ⟨t, hencode, hdecode⟩ := decode_of_encode (pass := pass) hfits (lentState_inv hinv surface) hcovers
  refine ⟨t, (hostEncode_eq p surface pass payload s).trans hencode, fun lent s' hinv' hnodup hlent => ?_⟩
  rw [hostDecode_eq]
  refine hdecode (lentState lent s') (lentState_inv hinv' lent) fun q => Option.ext fun px => ?_
  exact (Memory.pixel_ofPixels hnodup q px).trans (hlent q px)

end
